-- ==== Sys2Proof/Word.lean ====
section
/-! DEFINITION. The values of the machine (spec 00_scope.md R7, R8): words, bytes and register indices. -/

namespace Sys2Proof

/-- A word: the 32-bit value of a register, an instruction or an address (R5, R8). Arithmetic wraps modulo 2^32. -/
abbrev Word := BitVec 32

/-- The smallest addressable unit of a Memory (R51). -/
abbrev Byte := BitVec 8

/-- A halfword, as the extended loads and stores move it (R60, R61). -/
abbrev Half := BitVec 16

/-- A 64-bit product or accumulator of the long multiplies (R233). -/
abbrev DWord := BitVec 64

/-- A 4-bit register field; it names `x[0]` to `x[15]` directly (R21, R115). -/
abbrev RegIx := BitVec 4

end Sys2Proof
end

