-- ==== Sys2Proof/Syntax.lean ====
section
/-! DEFINITION. The instruction as syntax (spec 30_encoding.md R91 to R111, R122): one constructor of `Instr` per row of
spec/opcode_table.json. A row is one instruction in one format; a format is a structure that holds the fields the
format's rule names and the row does not fix. Bits the formats do not name are don't-care (R97) and are not kept. -/

namespace Sys2Proof

/-- The fifteen conditions of R93. The sixteenth code, `1111`, is no condition (R94). -/
inductive Cond where
  | eq | ne | cs | cc | mi | pl | vs | vc | hi | ls | ge | lt | gt | le | al
  deriving DecidableEq, Repr

/-- The four shifter types of `stype` (R99): logical-left, logical-right, arithmetic-right, rotate-right. -/
inductive ShiftType where
  | lsl | lsr | asr | ror
  deriving DecidableEq, Repr

/-- The sixteen ALU operations, in the order of their opcode numbers (R116). -/
inductive AluOp where
  | and | eor | sub | rsb | add | adc | sbc | rsc | tst | teq | cmp | cmn | orr | mov | bic | mvn
  deriving DecidableEq, Repr

/-- Format `DPI`, data processing with rotated immediate (R98). -/
structure DPI where
  cond : Cond
  s    : Bool
  rn   : RegIx
  rd   : RegIx
  rot  : BitVec 4
  imm8 : BitVec 8
  deriving DecidableEq, Repr

/-- Format `DPR`, data processing with register shifted by immediate (R99). -/
structure DPR where
  cond  : Cond
  s     : Bool
  rn    : RegIx
  rd    : RegIx
  shamt : BitVec 5
  stype : ShiftType
  rm    : RegIx
  deriving DecidableEq, Repr

/-- Format `DPRS`, data processing with register shifted by register (R100). -/
structure DPRS where
  cond  : Cond
  s     : Bool
  rn    : RegIx
  rd    : RegIx
  rs    : RegIx
  stype : ShiftType
  rm    : RegIx
  deriving DecidableEq, Repr

/-- Format `BR`, branch and branch-with-link (R101). -/
structure BR where
  cond  : Cond
  imm24 : BitVec 24
  deriving DecidableEq, Repr

/-- Format `BXR`, branch-and-exchange (R102). -/
structure BXR where
  cond : Cond
  rm   : RegIx
  deriving DecidableEq, Repr

/-- Format `LSI`, single load/store with immediate offset (R103). -/
structure LSI where
  cond  : Cond
  p     : Bool
  u     : Bool
  w     : Bool
  rn    : RegIx
  rd    : RegIx
  imm12 : BitVec 12
  deriving DecidableEq, Repr

/-- Format `LSR`, single load/store with shifted-register offset (R104). -/
structure LSR where
  cond  : Cond
  p     : Bool
  u     : Bool
  w     : Bool
  rn    : RegIx
  rd    : RegIx
  shamt : BitVec 5
  stype : ShiftType
  rm    : RegIx
  deriving DecidableEq, Repr

/-- Format `LSM`, load/store multiple (R105); bit k of `reglist` selects `x[k]`. -/
structure LSM where
  cond    : Cond
  p       : Bool
  u       : Bool
  w       : Bool
  rn      : RegIx
  reglist : BitVec 16
  deriving DecidableEq, Repr

/-- Format `XLI`, extended load/store with immediate offset `immH ++ immL` (R106). -/
structure XLI where
  cond : Cond
  p    : Bool
  u    : Bool
  w    : Bool
  rn   : RegIx
  rd   : RegIx
  immH : BitVec 4
  immL : BitVec 4
  deriving DecidableEq, Repr

/-- Format `XLR`, extended load/store with register offset (R107). -/
structure XLR where
  cond : Cond
  p    : Bool
  u    : Bool
  w    : Bool
  rn   : RegIx
  rd   : RegIx
  rm   : RegIx
  deriving DecidableEq, Repr

/-- Format `MUL`, multiply and multiply-accumulate (R108); `rn` is the accumulator of MLA, don't-care for MUL. -/
structure MULF where
  cond : Cond
  s    : Bool
  rd   : RegIx
  rn   : RegIx
  rs   : RegIx
  rm   : RegIx
  deriving DecidableEq, Repr

/-- Format `MULL`, multiply-long (R109). -/
structure MULL where
  cond : Cond
  s    : Bool
  rdHi : RegIx
  rdLo : RegIx
  rs   : RegIx
  rm   : RegIx
  deriving DecidableEq, Repr

/-- Format `SWP`, atomic swap (R110): `rn` holds the address, `rm` the value written, `rd` is the destination. -/
structure SWPF where
  cond : Cond
  rn   : RegIx
  rd   : RegIx
  rm   : RegIx
  deriving DecidableEq, Repr

/-- The instructions: one constructor per row of spec/opcode_table.json. A recognised-and-refused instruction keeps its
condition only, since no operand of it is extracted (R111); BLX immediate has none (R264). -/
inductive Instr where
  | andDPI (f : DPI)
  | andDPR (f : DPR)
  | andDPRS (f : DPRS)
  | eorDPI (f : DPI)
  | eorDPR (f : DPR)
  | eorDPRS (f : DPRS)
  | subDPI (f : DPI)
  | subDPR (f : DPR)
  | subDPRS (f : DPRS)
  | rsbDPI (f : DPI)
  | rsbDPR (f : DPR)
  | rsbDPRS (f : DPRS)
  | addDPI (f : DPI)
  | addDPR (f : DPR)
  | addDPRS (f : DPRS)
  | adcDPI (f : DPI)
  | adcDPR (f : DPR)
  | adcDPRS (f : DPRS)
  | sbcDPI (f : DPI)
  | sbcDPR (f : DPR)
  | sbcDPRS (f : DPRS)
  | rscDPI (f : DPI)
  | rscDPR (f : DPR)
  | rscDPRS (f : DPRS)
  | tstDPI (f : DPI)
  | tstDPR (f : DPR)
  | tstDPRS (f : DPRS)
  | teqDPI (f : DPI)
  | teqDPR (f : DPR)
  | teqDPRS (f : DPRS)
  | cmpDPI (f : DPI)
  | cmpDPR (f : DPR)
  | cmpDPRS (f : DPRS)
  | cmnDPI (f : DPI)
  | cmnDPR (f : DPR)
  | cmnDPRS (f : DPRS)
  | orrDPI (f : DPI)
  | orrDPR (f : DPR)
  | orrDPRS (f : DPRS)
  | movDPI (f : DPI)
  | movDPR (f : DPR)
  | movDPRS (f : DPRS)
  | bicDPI (f : DPI)
  | bicDPR (f : DPR)
  | bicDPRS (f : DPRS)
  | mvnDPI (f : DPI)
  | mvnDPR (f : DPR)
  | mvnDPRS (f : DPRS)
  | b (f : BR)
  | bl (f : BR)
  | bx (f : BXR)
  | ldrLSI (f : LSI)
  | ldrLSR (f : LSR)
  | strLSI (f : LSI)
  | strLSR (f : LSR)
  | ldrbLSI (f : LSI)
  | ldrbLSR (f : LSR)
  | strbLSI (f : LSI)
  | strbLSR (f : LSR)
  | ldm (f : LSM)
  | stm (f : LSM)
  | ldrhXLI (f : XLI)
  | ldrhXLR (f : XLR)
  | strhXLI (f : XLI)
  | strhXLR (f : XLR)
  | ldrsbXLI (f : XLI)
  | ldrsbXLR (f : XLR)
  | ldrshXLI (f : XLI)
  | ldrshXLR (f : XLR)
  | mul (f : MULF)
  | mla (f : MULF)
  | umull (f : MULL)
  | umlal (f : MULL)
  | smull (f : MULL)
  | smlal (f : MULL)
  | swp (f : SWPF)
  | swpb (f : SWPF)
  | mrs (c : Cond)
  | msrReg (c : Cond)
  | msrImm (c : Cond)
  | blxReg (c : Cond)
  | blxImm
  | bkpt (c : Cond)
  | qadd (c : Cond)
  | qsub (c : Cond)
  | qdadd (c : Cond)
  | qdsub (c : Cond)
  | cdp (c : Cond)
  | mcr (c : Cond)
  | mrc (c : Cond)
  | ldc (c : Cond)
  | stc (c : Cond)
  | swi (c : Cond)
  deriving DecidableEq, Repr

/-- The condition field of an instruction (R91); `none` for BLX immediate, the one row with `cond = 1111` (R94, R264). -/
def Instr.cond? : Instr → Option Cond
  | .andDPI f => some f.cond
  | .andDPR f => some f.cond
  | .andDPRS f => some f.cond
  | .eorDPI f => some f.cond
  | .eorDPR f => some f.cond
  | .eorDPRS f => some f.cond
  | .subDPI f => some f.cond
  | .subDPR f => some f.cond
  | .subDPRS f => some f.cond
  | .rsbDPI f => some f.cond
  | .rsbDPR f => some f.cond
  | .rsbDPRS f => some f.cond
  | .addDPI f => some f.cond
  | .addDPR f => some f.cond
  | .addDPRS f => some f.cond
  | .adcDPI f => some f.cond
  | .adcDPR f => some f.cond
  | .adcDPRS f => some f.cond
  | .sbcDPI f => some f.cond
  | .sbcDPR f => some f.cond
  | .sbcDPRS f => some f.cond
  | .rscDPI f => some f.cond
  | .rscDPR f => some f.cond
  | .rscDPRS f => some f.cond
  | .tstDPI f => some f.cond
  | .tstDPR f => some f.cond
  | .tstDPRS f => some f.cond
  | .teqDPI f => some f.cond
  | .teqDPR f => some f.cond
  | .teqDPRS f => some f.cond
  | .cmpDPI f => some f.cond
  | .cmpDPR f => some f.cond
  | .cmpDPRS f => some f.cond
  | .cmnDPI f => some f.cond
  | .cmnDPR f => some f.cond
  | .cmnDPRS f => some f.cond
  | .orrDPI f => some f.cond
  | .orrDPR f => some f.cond
  | .orrDPRS f => some f.cond
  | .movDPI f => some f.cond
  | .movDPR f => some f.cond
  | .movDPRS f => some f.cond
  | .bicDPI f => some f.cond
  | .bicDPR f => some f.cond
  | .bicDPRS f => some f.cond
  | .mvnDPI f => some f.cond
  | .mvnDPR f => some f.cond
  | .mvnDPRS f => some f.cond
  | .b f => some f.cond
  | .bl f => some f.cond
  | .bx f => some f.cond
  | .ldrLSI f => some f.cond
  | .ldrLSR f => some f.cond
  | .strLSI f => some f.cond
  | .strLSR f => some f.cond
  | .ldrbLSI f => some f.cond
  | .ldrbLSR f => some f.cond
  | .strbLSI f => some f.cond
  | .strbLSR f => some f.cond
  | .ldm f => some f.cond
  | .stm f => some f.cond
  | .ldrhXLI f => some f.cond
  | .ldrhXLR f => some f.cond
  | .strhXLI f => some f.cond
  | .strhXLR f => some f.cond
  | .ldrsbXLI f => some f.cond
  | .ldrsbXLR f => some f.cond
  | .ldrshXLI f => some f.cond
  | .ldrshXLR f => some f.cond
  | .mul f => some f.cond
  | .mla f => some f.cond
  | .umull f => some f.cond
  | .umlal f => some f.cond
  | .smull f => some f.cond
  | .smlal f => some f.cond
  | .swp f => some f.cond
  | .swpb f => some f.cond
  | .mrs c => some c
  | .msrReg c => some c
  | .msrImm c => some c
  | .blxReg c => some c
  | .blxImm => none
  | .bkpt c => some c
  | .qadd c => some c
  | .qsub c => some c
  | .qdadd c => some c
  | .qdsub c => some c
  | .cdp c => some c
  | .mcr c => some c
  | .mrc c => some c
  | .ldc c => some c
  | .stc c => some c
  | .swi c => some c

end Sys2Proof
end

