-- ==== Sys2Proof/Decode.lean ====
section
/-! DEFINITION. The decoder and the encoder (spec 30_encoding.md). `decode` reads one word by the dispatch tree of R96 and
is total: a word is an instruction, or it is rejected as `unknownFormat`. The recognised-and-refused instructions are
instructions here (their meaning is to raise, R260). `encode` writes the words of an instruction from the format tables
R98 to R111. `opcodeRows` is spec/opcode_table.json (R122). Bit n of a word is `getLsbD n`, and `i[lo+len-1:lo]` is
`i.extractLsb' lo len` (R7). -/

namespace Sys2Proof

/-! ## Codes of the fields -/

/-- The condition codes of R93. -/
def Cond.bits : Cond → BitVec 4
  | .eq => 0b0000#4
  | .ne => 0b0001#4
  | .cs => 0b0010#4
  | .cc => 0b0011#4
  | .mi => 0b0100#4
  | .pl => 0b0101#4
  | .vs => 0b0110#4
  | .vc => 0b0111#4
  | .hi => 0b1000#4
  | .ls => 0b1001#4
  | .ge => 0b1010#4
  | .lt => 0b1011#4
  | .gt => 0b1100#4
  | .le => 0b1101#4
  | .al => 0b1110#4

/-- The condition a code names; `none` for `1111` (R93, R94). -/
def Cond.ofBits (b : BitVec 4) : Option Cond :=
  match b.toNat with
  | 0 => some .eq
  | 1 => some .ne
  | 2 => some .cs
  | 3 => some .cc
  | 4 => some .mi
  | 5 => some .pl
  | 6 => some .vs
  | 7 => some .vc
  | 8 => some .hi
  | 9 => some .ls
  | 10 => some .ge
  | 11 => some .lt
  | 12 => some .gt
  | 13 => some .le
  | 14 => some .al
  | _ => none

/-- The shifter type codes of R99. -/
def ShiftType.bits : ShiftType → BitVec 2
  | .lsl => 0b00#2
  | .lsr => 0b01#2
  | .asr => 0b10#2
  | .ror => 0b11#2

/-- The shifter type a code names (R99). -/
def ShiftType.ofBits (b : BitVec 2) : ShiftType :=
  match b.toNat with
  | 0 => .lsl
  | 1 => .lsr
  | 2 => .asr
  | _ => .ror

/-- The opcode numbers of R116. -/
def AluOp.bits : AluOp → BitVec 4
  | .and => 0#4
  | .eor => 1#4
  | .sub => 2#4
  | .rsb => 3#4
  | .add => 4#4
  | .adc => 5#4
  | .sbc => 6#4
  | .rsc => 7#4
  | .tst => 8#4
  | .teq => 9#4
  | .cmp => 10#4
  | .cmn => 11#4
  | .orr => 12#4
  | .mov => 13#4
  | .bic => 14#4
  | .mvn => 15#4

/-- The ALU operation an opcode number names (R116). -/
def AluOp.ofBits (b : BitVec 4) : AluOp :=
  match b.toNat with
  | 0 => .and
  | 1 => .eor
  | 2 => .sub
  | 3 => .rsb
  | 4 => .add
  | 5 => .adc
  | 6 => .sbc
  | 7 => .rsc
  | 8 => .tst
  | 9 => .teq
  | 10 => .cmp
  | 11 => .cmn
  | 12 => .orr
  | 13 => .mov
  | 14 => .bic
  | _ => .mvn

/-! ## The dispatch tree -/

/-- A leaf of the tree of R96 that names a row of the opcode table (BLX immediate is not under the tree, R94). -/
inductive Leaf where
  | dpi (a : AluOp)
  | dpr (a : AluOp)
  | dprs (a : AluOp)
  | b
  | bl
  | bx
  | ldrLSI
  | ldrLSR
  | strLSI
  | strLSR
  | ldrbLSI
  | ldrbLSR
  | strbLSI
  | strbLSR
  | ldm
  | stm
  | ldrhXLI
  | ldrhXLR
  | strhXLI
  | strhXLR
  | ldrsbXLI
  | ldrsbXLR
  | ldrshXLI
  | ldrshXLR
  | mul
  | mla
  | umull
  | umlal
  | smull
  | smlal
  | swp
  | swpb
  | mrs
  | msrReg
  | msrImm
  | blxReg
  | bkpt
  | qadd
  | qsub
  | qdadd
  | qdsub
  | cdp
  | mcr
  | mrc
  | ldc
  | stc
  | swi
  deriving DecidableEq, Repr

/-- Group 000 with `i[7] = i[4] = 1` and `i[6:5] = 00`: multiply and swap space (R96, R253). -/
def multiplyLeaf (i : Word) : Option Leaf :=
  match (i.extractLsb' 21 4).toNat with
  | 0  => some .mul
  | 1  => some .mla
  | 4  => some .umull
  | 5  => some .umlal
  | 6  => some .smull
  | 7  => some .smlal
  | 8  => if i.getLsbD 20 then none else some .swp
  | 10 => if i.getLsbD 20 then none else some .swpb
  | _  => none

/-- Group 000 with `i[7] = i[4] = 1` and `i[6:5]` not `00`: extended load/store space (R96); `i[22]` selects the
immediate-offset format. -/
def extendedLeaf (i : Word) : Option Leaf :=
  match i.getLsbD 20, (i.extractLsb' 5 2).toNat with
  | true,  1 => some (if i.getLsbD 22 then .ldrhXLI else .ldrhXLR)
  | true,  2 => some (if i.getLsbD 22 then .ldrsbXLI else .ldrsbXLR)
  | true,  _ => some (if i.getLsbD 22 then .ldrshXLI else .ldrshXLR)
  | false, 1 => some (if i.getLsbD 22 then .strhXLI else .strhXLR)
  | false, _ => none

/-- Group 000 with `i[24:23] = 10` and `i[20] = 0`: the control space (R96). -/
def controlLeaf (i : Word) : Option Leaf :=
  match (i.extractLsb' 4 4).toNat, (i.extractLsb' 21 2).toNat with
  | 0, 0 => some .mrs
  | 0, 1 => some .msrReg
  | 0, 2 => some .mrs
  | 0, _ => some .msrReg
  | 1, 1 => some .bx
  | 3, 1 => some .blxReg
  | 5, 0 => some .qadd
  | 5, 1 => some .qsub
  | 5, 2 => some .qdadd
  | 5, _ => some .qdsub
  | 7, 1 => some .bkpt
  | _, _ => none

/-- Groups 010 and 011: single load/store, `reg` for the shifted-register offset (R96, R103, R104). -/
def singleLeaf (reg : Bool) (i : Word) : Leaf :=
  match reg, i.getLsbD 20, i.getLsbD 22 with
  | false, true,  false => .ldrLSI
  | false, false, false => .strLSI
  | false, true,  true  => .ldrbLSI
  | false, false, true  => .strbLSI
  | true,  true,  false => .ldrLSR
  | true,  false, false => .strLSR
  | true,  true,  true  => .ldrbLSR
  | true,  false, true  => .strbLSR

/-- The dispatch tree of R96 on `i[27:0]`; `none` is its `UnknownFormat`. It tests the bits R96 tests and no others
(R97). -/
def leaf (i : Word) : Option Leaf :=
  match (i.extractLsb' 25 3).toNat with
  | 0 =>
    if i.getLsbD 7 && i.getLsbD 4 then
      if i.extractLsb' 5 2 = 0b00#2 then multiplyLeaf i else extendedLeaf i
    else if i.extractLsb' 23 2 = 0b10#2 && !i.getLsbD 20 then controlLeaf i
    else if i.getLsbD 4 then some (.dprs (AluOp.ofBits (i.extractLsb' 21 4)))
    else some (.dpr (AluOp.ofBits (i.extractLsb' 21 4)))
  | 1 =>
    if i.extractLsb' 23 2 = 0b10#2 && !i.getLsbD 20 then
      if i.getLsbD 21 then some .msrImm else none
    else some (.dpi (AluOp.ofBits (i.extractLsb' 21 4)))
  | 2 => some (singleLeaf false i)
  | 3 => if i.getLsbD 4 then none else some (singleLeaf true i)
  | 4 => some (if i.getLsbD 20 then .ldm else .stm)
  | 5 => some (if i.getLsbD 24 then .bl else .b)
  | 6 => some (if i.getLsbD 20 then .ldc else .stc)
  | _ =>
    if i.getLsbD 24 then some .swi
    else if i.getLsbD 4 then some (if i.getLsbD 20 then .mrc else .mcr)
    else some .cdp

/-! ## The fields of each format -/

def fieldsDPI (c : Cond) (i : Word) : DPI :=
  { cond := c, s := i.getLsbD 20, rn := i.extractLsb' 16 4, rd := i.extractLsb' 12 4, rot := i.extractLsb' 8 4,
    imm8 := i.extractLsb' 0 8 }

def fieldsDPR (c : Cond) (i : Word) : DPR :=
  { cond := c, s := i.getLsbD 20, rn := i.extractLsb' 16 4, rd := i.extractLsb' 12 4, shamt := i.extractLsb' 7 5,
    stype := ShiftType.ofBits (i.extractLsb' 5 2), rm := i.extractLsb' 0 4 }

def fieldsDPRS (c : Cond) (i : Word) : DPRS :=
  { cond := c, s := i.getLsbD 20, rn := i.extractLsb' 16 4, rd := i.extractLsb' 12 4, rs := i.extractLsb' 8 4,
    stype := ShiftType.ofBits (i.extractLsb' 5 2), rm := i.extractLsb' 0 4 }

def fieldsBR (c : Cond) (i : Word) : BR := { cond := c, imm24 := i.extractLsb' 0 24 }

def fieldsBXR (c : Cond) (i : Word) : BXR := { cond := c, rm := i.extractLsb' 0 4 }

def fieldsLSI (c : Cond) (i : Word) : LSI :=
  { cond := c, p := i.getLsbD 24, u := i.getLsbD 23, w := i.getLsbD 21, rn := i.extractLsb' 16 4,
    rd := i.extractLsb' 12 4, imm12 := i.extractLsb' 0 12 }

def fieldsLSR (c : Cond) (i : Word) : LSR :=
  { cond := c, p := i.getLsbD 24, u := i.getLsbD 23, w := i.getLsbD 21, rn := i.extractLsb' 16 4,
    rd := i.extractLsb' 12 4, shamt := i.extractLsb' 7 5, stype := ShiftType.ofBits (i.extractLsb' 5 2),
    rm := i.extractLsb' 0 4 }

def fieldsLSM (c : Cond) (i : Word) : LSM :=
  { cond := c, p := i.getLsbD 24, u := i.getLsbD 23, w := i.getLsbD 21, rn := i.extractLsb' 16 4,
    reglist := i.extractLsb' 0 16 }

def fieldsXLI (c : Cond) (i : Word) : XLI :=
  { cond := c, p := i.getLsbD 24, u := i.getLsbD 23, w := i.getLsbD 21, rn := i.extractLsb' 16 4,
    rd := i.extractLsb' 12 4, immH := i.extractLsb' 8 4, immL := i.extractLsb' 0 4 }

def fieldsXLR (c : Cond) (i : Word) : XLR :=
  { cond := c, p := i.getLsbD 24, u := i.getLsbD 23, w := i.getLsbD 21, rn := i.extractLsb' 16 4,
    rd := i.extractLsb' 12 4, rm := i.extractLsb' 0 4 }

def fieldsMULF (c : Cond) (i : Word) : MULF :=
  { cond := c, s := i.getLsbD 20, rd := i.extractLsb' 16 4, rn := i.extractLsb' 12 4, rs := i.extractLsb' 8 4,
    rm := i.extractLsb' 0 4 }

def fieldsMULL (c : Cond) (i : Word) : MULL :=
  { cond := c, s := i.getLsbD 20, rdHi := i.extractLsb' 16 4, rdLo := i.extractLsb' 12 4, rs := i.extractLsb' 8 4,
    rm := i.extractLsb' 0 4 }

def fieldsSWPF (c : Cond) (i : Word) : SWPF :=
  { cond := c, rn := i.extractLsb' 16 4, rd := i.extractLsb' 12 4, rm := i.extractLsb' 0 4 }

/-! ## From a leaf to an instruction -/

def buildDPI (a : AluOp) (f : DPI) : Instr :=
  match a with
  | .and => .andDPI f
  | .eor => .eorDPI f
  | .sub => .subDPI f
  | .rsb => .rsbDPI f
  | .add => .addDPI f
  | .adc => .adcDPI f
  | .sbc => .sbcDPI f
  | .rsc => .rscDPI f
  | .tst => .tstDPI f
  | .teq => .teqDPI f
  | .cmp => .cmpDPI f
  | .cmn => .cmnDPI f
  | .orr => .orrDPI f
  | .mov => .movDPI f
  | .bic => .bicDPI f
  | .mvn => .mvnDPI f

def buildDPR (a : AluOp) (f : DPR) : Instr :=
  match a with
  | .and => .andDPR f
  | .eor => .eorDPR f
  | .sub => .subDPR f
  | .rsb => .rsbDPR f
  | .add => .addDPR f
  | .adc => .adcDPR f
  | .sbc => .sbcDPR f
  | .rsc => .rscDPR f
  | .tst => .tstDPR f
  | .teq => .teqDPR f
  | .cmp => .cmpDPR f
  | .cmn => .cmnDPR f
  | .orr => .orrDPR f
  | .mov => .movDPR f
  | .bic => .bicDPR f
  | .mvn => .mvnDPR f

def buildDPRS (a : AluOp) (f : DPRS) : Instr :=
  match a with
  | .and => .andDPRS f
  | .eor => .eorDPRS f
  | .sub => .subDPRS f
  | .rsb => .rsbDPRS f
  | .add => .addDPRS f
  | .adc => .adcDPRS f
  | .sbc => .sbcDPRS f
  | .rsc => .rscDPRS f
  | .tst => .tstDPRS f
  | .teq => .teqDPRS f
  | .cmp => .cmpDPRS f
  | .cmn => .cmnDPRS f
  | .orr => .orrDPRS f
  | .mov => .movDPRS f
  | .bic => .bicDPRS f
  | .mvn => .mvnDPRS f

/-- The instruction at a leaf: its row's constructor over the fields of its format. -/
def build (l : Leaf) (c : Cond) (i : Word) : Instr :=
  match l with
  | .dpi a => buildDPI a (fieldsDPI c i)
  | .dpr a => buildDPR a (fieldsDPR c i)
  | .dprs a => buildDPRS a (fieldsDPRS c i)
  | .b => .b (fieldsBR c i)
  | .bl => .bl (fieldsBR c i)
  | .bx => .bx (fieldsBXR c i)
  | .ldrLSI => .ldrLSI (fieldsLSI c i)
  | .ldrLSR => .ldrLSR (fieldsLSR c i)
  | .strLSI => .strLSI (fieldsLSI c i)
  | .strLSR => .strLSR (fieldsLSR c i)
  | .ldrbLSI => .ldrbLSI (fieldsLSI c i)
  | .ldrbLSR => .ldrbLSR (fieldsLSR c i)
  | .strbLSI => .strbLSI (fieldsLSI c i)
  | .strbLSR => .strbLSR (fieldsLSR c i)
  | .ldm => .ldm (fieldsLSM c i)
  | .stm => .stm (fieldsLSM c i)
  | .ldrhXLI => .ldrhXLI (fieldsXLI c i)
  | .ldrhXLR => .ldrhXLR (fieldsXLR c i)
  | .strhXLI => .strhXLI (fieldsXLI c i)
  | .strhXLR => .strhXLR (fieldsXLR c i)
  | .ldrsbXLI => .ldrsbXLI (fieldsXLI c i)
  | .ldrsbXLR => .ldrsbXLR (fieldsXLR c i)
  | .ldrshXLI => .ldrshXLI (fieldsXLI c i)
  | .ldrshXLR => .ldrshXLR (fieldsXLR c i)
  | .mul => .mul (fieldsMULF c i)
  | .mla => .mla (fieldsMULF c i)
  | .umull => .umull (fieldsMULL c i)
  | .umlal => .umlal (fieldsMULL c i)
  | .smull => .smull (fieldsMULL c i)
  | .smlal => .smlal (fieldsMULL c i)
  | .swp => .swp (fieldsSWPF c i)
  | .swpb => .swpb (fieldsSWPF c i)
  | .mrs => .mrs c
  | .msrReg => .msrReg c
  | .msrImm => .msrImm c
  | .blxReg => .blxReg c
  | .bkpt => .bkpt c
  | .qadd => .qadd c
  | .qsub => .qsub c
  | .qdadd => .qdadd c
  | .qdsub => .qdsub c
  | .cdp => .cdp c
  | .mcr => .mcr c
  | .mrc => .mrc c
  | .ldc => .ldc c
  | .stc => .stc c
  | .swi => .swi c

/-! ## The decoder -/

/-- Why a word, or a list of bytes, is not an instruction. -/
inductive DecodeError where
  /-- "instruction bit pattern does not match any recognized family" (R273), with the word. -/
  | unknownFormat (i : Word)
  /-- Fewer than the four bytes of the one instruction length (R90). -/
  | tooShort
  deriving DecidableEq, Repr

/-- `Decode` (R94, R96): with `cond = 1111` the word is BLX immediate or unknown; otherwise the tree decides. -/
def decode (i : Word) : Except DecodeError Instr :=
  match Cond.ofBits (i.extractLsb' 28 4) with
  | none => if i.extractLsb' 25 3 = 0b101#3 then .ok .blxImm else .error (.unknownFormat i)
  | some c =>
    match leaf i with
    | some l => .ok (build l c i)
    | none => .error (.unknownFormat i)

/-- The four bytes of a word as they lie in memory at ascending addresses: words are big-endian (R63). -/
def bytesOfWord (w : Word) : List Byte :=
  [w.extractLsb' 24 8, w.extractLsb' 16 8, w.extractLsb' 8 8, w.extractLsb' 0 8]

/-- The word of four bytes at ascending addresses, the first the most significant (R51, R63). -/
def wordOfBytes (b0 b1 b2 b3 : Byte) : Word := b0 ++ b1 ++ b2 ++ b3

/-- Decoding from a stream of bytes: one instruction and the rest (R63, R90). -/
def decodeBytes : List Byte → Except DecodeError (Instr × List Byte)
  | b0 :: b1 :: b2 :: b3 :: rest =>
    match decode (wordOfBytes b0 b1 b2 b3) with
    | .ok i => .ok (i, rest)
    | .error e => .error e
  | _ => .error .tooShort

/-- The word of a table row's bits: bit 0 is the least significant, and every bit from `nbits` on is 0. -/
def tableWord (nbits w : Nat) : Word := BitVec.ofNat 32 (w % 2 ^ nbits)

/-- What the decoder reads from a table row's bits, laid out in memory as the hardware stores them (R63). -/
def decodeTableWord (nbits w : Nat) : Option Instr :=
  match decodeBytes (bytesOfWord (tableWord nbits w)) with
  | .ok (i, _) => some i
  | .error _ => none

/-! ## The encoder -/

/-- A field at its place in the word: its bit 0 is the word's bit `lo`. -/
def place (lo : Nat) {k : Nat} (x : BitVec k) : Word := x.setWidth 32 <<< lo

/-- A one-bit field (R7). -/
def placeBit (n : Nat) (b : Bool) : Word := place n (BitVec.ofBool b)

/-- `DPI` (R98). -/
def encodeDPI (a : AluOp) (f : DPI) : Word :=
  place 28 f.cond.bits ||| place 25 0b001#3 ||| place 21 a.bits ||| placeBit 20 f.s ||| place 16 f.rn ||| place 12 f.rd |||
    place 8 f.rot ||| place 0 f.imm8

/-- `DPR` (R99). -/
def encodeDPR (a : AluOp) (f : DPR) : Word :=
  place 28 f.cond.bits ||| place 25 0b000#3 ||| place 21 a.bits ||| placeBit 20 f.s ||| place 16 f.rn ||| place 12 f.rd |||
    place 7 f.shamt ||| place 5 f.stype.bits ||| placeBit 4 false ||| place 0 f.rm

/-- `DPRS` (R100). -/
def encodeDPRS (a : AluOp) (f : DPRS) : Word :=
  place 28 f.cond.bits ||| place 25 0b000#3 ||| place 21 a.bits ||| placeBit 20 f.s ||| place 16 f.rn ||| place 12 f.rd |||
    place 8 f.rs ||| placeBit 7 false ||| place 5 f.stype.bits ||| placeBit 4 true ||| place 0 f.rm

/-- `BR` (R101); `link` is the link bit. -/
def encodeBR (link : Bool) (f : BR) : Word :=
  place 28 f.cond.bits ||| place 25 0b101#3 ||| placeBit 24 link ||| place 0 f.imm24

/-- `BXR` (R102). `i[19:8]` is don't-care (R97); the encoder writes ARMv4's ones. -/
def encodeBXR (f : BXR) : Word :=
  place 28 f.cond.bits ||| place 20 0b00010010#8 ||| place 8 0xFFF#12 ||| place 4 0b0001#4 ||| place 0 f.rm

/-- `LSI` (R103); `byte` is B and `load` is L. -/
def encodeLSI (byte load : Bool) (f : LSI) : Word :=
  place 28 f.cond.bits ||| place 25 0b010#3 ||| placeBit 24 f.p ||| placeBit 23 f.u ||| placeBit 22 byte ||| placeBit 21 f.w |||
    placeBit 20 load ||| place 16 f.rn ||| place 12 f.rd ||| place 0 f.imm12

/-- `LSR` (R104). -/
def encodeLSR (byte load : Bool) (f : LSR) : Word :=
  place 28 f.cond.bits ||| place 25 0b011#3 ||| placeBit 24 f.p ||| placeBit 23 f.u ||| placeBit 22 byte ||| placeBit 21 f.w |||
    placeBit 20 load ||| place 16 f.rn ||| place 12 f.rd ||| place 7 f.shamt ||| place 5 f.stype.bits ||| placeBit 4 false |||
    place 0 f.rm

/-- `LSM` (R105). `i[22]` is don't-care (R97); the encoder writes 0. -/
def encodeLSM (load : Bool) (f : LSM) : Word :=
  place 28 f.cond.bits ||| place 25 0b100#3 ||| placeBit 24 f.p ||| placeBit 23 f.u ||| placeBit 21 f.w ||| placeBit 20 load |||
    place 16 f.rn ||| place 0 f.reglist

/-- `XLI` (R106); `sh` is 01 unsigned halfword, 10 signed byte, 11 signed halfword. -/
def encodeXLI (load : Bool) (sh : BitVec 2) (f : XLI) : Word :=
  place 28 f.cond.bits ||| place 25 0b000#3 ||| placeBit 24 f.p ||| placeBit 23 f.u ||| placeBit 22 true ||| placeBit 21 f.w |||
    placeBit 20 load ||| place 16 f.rn ||| place 12 f.rd ||| place 8 f.immH ||| placeBit 7 true ||| place 5 sh |||
    placeBit 4 true ||| place 0 f.immL

/-- `XLR` (R107). `i[11:8]` is don't-care (R97); the encoder writes 0. -/
def encodeXLR (load : Bool) (sh : BitVec 2) (f : XLR) : Word :=
  place 28 f.cond.bits ||| place 25 0b000#3 ||| placeBit 24 f.p ||| placeBit 23 f.u ||| placeBit 22 false ||| placeBit 21 f.w |||
    placeBit 20 load ||| place 16 f.rn ||| place 12 f.rd ||| placeBit 7 true ||| place 5 sh ||| placeBit 4 true ||| place 0 f.rm

/-- `MUL` (R108); `acc` is A. -/
def encodeMULF (acc : Bool) (f : MULF) : Word :=
  place 28 f.cond.bits ||| place 22 0b000000#6 ||| placeBit 21 acc ||| placeBit 20 f.s ||| place 16 f.rd ||| place 12 f.rn |||
    place 8 f.rs ||| place 4 0b1001#4 ||| place 0 f.rm

/-- `MULL` (R109); `sg` is Sg and `acc` is A. -/
def encodeMULL (sg acc : Bool) (f : MULL) : Word :=
  place 28 f.cond.bits ||| place 23 0b00001#5 ||| placeBit 22 sg ||| placeBit 21 acc ||| placeBit 20 f.s ||| place 16 f.rdHi |||
    place 12 f.rdLo ||| place 8 f.rs ||| place 4 0b1001#4 ||| place 0 f.rm

/-- `SWP` (R110); `byte` is B. `i[11:8]` is don't-care (R97); the encoder writes 0. -/
def encodeSWPF (byte : Bool) (f : SWPF) : Word :=
  place 28 f.cond.bits ||| place 23 0b00010#5 ||| placeBit 22 byte ||| place 20 0b00#2 ||| place 16 f.rn ||| place 12 f.rd |||
    place 4 0b1001#4 ||| place 0 f.rm

/-- A recognised-and-refused word: its condition over the row's tested bits (R111), every other bit 0. -/
def encodeRefused (c : Cond) (row : BitVec 28) : Word := place 28 c.bits ||| place 0 row

/-- The word of an instruction. Don't-care bits (R97) get the value the format's encoder names. -/
def encode : Instr → Word
  | .andDPI f => encodeDPI .and f
  | .andDPR f => encodeDPR .and f
  | .andDPRS f => encodeDPRS .and f
  | .eorDPI f => encodeDPI .eor f
  | .eorDPR f => encodeDPR .eor f
  | .eorDPRS f => encodeDPRS .eor f
  | .subDPI f => encodeDPI .sub f
  | .subDPR f => encodeDPR .sub f
  | .subDPRS f => encodeDPRS .sub f
  | .rsbDPI f => encodeDPI .rsb f
  | .rsbDPR f => encodeDPR .rsb f
  | .rsbDPRS f => encodeDPRS .rsb f
  | .addDPI f => encodeDPI .add f
  | .addDPR f => encodeDPR .add f
  | .addDPRS f => encodeDPRS .add f
  | .adcDPI f => encodeDPI .adc f
  | .adcDPR f => encodeDPR .adc f
  | .adcDPRS f => encodeDPRS .adc f
  | .sbcDPI f => encodeDPI .sbc f
  | .sbcDPR f => encodeDPR .sbc f
  | .sbcDPRS f => encodeDPRS .sbc f
  | .rscDPI f => encodeDPI .rsc f
  | .rscDPR f => encodeDPR .rsc f
  | .rscDPRS f => encodeDPRS .rsc f
  | .tstDPI f => encodeDPI .tst f
  | .tstDPR f => encodeDPR .tst f
  | .tstDPRS f => encodeDPRS .tst f
  | .teqDPI f => encodeDPI .teq f
  | .teqDPR f => encodeDPR .teq f
  | .teqDPRS f => encodeDPRS .teq f
  | .cmpDPI f => encodeDPI .cmp f
  | .cmpDPR f => encodeDPR .cmp f
  | .cmpDPRS f => encodeDPRS .cmp f
  | .cmnDPI f => encodeDPI .cmn f
  | .cmnDPR f => encodeDPR .cmn f
  | .cmnDPRS f => encodeDPRS .cmn f
  | .orrDPI f => encodeDPI .orr f
  | .orrDPR f => encodeDPR .orr f
  | .orrDPRS f => encodeDPRS .orr f
  | .movDPI f => encodeDPI .mov f
  | .movDPR f => encodeDPR .mov f
  | .movDPRS f => encodeDPRS .mov f
  | .bicDPI f => encodeDPI .bic f
  | .bicDPR f => encodeDPR .bic f
  | .bicDPRS f => encodeDPRS .bic f
  | .mvnDPI f => encodeDPI .mvn f
  | .mvnDPR f => encodeDPR .mvn f
  | .mvnDPRS f => encodeDPRS .mvn f
  | .b f => encodeBR false f
  | .bl f => encodeBR true f
  | .bx f => encodeBXR f
  | .ldrLSI f => encodeLSI false true f
  | .ldrLSR f => encodeLSR false true f
  | .strLSI f => encodeLSI false false f
  | .strLSR f => encodeLSR false false f
  | .ldrbLSI f => encodeLSI true true f
  | .ldrbLSR f => encodeLSR true true f
  | .strbLSI f => encodeLSI true false f
  | .strbLSR f => encodeLSR true false f
  | .ldm f => encodeLSM true f
  | .stm f => encodeLSM false f
  | .ldrhXLI f => encodeXLI true 0b01#2 f
  | .ldrhXLR f => encodeXLR true 0b01#2 f
  | .strhXLI f => encodeXLI false 0b01#2 f
  | .strhXLR f => encodeXLR false 0b01#2 f
  | .ldrsbXLI f => encodeXLI true 0b10#2 f
  | .ldrsbXLR f => encodeXLR true 0b10#2 f
  | .ldrshXLI f => encodeXLI true 0b11#2 f
  | .ldrshXLR f => encodeXLR true 0b11#2 f
  | .mul f => encodeMULF false f
  | .mla f => encodeMULF true f
  | .umull f => encodeMULL false false f
  | .umlal f => encodeMULL false true f
  | .smull f => encodeMULL true false f
  | .smlal f => encodeMULL true true f
  | .swp f => encodeSWPF false f
  | .swpb f => encodeSWPF true f
  | .mrs c => encodeRefused c 0x1000000#28
  | .msrReg c => encodeRefused c 0x1200000#28
  | .msrImm c => encodeRefused c 0x3200000#28
  | .blxReg c => encodeRefused c 0x1200030#28
  | .blxImm => 0xFA000000#32
  | .bkpt c => encodeRefused c 0x1200070#28
  | .qadd c => encodeRefused c 0x1000050#28
  | .qsub c => encodeRefused c 0x1200050#28
  | .qdadd c => encodeRefused c 0x1400050#28
  | .qdsub c => encodeRefused c 0x1600050#28
  | .cdp c => encodeRefused c 0xE000000#28
  | .mcr c => encodeRefused c 0xE000010#28
  | .mrc c => encodeRefused c 0xE100010#28
  | .ldc c => encodeRefused c 0xC100000#28
  | .stc c => encodeRefused c 0xC000000#28
  | .swi c => encodeRefused c 0xF000000#28

/-! ## The opcode table -/

/-- A row of spec/opcode_table.json: a word with `cond != 1111` selects it when `w & mask = pattern` (R122). -/
structure Row where
  leaf    : Leaf
  pattern : Word
  mask    : Word
  deriving DecidableEq, Repr

/-- The rows of DPI. -/
def rowsDPI : List Row :=
  [⟨(.dpi .and), 0x02000000#32, 0x0FE00000#32⟩,
   ⟨(.dpi .eor), 0x02200000#32, 0x0FE00000#32⟩,
   ⟨(.dpi .sub), 0x02400000#32, 0x0FE00000#32⟩,
   ⟨(.dpi .rsb), 0x02600000#32, 0x0FE00000#32⟩,
   ⟨(.dpi .add), 0x02800000#32, 0x0FE00000#32⟩,
   ⟨(.dpi .adc), 0x02A00000#32, 0x0FE00000#32⟩,
   ⟨(.dpi .sbc), 0x02C00000#32, 0x0FE00000#32⟩,
   ⟨(.dpi .rsc), 0x02E00000#32, 0x0FE00000#32⟩,
   ⟨(.dpi .tst), 0x03100000#32, 0x0FF00000#32⟩,
   ⟨(.dpi .teq), 0x03300000#32, 0x0FF00000#32⟩,
   ⟨(.dpi .cmp), 0x03500000#32, 0x0FF00000#32⟩,
   ⟨(.dpi .cmn), 0x03700000#32, 0x0FF00000#32⟩,
   ⟨(.dpi .orr), 0x03800000#32, 0x0FE00000#32⟩,
   ⟨(.dpi .mov), 0x03A00000#32, 0x0FE00000#32⟩,
   ⟨(.dpi .bic), 0x03C00000#32, 0x0FE00000#32⟩,
   ⟨(.dpi .mvn), 0x03E00000#32, 0x0FE00000#32⟩]

/-- The rows of DPR. -/
def rowsDPR : List Row :=
  [⟨(.dpr .and), 0x00000000#32, 0x0FE00010#32⟩,
   ⟨(.dpr .eor), 0x00200000#32, 0x0FE00010#32⟩,
   ⟨(.dpr .sub), 0x00400000#32, 0x0FE00010#32⟩,
   ⟨(.dpr .rsb), 0x00600000#32, 0x0FE00010#32⟩,
   ⟨(.dpr .add), 0x00800000#32, 0x0FE00010#32⟩,
   ⟨(.dpr .adc), 0x00A00000#32, 0x0FE00010#32⟩,
   ⟨(.dpr .sbc), 0x00C00000#32, 0x0FE00010#32⟩,
   ⟨(.dpr .rsc), 0x00E00000#32, 0x0FE00010#32⟩,
   ⟨(.dpr .tst), 0x01100000#32, 0x0FF00010#32⟩,
   ⟨(.dpr .teq), 0x01300000#32, 0x0FF00010#32⟩,
   ⟨(.dpr .cmp), 0x01500000#32, 0x0FF00010#32⟩,
   ⟨(.dpr .cmn), 0x01700000#32, 0x0FF00010#32⟩,
   ⟨(.dpr .orr), 0x01800000#32, 0x0FE00010#32⟩,
   ⟨(.dpr .mov), 0x01A00000#32, 0x0FE00010#32⟩,
   ⟨(.dpr .bic), 0x01C00000#32, 0x0FE00010#32⟩,
   ⟨(.dpr .mvn), 0x01E00000#32, 0x0FE00010#32⟩]

/-- The rows of DPRS. -/
def rowsDPRS : List Row :=
  [⟨(.dprs .and), 0x00000010#32, 0x0FE00090#32⟩,
   ⟨(.dprs .eor), 0x00200010#32, 0x0FE00090#32⟩,
   ⟨(.dprs .sub), 0x00400010#32, 0x0FE00090#32⟩,
   ⟨(.dprs .rsb), 0x00600010#32, 0x0FE00090#32⟩,
   ⟨(.dprs .add), 0x00800010#32, 0x0FE00090#32⟩,
   ⟨(.dprs .adc), 0x00A00010#32, 0x0FE00090#32⟩,
   ⟨(.dprs .sbc), 0x00C00010#32, 0x0FE00090#32⟩,
   ⟨(.dprs .rsc), 0x00E00010#32, 0x0FE00090#32⟩,
   ⟨(.dprs .tst), 0x01100010#32, 0x0FF00090#32⟩,
   ⟨(.dprs .teq), 0x01300010#32, 0x0FF00090#32⟩,
   ⟨(.dprs .cmp), 0x01500010#32, 0x0FF00090#32⟩,
   ⟨(.dprs .cmn), 0x01700010#32, 0x0FF00090#32⟩,
   ⟨(.dprs .orr), 0x01800010#32, 0x0FE00090#32⟩,
   ⟨(.dprs .mov), 0x01A00010#32, 0x0FE00090#32⟩,
   ⟨(.dprs .bic), 0x01C00010#32, 0x0FE00090#32⟩,
   ⟨(.dprs .mvn), 0x01E00010#32, 0x0FE00090#32⟩]

/-- The rows of every other format. -/
def rowsOther : List Row :=
  [⟨.b, 0x0A000000#32, 0x0F000000#32⟩,
   ⟨.bl, 0x0B000000#32, 0x0F000000#32⟩,
   ⟨.bx, 0x01200010#32, 0x0FF000F0#32⟩,
   ⟨.ldrLSI, 0x04100000#32, 0x0E500000#32⟩,
   ⟨.ldrLSR, 0x06100000#32, 0x0E500010#32⟩,
   ⟨.strLSI, 0x04000000#32, 0x0E500000#32⟩,
   ⟨.strLSR, 0x06000000#32, 0x0E500010#32⟩,
   ⟨.ldrbLSI, 0x04500000#32, 0x0E500000#32⟩,
   ⟨.ldrbLSR, 0x06500000#32, 0x0E500010#32⟩,
   ⟨.strbLSI, 0x04400000#32, 0x0E500000#32⟩,
   ⟨.strbLSR, 0x06400000#32, 0x0E500010#32⟩,
   ⟨.ldm, 0x08100000#32, 0x0E100000#32⟩,
   ⟨.stm, 0x08000000#32, 0x0E100000#32⟩,
   ⟨.ldrhXLI, 0x005000B0#32, 0x0E5000F0#32⟩,
   ⟨.ldrhXLR, 0x001000B0#32, 0x0E5000F0#32⟩,
   ⟨.strhXLI, 0x004000B0#32, 0x0E5000F0#32⟩,
   ⟨.strhXLR, 0x000000B0#32, 0x0E5000F0#32⟩,
   ⟨.ldrsbXLI, 0x005000D0#32, 0x0E5000F0#32⟩,
   ⟨.ldrsbXLR, 0x001000D0#32, 0x0E5000F0#32⟩,
   ⟨.ldrshXLI, 0x005000F0#32, 0x0E5000F0#32⟩,
   ⟨.ldrshXLR, 0x001000F0#32, 0x0E5000F0#32⟩,
   ⟨.mul, 0x00000090#32, 0x0FE000F0#32⟩,
   ⟨.mla, 0x00200090#32, 0x0FE000F0#32⟩,
   ⟨.umull, 0x00800090#32, 0x0FE000F0#32⟩,
   ⟨.umlal, 0x00A00090#32, 0x0FE000F0#32⟩,
   ⟨.smull, 0x00C00090#32, 0x0FE000F0#32⟩,
   ⟨.smlal, 0x00E00090#32, 0x0FE000F0#32⟩,
   ⟨.swp, 0x01000090#32, 0x0FF000F0#32⟩,
   ⟨.swpb, 0x01400090#32, 0x0FF000F0#32⟩]

/-- The rows of the recognised-and-refused words. -/
def rowsRefused : List Row :=
  [⟨.mrs, 0x01000000#32, 0x0FB000F0#32⟩,
   ⟨.msrReg, 0x01200000#32, 0x0FB000F0#32⟩,
   ⟨.msrImm, 0x03200000#32, 0x0FB00000#32⟩,
   ⟨.blxReg, 0x01200030#32, 0x0FF000F0#32⟩,
   ⟨.bkpt, 0x01200070#32, 0x0FF000F0#32⟩,
   ⟨.qadd, 0x01000050#32, 0x0FF000F0#32⟩,
   ⟨.qsub, 0x01200050#32, 0x0FF000F0#32⟩,
   ⟨.qdadd, 0x01400050#32, 0x0FF000F0#32⟩,
   ⟨.qdsub, 0x01600050#32, 0x0FF000F0#32⟩,
   ⟨.cdp, 0x0E000000#32, 0x0F000010#32⟩,
   ⟨.mcr, 0x0E000010#32, 0x0F100010#32⟩,
   ⟨.mrc, 0x0E100010#32, 0x0F100010#32⟩,
   ⟨.ldc, 0x0C100000#32, 0x0E100000#32⟩,
   ⟨.stc, 0x0C000000#32, 0x0E100000#32⟩,
   ⟨.swi, 0x0F000000#32, 0x0F000000#32⟩]

/-- All rows but the one with `cond = 1111` (BLX immediate), which takes precedence over them (R122). -/
def opcodeRows : List Row := rowsDPI ++ rowsDPR ++ rowsDPRS ++ rowsOther ++ rowsRefused

/-- No word selects both rows. -/
def Row.disjoint (r r' : Row) : Bool := (r.pattern ^^^ r'.pattern) &&& r.mask &&& r'.mask != 0#32

end Sys2Proof
end

