-- ==== Sys2Proof/Config.lean ====
section
/-! DEFINITION. What configuration fixes before a Core runs (spec 00_scope.md R5, R6; 20_memory.md R50 to R52, R66).
The parameters themselves are plain data of the State (so that every theorem holds for all their values); this file
gives their types, their constraints, and the values `State.reset` takes for them. -/

namespace Sys2Proof

/-- A protection window (R52): `low` and `high`, inclusive at both ends. Its ends are storage addresses of a Memory. -/
structure Bound where
  low  : Nat
  high : Nat
  deriving DecidableEq, Repr

/-- The document's invariant of a Bound, `low <= high` (R52). -/
abbrev Bound.ordered (b : Bound) : Prop := b.low ≤ b.high

/-- The constraint this spec adds: `low` is a multiple of 4 (R6, R52, decision D25). -/
abbrev Bound.aligned (b : Bound) : Prop := b.low % 4 = 0

/-- The constraint on a Memory's capacity: a power of two, at least 128 bytes (R5, R51). -/
abbrev capacityOk (capacity : Nat) : Prop := 128 ≤ capacity ∧ 2 ^ capacity.log2 = capacity

/-- The constraint on the number of Cores, `N_CORES >= 1` (R5, R6, R298). -/
abbrev coreCountOk (n : Nat) : Prop := 1 ≤ n

/-- Whether program and data memory are separate or one shared space (R6, R11). -/
inductive Topology where
  | harvard
  | vonNeumann
  deriving DecidableEq, Repr

namespace Config

/-- What a byte of memory that nothing has written reads as. The spec leaves it open (R71, D34: `INIT_MEM`).
DESIGN CHOICE, log entry 2 (unsafe). -/
def unlistedByte : Byte := 0

/-- The capacity of the Memory that `State.reset` refers to: the whole of a 32-bit address space, a power of two.
DESIGN CHOICE, log entry 3: the spec leaves `CAP` a parameter (R6). -/
def resetCapacity : Nat := 4294967296

/-- The program and data Bound of `State.reset`: the whole Memory. DESIGN CHOICE, log entry 3. -/
def resetBound : Bound := { low := 0, high := 4294967295 }

/-- `INIT_REG` of `State.reset`: the values of r0 to r14, which the spec leaves open (R39, D28).
DESIGN CHOICE, log entry 1 (unsafe). -/
def resetRegister : Word := 0

/-- `INIT_FLAGS` of `State.reset`: each of N, Z, C, V, which the spec leaves open (R39, D28).
DESIGN CHOICE, log entry 1 (unsafe). -/
def resetFlag : Bool := false

/-- Von Neumann topology slices one Memory into `n` equal, non-overlapping windows; this is the window of Core `k`
(R50, R66). DESIGN CHOICE, log entry 18: when `n` does not divide the capacity the spec does not say how the windows lie;
here each has `capacity / n` bytes, rounded down, from storage address 0, and the remaining bytes lie in no window. A
window's `low` may then be unaligned, and with more Cores than bytes every Core gets `[0, 0]`. -/
def slice (capacity n k : Nat) : Bound :=
  { low := k * (capacity / n), high := k * (capacity / n) + (capacity / n - 1) }

/-- Harvard topology gives each Core a fresh private Memory; its window is that whole Memory (R50, R66). -/
def wholeWindow (capacity : Nat) : Bound := { low := 0, high := capacity - 1 }

end Config

end Sys2Proof
end

