-- ==== Sys2Proof/Machine/State.lean ====
section
/-! DEFINITION. The state of the machine (spec 10_state.md R20 to R39, 20_memory.md R50 to R52, 70_reset_and_hazards.md R310):
one Core (registers, flags, run state, halt record), its stop input, the configuration it refers to, and the Memories
its accesses reach. Everything is plain data. -/

namespace Sys2Proof.Machine

/-- The StatusRegister: four single-bit flags and no other bits (R30). -/
structure Flags where
  n : Bool
  z : Bool
  c : Bool
  v : Bool
  deriving DecidableEq, Repr

/-- The two states of a Core; `halted` is terminal (R35). -/
inductive RunState where
  | running
  | halted
  deriving DecidableEq, Repr

/-- The two sub-causes of `MemoryAccessFault` (R280). -/
inductive AccessSub where
  | misaligned
  | outOfBounds
  deriving DecidableEq, Repr

/-- The name tags that `UnimplementedInstruction` carries (R260, decision D30). -/
inductive UnimplName where
  | mrs | msr | blx | bkpt | dspAddSub | cdp | mcr | mrc | ldc | stc | swi
  deriving DecidableEq, Repr

/-- The spec's faults (R280), each with the value it records. They are not `Fault` below: a raise is an effect on the
Core (R284), so it is a next state in which the Core is Halted. -/
inductive FaultInfo where
  | memoryAccess (sub : AccessSub) (addr : Word)
  | unknownFormat (i : Word)
  | unimplemented (name : UnimplName)
  deriving DecidableEq, Repr

/-- The three causes for which a Core halts (R36, R281). -/
inductive HaltCause where
  | endOfProgram
  | stopped
  | faulted (f : FaultInfo)
  deriving DecidableEq, Repr

/-- Why the MODEL stops. No instruction and no access stops it: the spec gives every fault of the machine an effect, the
halt record (R284). -/
inductive Fault where
  /-- The conditions of the document's `ConfigurationError` (R293): a capacity that is not a power of two or is below 128,
  a Bound with `low > high`, or no Core at all. Raised by `step` through `State.outsidePremises`, and, for the core count,
  by `Processor.stepCore`; `Processor.configure` answers it for the count and the capacity. Safe: the spec takes these
  conditions as premises on the parameters, and a machine that breaks them takes no step. -/
  | configurationError
  deriving DecidableEq, Repr

/-- What the model refuses to give a meaning. -/
inductive Refusal where
  /-- An arm of `exec` without a meaning yet. No arm of this model answers it. Safe. -/
  | notModelled (mnemonic : String)
  /-- A Bound whose `low` is not a multiple of 4, which 93_implementation_defined.md U15 tells a model to refuse. Raised by
  `step` alone, through `State.outsidePremises`. Safe. -/
  | boundLowUnaligned
  /-- Cores whose Bounds on one Memory overlap, which U14 tells a model to refuse (R77). Raised by `Processor.stepCore`
  alone. Safe. -/
  | boundsOverlap
  /-- A Core index, or a Core's memory index, that names nothing in the Processor. Raised by `Processor.stepCore` alone.
  Safe: it is no input the spec knows. -/
  | noSuchCore
  deriving DecidableEq, Repr

/-- A Memory (R51): its capacity in bytes and its contents, one entry per storage address that does not read as
`Config.unlistedByte`, at strictly rising addresses. -/
structure Memory where
  capacity : Nat
  cells    : List Host.Cell
  deriving DecidableEq, Repr

/-- The one form a Memory's contents are held in: strictly rising addresses, inside the capacity, and no entry equal to
what an unlisted address reads as. -/
abbrev Memory.wf (m : Memory) : Prop :=
  m.cells.Pairwise (fun a b => a.1 < b.1) ∧ ∀ c ∈ m.cells, c.1 < m.capacity ∧ c.2 ≠ Config.unlistedByte

/-- The program Memory and the data Memory a Core refers to: one Memory, or two (R37, R50, R75). -/
inductive Store where
  | coincident (m : Memory)
  | separate (prog data : Memory)
  deriving DecidableEq, Repr

/-- The program Memory, `PMEM` (R50). -/
def Store.prog : Store → Memory
  | .coincident m => m
  | .separate p _ => p

/-- The data Memory, `DMEM` (R50). -/
def Store.data : Store → Memory
  | .coincident m => m
  | .separate _ d => d

/-- Replace the data Memory; when the Memories coincide the program Memory is the same one (R75). -/
def Store.setData (st : Store) (m : Memory) : Store :=
  match st with
  | .coincident _ => .coincident m
  | .separate p _ => .separate p m

/-- Replace the program Memory; only the environment does this, never an instruction (R62). -/
def Store.setProg (st : Store) (m : Memory) : Store :=
  match st with
  | .coincident _ => .coincident m
  | .separate _ d => .separate m d

/-- One Core without the contents of its Memories: what R20 lists, the stop input (R288, R301), and the configuration
the Core refers to (R6, R50), which never changes while it runs. -/
structure CoreState where
  /-- `x[0]` to `x[15]` (R21); `x[15]` is the pc (R25). -/
  regs : Vector Word 16
  /-- N, Z, C, V (R30). -/
  flags : Flags
  /-- `run` (R35). -/
  run : RunState
  /-- `halt_cause`; no value while Running (R36, R39). -/
  haltCause : Option HaltCause
  /-- `fault_pc`; a value only after a fault (R36, R39). -/
  faultPc : Option Word
  /-- `stop_req`, the level-sensitive stop input, sampled between instructions (R288). -/
  stopReq : Bool
  /-- `PBOUND`, the program Bound (R50). -/
  pbound : Bound
  /-- `DBOUND`, the data Bound (R50). -/
  dbound : Bound
  /-- `INIT_REG`: what r0 to r14 hold after reset (R6, R39). -/
  initRegs : Vector Word 15
  /-- `INIT_FLAGS`: what N, Z, C, V are after reset (R6, R39). -/
  initFlags : Flags
  deriving DecidableEq, Repr

/-- The state of the machine: a Core and the contents of the Memories it refers to (R20). -/
structure State extends CoreState where
  /-- The program and data Memory (R37, R50). -/
  store : Store
  deriving DecidableEq, Repr

/-- The fifteen registers that reset loads, then the pc at 0 (R39, R310). -/
def resetRegs (init : Vector Word 15) : Vector Word 16 := init.push 0

/-- A Core after reset (R39, R310): Running, pc = 0, no halt record, `INIT_REG` and `INIT_FLAGS` in place. The
configuration and the stop input are the environment's and are kept. -/
def CoreState.reset (c : CoreState) : CoreState :=
  { c with regs := resetRegs c.initRegs, flags := c.initFlags, run := .running, haltCause := none, faultPc := none }

/-- The reset input of the block (R311): it resets the Core and changes no Memory (R310). -/
def State.applyReset (s : State) : State := { s with toCoreState := s.toCoreState.reset }

/-- The machine right after reset. The parameters the spec leaves open (R6) take the values of Config.lean, each a
DESIGN CHOICE of log entries 1 to 3; memory lists nothing. -/
def State.reset : State :=
  { regs := resetRegs (Vector.replicate 15 Config.resetRegister)
    flags := { n := Config.resetFlag, z := Config.resetFlag, c := Config.resetFlag, v := Config.resetFlag }
    run := .running
    haltCause := none
    faultPc := none
    stopReq := false
    pbound := Config.resetBound
    dbound := Config.resetBound
    initRegs := Vector.replicate 15 Config.resetRegister
    initFlags := { n := Config.resetFlag, z := Config.resetFlag, c := Config.resetFlag, v := Config.resetFlag }
    store := .coincident { capacity := Config.resetCapacity, cells := [] } }

end Sys2Proof.Machine
end

