-- ==== Sys2Proof/Machine/Ops.lean ====
section
/-! DEFINITION. The named operations over registers, memory and the run state that every meaning uses (spec 00_scope.md R9,
10_state.md R21 to R29, 20_memory.md R51 to R72, 60_exceptions.md R284 to R291). -/

namespace Sys2Proof.Machine

/-- What a step, and the meaning of an instruction, answers. -/
abbrev Result := Host.Outcome State Fault Refusal

/-! ## Registers and the pc -/

/-- `x[i]` (R9, R21). -/
def State.reg (s : State) (i : RegIx) : Word := s.regs[i.toNat]'i.isLt

/-- `x[i] <- v` (R22). -/
def State.setReg (s : State) (i : RegIx) (v : Word) : State := { s with regs := s.regs.set i.toNat v i.isLt }

/-- The pc is `x[15]` (R25). -/
abbrev pcIx : RegIx := 15#4

/-- The link register is `x[14]` (R23). -/
abbrev lrIx : RegIx := 14#4

def State.pc (s : State) : Word := s.reg pcIx

def State.setPc (s : State) (v : Word) : State := s.setReg pcIx v

def State.setFlags (s : State) (f : Flags) : State := { s with flags := f }

/-- The step's `x[15] <- x[15] + 4` (R27 step 8, R28); it wraps modulo 2^32 (R29). -/
def State.advance (s : State) : State := s.setPc (s.pc + 4)

/-- `x[i] <- v` when `on`, nothing otherwise: the writeback of a base (R182, R201). -/
def State.setRegIf (s : State) (on : Bool) (i : RegIx) (v : Word) : State := if on then s.setReg i v else s

/-! ## Storage: one Memory, by storage address -/

/-- The byte at a storage address of the listed contents; an unlisted one reads as `Config.unlistedByte`. -/
def cellsRead : List Host.Cell → Nat → Byte
  | [], _ => Config.unlistedByte
  | (k, b) :: rest, a => if k = a then b else cellsRead rest a

/-- Put a byte at a storage address, keeping the canonical form: an entry that would read as unlisted is removed. -/
def cellsWrite : List Host.Cell → Nat → Byte → List Host.Cell
  | [], a, v => if v = Config.unlistedByte then [] else [(a, v)]
  | (k, b) :: rest, a, v =>
    if a < k then (if v = Config.unlistedByte then (k, b) :: rest else (a, v) :: (k, b) :: rest)
    else if a = k then (if v = Config.unlistedByte then rest else (a, v) :: rest)
    else (k, b) :: cellsWrite rest a v

/-- `B[a]` (R51). -/
def Memory.byte (m : Memory) (a : Nat) : Byte := cellsRead m.cells a

/-- `B[a] <- v` (R51). -/
def Memory.setByte (m : Memory) (a : Nat) (v : Byte) : Memory := { m with cells := cellsWrite m.cells a v }

/-- `W[a / 4] = B[a] ++ B[a+1] ++ B[a+2] ++ B[a+3]`, byte `a` the most significant (R51, R63). -/
def Memory.word (m : Memory) (a : Nat) : Word := wordOfBytes (m.byte a) (m.byte (a + 1)) (m.byte (a + 2)) (m.byte (a + 3))

/-- `W[a / 4] <- v` (R51, R63). -/
def Memory.setWord (m : Memory) (a : Nat) (v : Word) : Memory :=
  (((m.setByte a (v.extractLsb' 24 8)).setByte (a + 1) (v.extractLsb' 16 8)).setByte (a + 2) (v.extractLsb' 8 8)).setByte
    (a + 3) (v.extractLsb' 0 8)

/-! ## One access through a Bound: the checks -/

/-- The resolved address of a word operation, in unbounded integers (R53). -/
def resolveWord (b : Bound) (addr : Word) : Nat := b.low + addr.toNat

/-- The resolved address of a byte operation: its containing word (R53). -/
def resolveByte (b : Bound) (addr : Word) : Nat := b.low + (addr.toNat - addr.toNat % 4)

/-- The storage address of the byte a byte operation selects in its containing word (R58). -/
def storageByte (b : Bound) (addr : Word) : Nat := b.low + addr.toNat

/-- The bound check, then the capacity check (R55, R68). -/
def checkResolved (m : Memory) (b : Bound) (resolved : Nat) (addr : Word) : Option FaultInfo :=
  if resolved > b.high then some (.memoryAccess .outOfBounds addr)
  else if resolved ≥ m.capacity then some (.memoryAccess .outOfBounds addr)
  else none

/-- The checks of a word operation: alignment first (R54), then R55. -/
def checkWord (m : Memory) (b : Bound) (addr : Word) : Option FaultInfo :=
  if addr.toNat % 4 ≠ 0 then some (.memoryAccess .misaligned addr) else checkResolved m b (resolveWord b addr) addr

/-- The checks of a byte operation: no alignment check (R54, R55). -/
def checkByte (m : Memory) (b : Bound) (addr : Word) : Option FaultInfo := checkResolved m b (resolveByte b addr) addr

/-- `readWord(addr, bound)` (R56). -/
def Memory.readWord (m : Memory) (b : Bound) (addr : Word) : Except FaultInfo Word :=
  match checkWord m b addr with
  | some f => .error f
  | none => .ok (m.word (resolveWord b addr))

/-- `writeWord(addr, data, bound)` (R57). -/
def Memory.writeWord (m : Memory) (b : Bound) (addr v : Word) : Except FaultInfo Memory :=
  match checkWord m b addr with
  | some f => .error f
  | none => .ok (m.setWord (resolveWord b addr) v)

/-- `readByte(addr, bound)` (R58). -/
def Memory.readByte (m : Memory) (b : Bound) (addr : Word) : Except FaultInfo Byte :=
  match checkByte m b addr with
  | some f => .error f
  | none => .ok (m.byte (storageByte b addr))

/-- `writeByte(addr, data, bound)`: only the addressed byte of its containing word changes (R59). -/
def Memory.writeByte (m : Memory) (b : Bound) (addr : Word) (v : Byte) : Except FaultInfo Memory :=
  match checkByte m b addr with
  | some f => .error f
  | none => .ok (m.setByte (storageByte b addr) v)

/-! ## The access primitives of an instruction -/

/-- A raise, with the state as it stood when the raise occurred: every effect on earlier lines has happened (R10). -/
abbrev Raised := FaultInfo × State

def State.progMem (s : State) : Memory := s.store.prog

def State.dataMem (s : State) : Memory := s.store.data

def State.setDataMem (s : State) (m : Memory) : State := { s with store := s.store.setData m }

/-- `Fetch(addr)`: a word read of the program Memory through the program Bound (R62). -/
def State.fetch (s : State) (addr : Word) : Except FaultInfo Word := s.progMem.readWord s.pbound addr

/-- `MemRead(addr, 4)` (R56). -/
def State.memRead4 (s : State) (addr : Word) : Except FaultInfo Word := s.dataMem.readWord s.dbound addr

/-- `MemRead(addr, 1)` (R58). -/
def State.memRead1 (s : State) (addr : Word) : Except FaultInfo Byte := s.dataMem.readByte s.dbound addr

/-- `MemRead(addr, 2)`: the byte at `addr` is the low half, the byte at `addr + 1` the high half, read in that order (R60). -/
def State.memRead2 (s : State) (addr : Word) : Except FaultInfo Half :=
  match s.memRead1 addr with
  | .error f => .error f
  | .ok lo =>
    match s.memRead1 (addr + 1) with
    | .error f => .error f
    | .ok hi => .ok (hi ++ lo)

/-- `MemWrite(addr, 4, v)` (R57). -/
def State.memWrite4 (s : State) (addr v : Word) : Except Raised State :=
  match s.dataMem.writeWord s.dbound addr v with
  | .error f => .error (f, s)
  | .ok m => .ok (s.setDataMem m)

/-- `MemWrite(addr, 1, v)` (R59). -/
def State.memWrite1 (s : State) (addr : Word) (v : Byte) : Except Raised State :=
  match s.dataMem.writeByte s.dbound addr v with
  | .error f => .error (f, s)
  | .ok m => .ok (s.setDataMem m)

/-- `MemWrite(addr, 2, v)`: `v[7:0]` to `addr`, then `v[15:8]` to `addr + 1`; a raise of the second leaves the first
written (R61, R286). -/
def State.memWrite2 (s : State) (addr : Word) (v : Half) : Except Raised State :=
  match s.memWrite1 addr (v.extractLsb' 0 8) with
  | .error r => .error r
  | .ok s' => s'.memWrite1 (addr + 1) (v.extractLsb' 8 8)

/-! ## Halting and raising -/

/-- The two halts without a fault: `run <- Halted` and the cause (R36, R291, R292). -/
def State.halt (s : State) (cause : HaltCause) : State := { s with run := .halted, haltCause := some cause }

/-- `raise F(info)`, taken in state `s` by the instruction at `thisPc` (R284): Halted, the fault and its pc recorded,
everything else as it stood. It is the machine's one way of taking an exception (R283); there is no return (R289). -/
def State.raise (s : State) (f : FaultInfo) (thisPc : Word) : State :=
  { s with run := .halted, haltCause := some (.faulted f), faultPc := some thisPc }

/-! ## Executing one instruction -/

/-- How the body of an instruction ends (R27 steps 5 to 8): without setting `branched`, having set it, or by a raise. -/
inductive Body where
  | done (s : State)
  | branched (s : State)
  | raised (f : FaultInfo) (s : State)

/-- The end of a step: `+4` unless `branched` (R27 step 8), or the raise (R284). -/
def Body.finish (thisPc : Word) : Body → Result
  | .done s => .next s.advance
  | .branched s => .next s
  | .raised f s => .next (s.raise f thisPc)

/-- `ConditionPassed(cond)` (R93). -/
def conditionPassed (c : Cond) (f : Flags) : Bool :=
  match c with
  | .eq => f.z
  | .ne => !f.z
  | .cs => f.c
  | .cc => !f.c
  | .mi => f.n
  | .pl => !f.n
  | .vs => f.v
  | .vc => !f.v
  | .hi => f.c && !f.z
  | .ls => !f.c || f.z
  | .ge => f.n == f.v
  | .lt => f.n != f.v
  | .gt => !f.z && f.n == f.v
  | .le => f.z || f.n != f.v
  | .al => true

/-- Run an instruction's body if its condition passes on the flags earlier instructions left (R27 step 7, R93); skip it
otherwise: nothing but the pc changes (R95). -/
def execute (c : Cond) (body : State → Body) (s : State) : Result :=
  if conditionPassed c s.flags then (body s).finish s.pc else .next s.advance

/-! ## The environment: loading an image (R70, R312) -/

/-- Put bytes at ascending storage addresses from `a`. -/
def Memory.putBytes (m : Memory) (a : Nat) : List Byte → Memory
  | [] => m
  | b :: rest => (m.setByte a b).putBytes (a + 1) rest

/-- The image as whole words: a final group of 1 to 3 bytes is completed with zero low-order bytes (R70). -/
def padImage (image : List Byte) : List Byte := image ++ List.replicate ((4 - image.length % 4) % 4) 0

/-- Load a program image from storage address 0 of a Memory: image byte `i` becomes `B[i]` (R70). -/
def Memory.loadImage (m : Memory) (image : List Byte) : Memory := m.putBytes 0 (padImage image)

end Sys2Proof.Machine
end

