-- ==== Sys2Proof/Machine/Operands.lean ====
section
/-! DEFINITION. The operand forms: the shifter and operand 2 (spec 40_data_processing.md R131 to R134), the immediates
(30_encoding.md R112 to R114), and the addressing resolver (42_load_store_single.md R181, R182;
44_load_store_extended.md R211). -/

namespace Sys2Proof.Machine

/-! ## The shifter (R131) -/

/-- `LSL(v, n) = (u(v) * 2^n) mod 2^32`. -/
def shiftLsl (v : Word) (n : Nat) : Word := v <<< n

/-- `LSR(v, n) = floor(u(v) / 2^n)`. -/
def shiftLsr (v : Word) (n : Nat) : Word := v >>> n

/-- `ASR(v, n) = floor(s(v) / 2^n) mod 2^32`: all copies of the sign bit when `n >= 32`. -/
def shiftAsr (v : Word) (n : Nat) : Word := v.sshiftRight n

/-- `ROR(v, n) = LSR(v, n mod 32) | LSL(v, (32 - n mod 32) mod 32)`. -/
def shiftRor (v : Word) (n : Nat) : Word := shiftLsr v (n % 32) ||| shiftLsl v ((32 - n % 32) % 32)

/-- `SHIFT_stype(v, n)` (R133); an amount of 0 is no shift for every type, and there is no carry out (R133, R138). -/
def shift (t : ShiftType) (v : Word) (n : Nat) : Word :=
  match t with
  | .lsl => shiftLsl v n
  | .lsr => shiftLsr v n
  | .asr => shiftAsr v n
  | .ror => shiftRor v n

/-! ## Operand 2 -/

/-- Operand 2 of format `DPI`: the 8-bit immediate rotated right within 32 bits by twice the rotate field (R112, R132). -/
def operand2Imm (rot : BitVec 4) (imm8 : BitVec 8) : Word := shiftRor (imm8.zeroExtend 32) (2 * rot.toNat)

/-- Operand 2 of format `DPR`: `x[Rm]` shifted by `shamt` as it stands (R133). -/
def operand2Reg (s : State) (rm : RegIx) (t : ShiftType) (shamt : BitVec 5) : Word := shift t (s.reg rm) shamt.toNat

/-- Operand 2 of format `DPRS`: `x[Rm]` shifted by the low byte of `x[Rs]`, 0 to 255 (R134). -/
def operand2RegShift (s : State) (rm : RegIx) (t : ShiftType) (rs : RegIx) : Word :=
  shift t (s.reg rm) ((s.reg rs).extractLsb' 0 8).toNat

/-! ## Branch offset -/

/-- `sext_24(imm24) << 2` (R113). -/
def branchOffset (imm24 : BitVec 24) : Word := imm24.signExtend 32 <<< 2

/-! ## Offsets and the addressing resolver -/

/-- The offset of format `LSI`: 0 to 4095 bytes (R114, R181). -/
def offsetLSI (f : LSI) : Word := f.imm12.zeroExtend 32

/-- The offset of format `LSR`: the offset register, shifted as in format `DPR` (R181). -/
def offsetLSR (f : LSR) (s : State) : Word := shift f.stype (s.reg f.rm) f.shamt.toNat

/-- The offset of format `XLI`: `immH ++ immL`, 0 to 255 bytes (R114, R211). -/
def offsetXLI (f : XLI) : Word := (f.immH ++ f.immL).zeroExtend 32

/-- The offset of format `XLR`: the whole offset register, unshifted (R211). -/
def offsetXLR (f : XLR) (s : State) : Word := s.reg f.rm

/-- What the addressing resolver returns (R182): the access address, the displaced base, and whether it is written back. -/
structure Resolved where
  addr : Word
  disp : Word
  wb   : Bool
  deriving DecidableEq, Repr

/-- `Resolve(P, U, W, base, off)` (R182): pre-indexed uses the displaced base and writes it back when `W`; post-indexed
uses the base and always writes back. -/
def resolve (p u w : Bool) (base off : Word) : Resolved :=
  let disp := if u then base + off else base - off
  if p then { addr := disp, disp := disp, wb := w } else { addr := base, disp := disp, wb := true }

/-- A running address moved by one word, up or down, modulo 2^32 (R201, R69). -/
def stepAddr (u : Bool) (addr : Word) : Word := if u then addr + 4 else addr - 4

end Sys2Proof.Machine
end

