-- ==== Sys2Proof/Machine/Flags.lean ====
section
/-! DEFINITION. Every flag computation (spec 40_data_processing.md R136, R138; 45_multiply.md R231 to R233; 10_state.md R31)
and the sixteen ALU operations (R140 to R155). -/

namespace Sys2Proof.Machine

/-- What `AddWithCarry` returns (R136). -/
structure AddOut where
  result : Word
  carry  : Bool
  ovf    : Bool
  deriving DecidableEq, Repr

/-- `AddWithCarry(x, y, cin)`: the sums are unbounded, the result is narrowed, carry and overflow say what was lost (R136). -/
def addWithCarry (x y : Word) (cin : Bool) : AddOut :=
  let usum : Nat := x.toNat + y.toNat + cin.toNat
  let ssum : Int := x.toInt + y.toInt + (cin.toNat : Int)
  { result := BitVec.ofNat 32 usum
    carry := decide (2 ^ 32 ≤ usum)
    ovf := decide (ssum < -(2 ^ 31) ∨ ssum > 2 ^ 31 - 1) }

/-- N and Z of a result; C and V unchanged: the logical operations, MUL and MLA (R31, R138, R231). -/
def flagsNZ (result : Word) (f : Flags) : Flags := { f with n := result.msb, z := result == 0 }

/-- N and Z of a 64-bit result; C and V unchanged: the long multiplies (R31, R233). -/
def flagsNZ64 (result : DWord) (f : Flags) : Flags := { f with n := result.msb, z := result == 0 }

/-- N, Z, C and V of an addition or subtraction (R31, R138). -/
def flagsNZCV (o : AddOut) : Flags := { n := o.result.msb, z := o.result == 0, c := o.carry, v := o.ovf }

/-- What an ALU operation computes: its result, and the flags it leaves if it updates them. -/
structure AluOut where
  result : Word
  flags  : Flags
  deriving DecidableEq, Repr

/-- A logical operation's outcome (R138): N and Z of the result, C and V as they were. -/
def logicalOut (result : Word) (f : Flags) : AluOut := { result := result, flags := flagsNZ result f }

/-- An arithmetic operation's outcome (R138). -/
def arithOut (o : AddOut) : AluOut := { result := o.result, flags := flagsNZCV o }

/-! ## The sixteen operations: first operand, operand 2, the flags before -/

/-- AND (R140). -/
def aluAnd (a op2 : Word) (f : Flags) : AluOut := logicalOut (a &&& op2) f

/-- EOR (R141). -/
def aluEor (a op2 : Word) (f : Flags) : AluOut := logicalOut (a ^^^ op2) f

/-- SUB (R142). -/
def aluSub (a op2 : Word) (_ : Flags) : AluOut := arithOut (addWithCarry a (~~~op2) true)

/-- RSB (R143). -/
def aluRsb (a op2 : Word) (_ : Flags) : AluOut := arithOut (addWithCarry op2 (~~~a) true)

/-- ADD (R144). -/
def aluAdd (a op2 : Word) (_ : Flags) : AluOut := arithOut (addWithCarry a op2 false)

/-- ADC (R145). -/
def aluAdc (a op2 : Word) (f : Flags) : AluOut := arithOut (addWithCarry a op2 f.c)

/-- SBC (R146). -/
def aluSbc (a op2 : Word) (f : Flags) : AluOut := arithOut (addWithCarry a (~~~op2) f.c)

/-- RSC (R147). -/
def aluRsc (a op2 : Word) (f : Flags) : AluOut := arithOut (addWithCarry op2 (~~~a) f.c)

/-- TST (R148). -/
def aluTst (a op2 : Word) (f : Flags) : AluOut := logicalOut (a &&& op2) f

/-- TEQ (R149). -/
def aluTeq (a op2 : Word) (f : Flags) : AluOut := logicalOut (a ^^^ op2) f

/-- CMP (R150). -/
def aluCmp (a op2 : Word) (_ : Flags) : AluOut := arithOut (addWithCarry a (~~~op2) true)

/-- CMN (R151). -/
def aluCmn (a op2 : Word) (_ : Flags) : AluOut := arithOut (addWithCarry a op2 false)

/-- ORR (R152). -/
def aluOrr (a op2 : Word) (f : Flags) : AluOut := logicalOut (a ||| op2) f

/-- MOV ignores the first operand (R153). -/
def aluMov (_ op2 : Word) (f : Flags) : AluOut := logicalOut op2 f

/-- BIC (R154). -/
def aluBic (a op2 : Word) (f : Flags) : AluOut := logicalOut (a &&& ~~~op2) f

/-- MVN ignores the first operand (R155). -/
def aluMvn (_ op2 : Word) (f : Flags) : AluOut := logicalOut (~~~op2) f

end Sys2Proof.Machine
end

