-- ==== Sys2Proof/Machine/Branch.lean ====
section
/-! DEFINITION. Control transfer (spec 41_branch.md): B, BL and BX, the branch family, after which the step adds nothing. -/

namespace Sys2Proof.Machine

/-- The target is the branch's own address plus the offset (R171). -/
def branchBody (f : BR) (s : State) : Body := .branched (s.setPc (s.pc + branchOffset f.imm24))

/-- r14 receives the address of the BL itself, then the pc the target (R172). -/
def branchLinkBody (f : BR) (s : State) : Body :=
  .branched ((s.setReg lrIx s.pc).setPc (s.pc + branchOffset f.imm24))

/-- `Rm` is read first, r14 receives PC+4, the target is written unchanged (R173). -/
def branchExchangeBody (f : BXR) (s : State) : Body := .branched ((s.setReg lrIx (s.pc + 4)).setPc (s.reg f.rm))

/-- B (R171). -/
def execB (f : BR) (s : State) : Result := execute f.cond (branchBody f) s

/-- BL (R172). -/
def execBl (f : BR) (s : State) : Result := execute f.cond (branchLinkBody f) s

/-- BX (R173). -/
def execBx (f : BXR) (s : State) : Result := execute f.cond (branchExchangeBody f) s

end Sys2Proof.Machine
end

