-- ==== Sys2Proof/Machine/DataProcessing.lean ====
section
/-! DEFINITION. Data processing (spec 40_data_processing.md): the sixteen operations in the three formats `DPI`, `DPR` and
`DPRS`. No instruction of this family raises or reaches memory (R156). -/

namespace Sys2Proof.Machine

/-- The execution template (R137) of an operation that writes `Rd`: all reads first, then `Rd`, then the flags when `S`. -/
def dataWrite (alu : Word → Word → Flags → AluOut) (upd : Bool) (rn rd : RegIx) (op2 : State → Word) (s : State) : Body :=
  let o := alu (s.reg rn) (op2 s) s.flags
  let s' := s.setReg rd o.result
  .done (if upd then s'.setFlags o.flags else s')

/-- The execution template (R137) of TST, TEQ, CMP and CMN: no register is written, the flags always are. -/
def dataTest (alu : Word → Word → Flags → AluOut) (rn : RegIx) (op2 : State → Word) (s : State) : Body :=
  .done (s.setFlags (alu (s.reg rn) (op2 s) s.flags).flags)

/-- AND, format `DPI` (R140). -/
def execAndDPI (f : DPI) (s : State) : Result :=
  execute f.cond (dataWrite aluAnd f.s f.rn f.rd (fun _ => operand2Imm f.rot f.imm8)) s

/-- AND, format `DPR` (R140). -/
def execAndDPR (f : DPR) (s : State) : Result :=
  execute f.cond (dataWrite aluAnd f.s f.rn f.rd (fun t => operand2Reg t f.rm f.stype f.shamt)) s

/-- AND, format `DPRS` (R140). -/
def execAndDPRS (f : DPRS) (s : State) : Result :=
  execute f.cond (dataWrite aluAnd f.s f.rn f.rd (fun t => operand2RegShift t f.rm f.stype f.rs)) s

/-- EOR, format `DPI` (R141). -/
def execEorDPI (f : DPI) (s : State) : Result :=
  execute f.cond (dataWrite aluEor f.s f.rn f.rd (fun _ => operand2Imm f.rot f.imm8)) s

/-- EOR, format `DPR` (R141). -/
def execEorDPR (f : DPR) (s : State) : Result :=
  execute f.cond (dataWrite aluEor f.s f.rn f.rd (fun t => operand2Reg t f.rm f.stype f.shamt)) s

/-- EOR, format `DPRS` (R141). -/
def execEorDPRS (f : DPRS) (s : State) : Result :=
  execute f.cond (dataWrite aluEor f.s f.rn f.rd (fun t => operand2RegShift t f.rm f.stype f.rs)) s

/-- SUB, format `DPI` (R142). -/
def execSubDPI (f : DPI) (s : State) : Result :=
  execute f.cond (dataWrite aluSub f.s f.rn f.rd (fun _ => operand2Imm f.rot f.imm8)) s

/-- SUB, format `DPR` (R142). -/
def execSubDPR (f : DPR) (s : State) : Result :=
  execute f.cond (dataWrite aluSub f.s f.rn f.rd (fun t => operand2Reg t f.rm f.stype f.shamt)) s

/-- SUB, format `DPRS` (R142). -/
def execSubDPRS (f : DPRS) (s : State) : Result :=
  execute f.cond (dataWrite aluSub f.s f.rn f.rd (fun t => operand2RegShift t f.rm f.stype f.rs)) s

/-- RSB, format `DPI` (R143). -/
def execRsbDPI (f : DPI) (s : State) : Result :=
  execute f.cond (dataWrite aluRsb f.s f.rn f.rd (fun _ => operand2Imm f.rot f.imm8)) s

/-- RSB, format `DPR` (R143). -/
def execRsbDPR (f : DPR) (s : State) : Result :=
  execute f.cond (dataWrite aluRsb f.s f.rn f.rd (fun t => operand2Reg t f.rm f.stype f.shamt)) s

/-- RSB, format `DPRS` (R143). -/
def execRsbDPRS (f : DPRS) (s : State) : Result :=
  execute f.cond (dataWrite aluRsb f.s f.rn f.rd (fun t => operand2RegShift t f.rm f.stype f.rs)) s

/-- ADD, format `DPI` (R144). -/
def execAddDPI (f : DPI) (s : State) : Result :=
  execute f.cond (dataWrite aluAdd f.s f.rn f.rd (fun _ => operand2Imm f.rot f.imm8)) s

/-- ADD, format `DPR` (R144). -/
def execAddDPR (f : DPR) (s : State) : Result :=
  execute f.cond (dataWrite aluAdd f.s f.rn f.rd (fun t => operand2Reg t f.rm f.stype f.shamt)) s

/-- ADD, format `DPRS` (R144). -/
def execAddDPRS (f : DPRS) (s : State) : Result :=
  execute f.cond (dataWrite aluAdd f.s f.rn f.rd (fun t => operand2RegShift t f.rm f.stype f.rs)) s

/-- ADC, format `DPI` (R145). -/
def execAdcDPI (f : DPI) (s : State) : Result :=
  execute f.cond (dataWrite aluAdc f.s f.rn f.rd (fun _ => operand2Imm f.rot f.imm8)) s

/-- ADC, format `DPR` (R145). -/
def execAdcDPR (f : DPR) (s : State) : Result :=
  execute f.cond (dataWrite aluAdc f.s f.rn f.rd (fun t => operand2Reg t f.rm f.stype f.shamt)) s

/-- ADC, format `DPRS` (R145). -/
def execAdcDPRS (f : DPRS) (s : State) : Result :=
  execute f.cond (dataWrite aluAdc f.s f.rn f.rd (fun t => operand2RegShift t f.rm f.stype f.rs)) s

/-- SBC, format `DPI` (R146). -/
def execSbcDPI (f : DPI) (s : State) : Result :=
  execute f.cond (dataWrite aluSbc f.s f.rn f.rd (fun _ => operand2Imm f.rot f.imm8)) s

/-- SBC, format `DPR` (R146). -/
def execSbcDPR (f : DPR) (s : State) : Result :=
  execute f.cond (dataWrite aluSbc f.s f.rn f.rd (fun t => operand2Reg t f.rm f.stype f.shamt)) s

/-- SBC, format `DPRS` (R146). -/
def execSbcDPRS (f : DPRS) (s : State) : Result :=
  execute f.cond (dataWrite aluSbc f.s f.rn f.rd (fun t => operand2RegShift t f.rm f.stype f.rs)) s

/-- RSC, format `DPI` (R147). -/
def execRscDPI (f : DPI) (s : State) : Result :=
  execute f.cond (dataWrite aluRsc f.s f.rn f.rd (fun _ => operand2Imm f.rot f.imm8)) s

/-- RSC, format `DPR` (R147). -/
def execRscDPR (f : DPR) (s : State) : Result :=
  execute f.cond (dataWrite aluRsc f.s f.rn f.rd (fun t => operand2Reg t f.rm f.stype f.shamt)) s

/-- RSC, format `DPRS` (R147). -/
def execRscDPRS (f : DPRS) (s : State) : Result :=
  execute f.cond (dataWrite aluRsc f.s f.rn f.rd (fun t => operand2RegShift t f.rm f.stype f.rs)) s

/-- TST, format `DPI` (R148). -/
def execTstDPI (f : DPI) (s : State) : Result :=
  execute f.cond (dataTest aluTst f.rn (fun _ => operand2Imm f.rot f.imm8)) s

/-- TST, format `DPR` (R148). -/
def execTstDPR (f : DPR) (s : State) : Result :=
  execute f.cond (dataTest aluTst f.rn (fun t => operand2Reg t f.rm f.stype f.shamt)) s

/-- TST, format `DPRS` (R148). -/
def execTstDPRS (f : DPRS) (s : State) : Result :=
  execute f.cond (dataTest aluTst f.rn (fun t => operand2RegShift t f.rm f.stype f.rs)) s

/-- TEQ, format `DPI` (R149). -/
def execTeqDPI (f : DPI) (s : State) : Result :=
  execute f.cond (dataTest aluTeq f.rn (fun _ => operand2Imm f.rot f.imm8)) s

/-- TEQ, format `DPR` (R149). -/
def execTeqDPR (f : DPR) (s : State) : Result :=
  execute f.cond (dataTest aluTeq f.rn (fun t => operand2Reg t f.rm f.stype f.shamt)) s

/-- TEQ, format `DPRS` (R149). -/
def execTeqDPRS (f : DPRS) (s : State) : Result :=
  execute f.cond (dataTest aluTeq f.rn (fun t => operand2RegShift t f.rm f.stype f.rs)) s

/-- CMP, format `DPI` (R150). -/
def execCmpDPI (f : DPI) (s : State) : Result :=
  execute f.cond (dataTest aluCmp f.rn (fun _ => operand2Imm f.rot f.imm8)) s

/-- CMP, format `DPR` (R150). -/
def execCmpDPR (f : DPR) (s : State) : Result :=
  execute f.cond (dataTest aluCmp f.rn (fun t => operand2Reg t f.rm f.stype f.shamt)) s

/-- CMP, format `DPRS` (R150). -/
def execCmpDPRS (f : DPRS) (s : State) : Result :=
  execute f.cond (dataTest aluCmp f.rn (fun t => operand2RegShift t f.rm f.stype f.rs)) s

/-- CMN, format `DPI` (R151). -/
def execCmnDPI (f : DPI) (s : State) : Result :=
  execute f.cond (dataTest aluCmn f.rn (fun _ => operand2Imm f.rot f.imm8)) s

/-- CMN, format `DPR` (R151). -/
def execCmnDPR (f : DPR) (s : State) : Result :=
  execute f.cond (dataTest aluCmn f.rn (fun t => operand2Reg t f.rm f.stype f.shamt)) s

/-- CMN, format `DPRS` (R151). -/
def execCmnDPRS (f : DPRS) (s : State) : Result :=
  execute f.cond (dataTest aluCmn f.rn (fun t => operand2RegShift t f.rm f.stype f.rs)) s

/-- ORR, format `DPI` (R152). -/
def execOrrDPI (f : DPI) (s : State) : Result :=
  execute f.cond (dataWrite aluOrr f.s f.rn f.rd (fun _ => operand2Imm f.rot f.imm8)) s

/-- ORR, format `DPR` (R152). -/
def execOrrDPR (f : DPR) (s : State) : Result :=
  execute f.cond (dataWrite aluOrr f.s f.rn f.rd (fun t => operand2Reg t f.rm f.stype f.shamt)) s

/-- ORR, format `DPRS` (R152). -/
def execOrrDPRS (f : DPRS) (s : State) : Result :=
  execute f.cond (dataWrite aluOrr f.s f.rn f.rd (fun t => operand2RegShift t f.rm f.stype f.rs)) s

/-- MOV, format `DPI` (R153). -/
def execMovDPI (f : DPI) (s : State) : Result :=
  execute f.cond (dataWrite aluMov f.s f.rn f.rd (fun _ => operand2Imm f.rot f.imm8)) s

/-- MOV, format `DPR` (R153). -/
def execMovDPR (f : DPR) (s : State) : Result :=
  execute f.cond (dataWrite aluMov f.s f.rn f.rd (fun t => operand2Reg t f.rm f.stype f.shamt)) s

/-- MOV, format `DPRS` (R153). -/
def execMovDPRS (f : DPRS) (s : State) : Result :=
  execute f.cond (dataWrite aluMov f.s f.rn f.rd (fun t => operand2RegShift t f.rm f.stype f.rs)) s

/-- BIC, format `DPI` (R154). -/
def execBicDPI (f : DPI) (s : State) : Result :=
  execute f.cond (dataWrite aluBic f.s f.rn f.rd (fun _ => operand2Imm f.rot f.imm8)) s

/-- BIC, format `DPR` (R154). -/
def execBicDPR (f : DPR) (s : State) : Result :=
  execute f.cond (dataWrite aluBic f.s f.rn f.rd (fun t => operand2Reg t f.rm f.stype f.shamt)) s

/-- BIC, format `DPRS` (R154). -/
def execBicDPRS (f : DPRS) (s : State) : Result :=
  execute f.cond (dataWrite aluBic f.s f.rn f.rd (fun t => operand2RegShift t f.rm f.stype f.rs)) s

/-- MVN, format `DPI` (R155). -/
def execMvnDPI (f : DPI) (s : State) : Result :=
  execute f.cond (dataWrite aluMvn f.s f.rn f.rd (fun _ => operand2Imm f.rot f.imm8)) s

/-- MVN, format `DPR` (R155). -/
def execMvnDPR (f : DPR) (s : State) : Result :=
  execute f.cond (dataWrite aluMvn f.s f.rn f.rd (fun t => operand2Reg t f.rm f.stype f.shamt)) s

/-- MVN, format `DPRS` (R155). -/
def execMvnDPRS (f : DPRS) (s : State) : Result :=
  execute f.cond (dataWrite aluMvn f.s f.rn f.rd (fun t => operand2RegShift t f.rm f.stype f.rs)) s

end Sys2Proof.Machine
end

