-- ==== Sys2Proof/Machine/LoadStore.lean ====
section
/-! DEFINITION. Single and extended load/store (spec 42_load_store_single.md, 44_load_store_extended.md): LDR, STR, LDRB, STRB,
LDRH, STRH, LDRSB, LDRSH, over one resolver and one order of effects (R183, R211). -/

namespace Sys2Proof.Machine

/-- A load's order of effects (R183): the reads, the access, the writeback, then `Rd`, which wins when `Rd = Rn`. -/
def loadBody (read : State → Word → Except FaultInfo Word) (p u w : Bool) (rn rd : RegIx) (off : State → Word) (s : State) :
    Body :=
  let a := resolve p u w (s.reg rn) (off s)
  match read s a.addr with
  | .error f => .raised f s
  | .ok v => .done ((s.setRegIf a.wb rn a.disp).setReg rd v)

/-- A store's order of effects (R183): the reads, `Rd` among them, the access, then the writeback. -/
def storeBody (write : State → Word → Word → Except Raised State) (p u w : Bool) (rn rd : RegIx) (off : State → Word)
    (s : State) : Body :=
  let a := resolve p u w (s.reg rn) (off s)
  match write s a.addr (s.reg rd) with
  | .error (f, s') => .raised f s'
  | .ok s' => .done (s'.setRegIf a.wb rn a.disp)

/-- The value LDR loads (R184). -/
def loadWord (s : State) (addr : Word) : Except FaultInfo Word := s.memRead4 addr

/-- The value LDRB loads: byte loads zero-extend (R186). -/
def loadByte (s : State) (addr : Word) : Except FaultInfo Word := (s.memRead1 addr).map (fun b => b.zeroExtend 32)

/-- The value LDRH loads: the halfword, zero-extended (R212). -/
def loadHalf (s : State) (addr : Word) : Except FaultInfo Word := (s.memRead2 addr).map (fun h => h.zeroExtend 32)

/-- The value LDRSB loads: the byte, sign-extended (R214). -/
def loadSignedByte (s : State) (addr : Word) : Except FaultInfo Word := (s.memRead1 addr).map (fun b => b.signExtend 32)

/-- The value LDRSH loads: the halfword, sign-extended (R215). -/
def loadSignedHalf (s : State) (addr : Word) : Except FaultInfo Word := (s.memRead2 addr).map (fun h => h.signExtend 32)

/-- What STR stores (R185). -/
def storeWord (s : State) (addr v : Word) : Except Raised State := s.memWrite4 addr v

/-- What STRB stores: the register's low 8 bits (R187). -/
def storeByte (s : State) (addr v : Word) : Except Raised State := s.memWrite1 addr (v.extractLsb' 0 8)

/-- What STRH stores: the register's low 16 bits (R213). -/
def storeHalf (s : State) (addr v : Word) : Except Raised State := s.memWrite2 addr (v.extractLsb' 0 16)

/-- LDR, format `LSI` (R184). -/
def execLdrLSI (f : LSI) (s : State) : Result :=
  execute f.cond (loadBody loadWord f.p f.u f.w f.rn f.rd (fun _ => offsetLSI f)) s

/-- LDR, format `LSR` (R184). -/
def execLdrLSR (f : LSR) (s : State) : Result :=
  execute f.cond (loadBody loadWord f.p f.u f.w f.rn f.rd (offsetLSR f)) s

/-- STR, format `LSI` (R185). -/
def execStrLSI (f : LSI) (s : State) : Result :=
  execute f.cond (storeBody storeWord f.p f.u f.w f.rn f.rd (fun _ => offsetLSI f)) s

/-- STR, format `LSR` (R185). -/
def execStrLSR (f : LSR) (s : State) : Result :=
  execute f.cond (storeBody storeWord f.p f.u f.w f.rn f.rd (offsetLSR f)) s

/-- LDRB, format `LSI` (R186). -/
def execLdrbLSI (f : LSI) (s : State) : Result :=
  execute f.cond (loadBody loadByte f.p f.u f.w f.rn f.rd (fun _ => offsetLSI f)) s

/-- LDRB, format `LSR` (R186). -/
def execLdrbLSR (f : LSR) (s : State) : Result :=
  execute f.cond (loadBody loadByte f.p f.u f.w f.rn f.rd (offsetLSR f)) s

/-- STRB, format `LSI` (R187). -/
def execStrbLSI (f : LSI) (s : State) : Result :=
  execute f.cond (storeBody storeByte f.p f.u f.w f.rn f.rd (fun _ => offsetLSI f)) s

/-- STRB, format `LSR` (R187). -/
def execStrbLSR (f : LSR) (s : State) : Result :=
  execute f.cond (storeBody storeByte f.p f.u f.w f.rn f.rd (offsetLSR f)) s

/-- LDRH, format `XLI` (R212). -/
def execLdrhXLI (f : XLI) (s : State) : Result :=
  execute f.cond (loadBody loadHalf f.p f.u f.w f.rn f.rd (fun _ => offsetXLI f)) s

/-- LDRH, format `XLR` (R212). -/
def execLdrhXLR (f : XLR) (s : State) : Result :=
  execute f.cond (loadBody loadHalf f.p f.u f.w f.rn f.rd (offsetXLR f)) s

/-- STRH, format `XLI` (R213). -/
def execStrhXLI (f : XLI) (s : State) : Result :=
  execute f.cond (storeBody storeHalf f.p f.u f.w f.rn f.rd (fun _ => offsetXLI f)) s

/-- STRH, format `XLR` (R213). -/
def execStrhXLR (f : XLR) (s : State) : Result :=
  execute f.cond (storeBody storeHalf f.p f.u f.w f.rn f.rd (offsetXLR f)) s

/-- LDRSB, format `XLI` (R214). -/
def execLdrsbXLI (f : XLI) (s : State) : Result :=
  execute f.cond (loadBody loadSignedByte f.p f.u f.w f.rn f.rd (fun _ => offsetXLI f)) s

/-- LDRSB, format `XLR` (R214). -/
def execLdrsbXLR (f : XLR) (s : State) : Result :=
  execute f.cond (loadBody loadSignedByte f.p f.u f.w f.rn f.rd (offsetXLR f)) s

/-- LDRSH, format `XLI` (R215). -/
def execLdrshXLI (f : XLI) (s : State) : Result :=
  execute f.cond (loadBody loadSignedHalf f.p f.u f.w f.rn f.rd (fun _ => offsetXLI f)) s

/-- LDRSH, format `XLR` (R215). -/
def execLdrshXLR (f : XLR) (s : State) : Result :=
  execute f.cond (loadBody loadSignedHalf f.p f.u f.w f.rn f.rd (offsetXLR f)) s

end Sys2Proof.Machine
end

