-- ==== Sys2Proof/Machine/LoadStoreMultiple.lean ====
section
/-! DEFINITION. Load/store multiple (spec 43_load_store_multiple.md): LDM and STM over one address walk. -/

namespace Sys2Proof.Machine

/-- `x[0]` to `x[15]` in ascending order (R201). -/
def allRegs : List RegIx := [0#4, 1#4, 2#4, 3#4, 4#4, 5#4, 6#4, 7#4, 8#4, 9#4, 10#4, 11#4, 12#4, 13#4, 14#4, 15#4]

/-- The address walk (R201): one running address, moved by 4 before each transfer when `P`, after it when not; the first
raise ends it, and what was transferred before stays (R286). It answers the final address. -/
def walk (transfer : State → RegIx → Word → Except Raised State) (p u : Bool) (reglist : BitVec 16) :
    List RegIx → Word → State → Except Raised (Word × State)
  | [], addr, s => .ok (addr, s)
  | k :: rest, addr, s =>
    if reglist.getLsbD k.toNat then
      match transfer s k (if p then stepAddr u addr else addr) with
      | .error r => .error r
      | .ok s' => walk transfer p u reglist rest (stepAddr u addr) s'
    else walk transfer p u reglist rest addr s

/-- The walk from the base, then the writeback of the final address (R201). -/
def multipleBody (transfer : State → RegIx → Word → Except Raised State) (f : LSM) (s : State) : Body :=
  match walk transfer f.p f.u f.reglist allRegs (s.reg f.rn) s with
  | .error (fault, s') => .raised fault s'
  | .ok (addr, s') => .done (s'.setRegIf f.w f.rn addr)

/-- LDM's transfer: the register is written at once (R202). -/
def loadTransfer (s : State) (k : RegIx) (addr : Word) : Except Raised State :=
  match s.memRead4 addr with
  | .error fault => .error (fault, s)
  | .ok v => .ok (s.setReg k v)

/-- STM's transfer: the register is read at the time of its transfer (R203). -/
def storeTransfer (s : State) (k : RegIx) (addr : Word) : Except Raised State := s.memWrite4 addr (s.reg k)

/-- LDM (R202). -/
def execLdm (f : LSM) (s : State) : Result := execute f.cond (multipleBody loadTransfer f) s

/-- STM (R203). -/
def execStm (f : LSM) (s : State) : Result := execute f.cond (multipleBody storeTransfer f) s

end Sys2Proof.Machine
end

