-- ==== Sys2Proof/Machine/Multiply.lean ====
section
/-! DEFINITION. Multiply, multiply-accumulate and multiply-long (spec 45_multiply.md). None raises; none reaches memory. -/

namespace Sys2Proof.Machine

/-- The end of MUL and MLA (R231, R232): `Rd`, then N and Z of the result when `S`; C and V unchanged. -/
def mulWrite (upd : Bool) (rd : RegIx) (result : Word) (s : State) : Body :=
  let s' := s.setReg rd result
  .done (if upd then s'.setFlags (flagsNZ result s.flags) else s')

/-- The end of the long multiplies (R233): `RdLo` first, `RdHi` second, then N and Z of the 64 bits when `S`. -/
def longWrite (upd : Bool) (rdHi rdLo : RegIx) (result : DWord) (s : State) : Body :=
  let s' := (s.setReg rdLo (result.extractLsb' 0 32)).setReg rdHi (result.extractLsb' 32 32)
  .done (if upd then s'.setFlags (flagsNZ64 result s.flags) else s')

/-- `ACC = u(x[RdHi]) * 2^32 + u(x[RdLo])` (R233). -/
def accumulator (s : State) (rdHi rdLo : RegIx) : DWord := s.reg rdHi ++ s.reg rdLo

/-- `u(x[Rm]) * u(x[Rs])`, 64 bits (R234). -/
def unsignedProduct (s : State) (rm rs : RegIx) : DWord := (s.reg rm).zeroExtend 64 * (s.reg rs).zeroExtend 64

/-- `(s(x[Rm]) * s(x[Rs])) mod 2^64` (R236). -/
def signedProduct (s : State) (rm rs : RegIx) : DWord := (s.reg rm).signExtend 64 * (s.reg rs).signExtend 64

/-- The body of MUL (R231). -/
def mulBody (f : MULF) (s : State) : Body := mulWrite f.s f.rd (s.reg f.rm * s.reg f.rs) s

/-- MUL (R231). -/
def execMul (f : MULF) (s : State) : Result := execute f.cond (mulBody f) s

/-- The body of MLA (R232). -/
def mlaBody (f : MULF) (s : State) : Body := mulWrite f.s f.rd (s.reg f.rm * s.reg f.rs + s.reg f.rn) s

/-- MLA (R232). -/
def execMla (f : MULF) (s : State) : Result := execute f.cond (mlaBody f) s

/-- The body of UMULL (R234). -/
def umullBody (f : MULL) (s : State) : Body := longWrite f.s f.rdHi f.rdLo (unsignedProduct s f.rm f.rs) s

/-- UMULL (R234). -/
def execUmull (f : MULL) (s : State) : Result := execute f.cond (umullBody f) s

/-- The body of UMLAL (R235). -/
def umlalBody (f : MULL) (s : State) : Body :=
  longWrite f.s f.rdHi f.rdLo (unsignedProduct s f.rm f.rs + accumulator s f.rdHi f.rdLo) s

/-- UMLAL (R235). -/
def execUmlal (f : MULL) (s : State) : Result := execute f.cond (umlalBody f) s

/-- The body of SMULL (R236). -/
def smullBody (f : MULL) (s : State) : Body := longWrite f.s f.rdHi f.rdLo (signedProduct s f.rm f.rs) s

/-- SMULL (R236). -/
def execSmull (f : MULL) (s : State) : Result := execute f.cond (smullBody f) s

/-- The body of SMLAL (R237). -/
def smlalBody (f : MULL) (s : State) : Body :=
  longWrite f.s f.rdHi f.rdLo (signedProduct s f.rm f.rs + accumulator s f.rdHi f.rdLo) s

/-- SMLAL (R237). -/
def execSmlal (f : MULL) (s : State) : Result := execute f.cond (smlalBody f) s

end Sys2Proof.Machine
end

