-- ==== Sys2Proof/Machine/Swap.lean ====
section
/-! DEFINITION. Atomic swap (spec 46_swap.md): SWP and SWPB. One instruction, so indivisible (R250). -/

namespace Sys2Proof.Machine

/-- SWP (R251): both registers read, the old word read, the new word written, the old word to `Rd`. -/
def swapWord (f : SWPF) (s : State) : Body :=
  match s.memRead4 (s.reg f.rn) with
  | .error fault => .raised fault s
  | .ok old =>
    match s.memWrite4 (s.reg f.rn) (s.reg f.rm) with
    | .error (fault, s') => .raised fault s'
    | .ok s' => .done (s'.setReg f.rd old)

/-- SWPB (R252): the same with the low 8 bits, the old byte zero-extended. -/
def swapByte (f : SWPF) (s : State) : Body :=
  match s.memRead1 (s.reg f.rn) with
  | .error fault => .raised fault s
  | .ok old =>
    match s.memWrite1 (s.reg f.rn) ((s.reg f.rm).extractLsb' 0 8) with
    | .error (fault, s') => .raised fault s'
    | .ok s' => .done (s'.setReg f.rd (old.zeroExtend 32))

/-- SWP (R251). -/
def execSwp (f : SWPF) (s : State) : Result := execute f.cond (swapWord f) s

/-- SWPB (R252). -/
def execSwpb (f : SWPF) (s : State) : Result := execute f.cond (swapByte f) s

end Sys2Proof.Machine
end

