-- ==== Sys2Proof/Machine/Unsupported.lean ====
section
/-! DEFINITION. The recognised-and-refused instructions (spec 47_unsupported.md R260 to R272). When its condition passes each
raises `UnimplementedInstruction(name)`: the Core halts with the record of R284, which is its whole effect; when the
condition fails it is skipped (R95). -/

namespace Sys2Proof.Machine

/-- Raise `UnimplementedInstruction(name)`: no operand is read and nothing else changes (R260). -/
def unimplementedBody (name : UnimplName) (s : State) : Body := .raised (.unimplemented name) s

/-- MRS (R261). -/
def execMrs (c : Cond) (s : State) : Result := execute c (unimplementedBody .mrs) s

/-- MSR, register form (R262). -/
def execMsrReg (c : Cond) (s : State) : Result := execute c (unimplementedBody .msr) s

/-- MSR, immediate form (R262). -/
def execMsrImm (c : Cond) (s : State) : Result := execute c (unimplementedBody .msr) s

/-- BLX, register form (R263). -/
def execBlxReg (c : Cond) (s : State) : Result := execute c (unimplementedBody .blx) s

/-- BLX, immediate form, raised without a condition test (R264). -/
def execBlxImm (s : State) : Result := (unimplementedBody .blx s).finish s.pc

/-- BKPT (R265). -/
def execBkpt (c : Cond) (s : State) : Result := execute c (unimplementedBody .bkpt) s

/-- QADD (R266). -/
def execQadd (c : Cond) (s : State) : Result := execute c (unimplementedBody .dspAddSub) s

/-- QSUB (R266). -/
def execQsub (c : Cond) (s : State) : Result := execute c (unimplementedBody .dspAddSub) s

/-- QDADD (R266). -/
def execQdadd (c : Cond) (s : State) : Result := execute c (unimplementedBody .dspAddSub) s

/-- QDSUB (R266). -/
def execQdsub (c : Cond) (s : State) : Result := execute c (unimplementedBody .dspAddSub) s

/-- CDP (R267). -/
def execCdp (c : Cond) (s : State) : Result := execute c (unimplementedBody .cdp) s

/-- MCR (R268). -/
def execMcr (c : Cond) (s : State) : Result := execute c (unimplementedBody .mcr) s

/-- MRC (R269). -/
def execMrc (c : Cond) (s : State) : Result := execute c (unimplementedBody .mrc) s

/-- LDC (R270). -/
def execLdc (c : Cond) (s : State) : Result := execute c (unimplementedBody .ldc) s

/-- STC (R271). -/
def execStc (c : Cond) (s : State) : Result := execute c (unimplementedBody .stc) s

/-- SWI (R272). -/
def execSwi (c : Cond) (s : State) : Result := execute c (unimplementedBody .swi) s

end Sys2Proof.Machine
end

