-- ==== Sys2Proof/Machine/Dispatch.lean ====
section
/-! DEFINITION. The dispatch: one arm per instruction, each one call of its meaning. -/

namespace Sys2Proof.Machine

def exec (i : Instr) (s : State) : Host.Outcome State Fault Refusal :=
  match i with
  | .andDPI f => Sys2Proof.Machine.execAndDPI f s
  | .andDPR f => Sys2Proof.Machine.execAndDPR f s
  | .andDPRS f => Sys2Proof.Machine.execAndDPRS f s
  | .eorDPI f => Sys2Proof.Machine.execEorDPI f s
  | .eorDPR f => Sys2Proof.Machine.execEorDPR f s
  | .eorDPRS f => Sys2Proof.Machine.execEorDPRS f s
  | .subDPI f => Sys2Proof.Machine.execSubDPI f s
  | .subDPR f => Sys2Proof.Machine.execSubDPR f s
  | .subDPRS f => Sys2Proof.Machine.execSubDPRS f s
  | .rsbDPI f => Sys2Proof.Machine.execRsbDPI f s
  | .rsbDPR f => Sys2Proof.Machine.execRsbDPR f s
  | .rsbDPRS f => Sys2Proof.Machine.execRsbDPRS f s
  | .addDPI f => Sys2Proof.Machine.execAddDPI f s
  | .addDPR f => Sys2Proof.Machine.execAddDPR f s
  | .addDPRS f => Sys2Proof.Machine.execAddDPRS f s
  | .adcDPI f => Sys2Proof.Machine.execAdcDPI f s
  | .adcDPR f => Sys2Proof.Machine.execAdcDPR f s
  | .adcDPRS f => Sys2Proof.Machine.execAdcDPRS f s
  | .sbcDPI f => Sys2Proof.Machine.execSbcDPI f s
  | .sbcDPR f => Sys2Proof.Machine.execSbcDPR f s
  | .sbcDPRS f => Sys2Proof.Machine.execSbcDPRS f s
  | .rscDPI f => Sys2Proof.Machine.execRscDPI f s
  | .rscDPR f => Sys2Proof.Machine.execRscDPR f s
  | .rscDPRS f => Sys2Proof.Machine.execRscDPRS f s
  | .tstDPI f => Sys2Proof.Machine.execTstDPI f s
  | .tstDPR f => Sys2Proof.Machine.execTstDPR f s
  | .tstDPRS f => Sys2Proof.Machine.execTstDPRS f s
  | .teqDPI f => Sys2Proof.Machine.execTeqDPI f s
  | .teqDPR f => Sys2Proof.Machine.execTeqDPR f s
  | .teqDPRS f => Sys2Proof.Machine.execTeqDPRS f s
  | .cmpDPI f => Sys2Proof.Machine.execCmpDPI f s
  | .cmpDPR f => Sys2Proof.Machine.execCmpDPR f s
  | .cmpDPRS f => Sys2Proof.Machine.execCmpDPRS f s
  | .cmnDPI f => Sys2Proof.Machine.execCmnDPI f s
  | .cmnDPR f => Sys2Proof.Machine.execCmnDPR f s
  | .cmnDPRS f => Sys2Proof.Machine.execCmnDPRS f s
  | .orrDPI f => Sys2Proof.Machine.execOrrDPI f s
  | .orrDPR f => Sys2Proof.Machine.execOrrDPR f s
  | .orrDPRS f => Sys2Proof.Machine.execOrrDPRS f s
  | .movDPI f => Sys2Proof.Machine.execMovDPI f s
  | .movDPR f => Sys2Proof.Machine.execMovDPR f s
  | .movDPRS f => Sys2Proof.Machine.execMovDPRS f s
  | .bicDPI f => Sys2Proof.Machine.execBicDPI f s
  | .bicDPR f => Sys2Proof.Machine.execBicDPR f s
  | .bicDPRS f => Sys2Proof.Machine.execBicDPRS f s
  | .mvnDPI f => Sys2Proof.Machine.execMvnDPI f s
  | .mvnDPR f => Sys2Proof.Machine.execMvnDPR f s
  | .mvnDPRS f => Sys2Proof.Machine.execMvnDPRS f s
  | .b f => Sys2Proof.Machine.execB f s
  | .bl f => Sys2Proof.Machine.execBl f s
  | .bx f => Sys2Proof.Machine.execBx f s
  | .ldrLSI f => Sys2Proof.Machine.execLdrLSI f s
  | .ldrLSR f => Sys2Proof.Machine.execLdrLSR f s
  | .strLSI f => Sys2Proof.Machine.execStrLSI f s
  | .strLSR f => Sys2Proof.Machine.execStrLSR f s
  | .ldrbLSI f => Sys2Proof.Machine.execLdrbLSI f s
  | .ldrbLSR f => Sys2Proof.Machine.execLdrbLSR f s
  | .strbLSI f => Sys2Proof.Machine.execStrbLSI f s
  | .strbLSR f => Sys2Proof.Machine.execStrbLSR f s
  | .ldm f => Sys2Proof.Machine.execLdm f s
  | .stm f => Sys2Proof.Machine.execStm f s
  | .ldrhXLI f => Sys2Proof.Machine.execLdrhXLI f s
  | .ldrhXLR f => Sys2Proof.Machine.execLdrhXLR f s
  | .strhXLI f => Sys2Proof.Machine.execStrhXLI f s
  | .strhXLR f => Sys2Proof.Machine.execStrhXLR f s
  | .ldrsbXLI f => Sys2Proof.Machine.execLdrsbXLI f s
  | .ldrsbXLR f => Sys2Proof.Machine.execLdrsbXLR f s
  | .ldrshXLI f => Sys2Proof.Machine.execLdrshXLI f s
  | .ldrshXLR f => Sys2Proof.Machine.execLdrshXLR f s
  | .mul f => Sys2Proof.Machine.execMul f s
  | .mla f => Sys2Proof.Machine.execMla f s
  | .umull f => Sys2Proof.Machine.execUmull f s
  | .umlal f => Sys2Proof.Machine.execUmlal f s
  | .smull f => Sys2Proof.Machine.execSmull f s
  | .smlal f => Sys2Proof.Machine.execSmlal f s
  | .swp f => Sys2Proof.Machine.execSwp f s
  | .swpb f => Sys2Proof.Machine.execSwpb f s
  | .mrs c => Sys2Proof.Machine.execMrs c s
  | .msrReg c => Sys2Proof.Machine.execMsrReg c s
  | .msrImm c => Sys2Proof.Machine.execMsrImm c s
  | .blxReg c => Sys2Proof.Machine.execBlxReg c s
  | .blxImm => Sys2Proof.Machine.execBlxImm s
  | .bkpt c => Sys2Proof.Machine.execBkpt c s
  | .qadd c => Sys2Proof.Machine.execQadd c s
  | .qsub c => Sys2Proof.Machine.execQsub c s
  | .qdadd c => Sys2Proof.Machine.execQdadd c s
  | .qdsub c => Sys2Proof.Machine.execQdsub c s
  | .cdp c => Sys2Proof.Machine.execCdp c s
  | .mcr c => Sys2Proof.Machine.execMcr c s
  | .mrc c => Sys2Proof.Machine.execMrc c s
  | .ldc c => Sys2Proof.Machine.execLdc c s
  | .stc c => Sys2Proof.Machine.execStc c s
  | .swi c => Sys2Proof.Machine.execSwi c s

end Sys2Proof.Machine
end

