-- ==== Sys2Proof/Machine/Fetch.lean ====
section
/-! DEFINITION. What the next step does, up to executing an instruction (spec 10_state.md R27 steps 1 to 7, 30_encoding.md R94,
R95, 60_exceptions.md R287): the stop input, the end of the program, the fetch, `cond = 1111`, the condition, the decoder. -/

namespace Sys2Proof.Machine

/-- The configuration constraints the spec takes as premises (R6, R52, R293), and how the model answers a state that breaks
them: the conditions of `ConfigurationError`, then the alignment of `low` (U15). -/
def State.outsidePremises (s : State) : Option (Fault ⊕ Refusal) :=
  if ¬(capacityOk s.progMem.capacity ∧ capacityOk s.dataMem.capacity ∧ s.pbound.ordered ∧ s.dbound.ordered) then
    some (.inl .configurationError)
  else if ¬(s.pbound.aligned ∧ s.dbound.aligned) then some (.inr .boundLowUnaligned)
  else none

/-- The pc has run past the program Bound, in unbounded integers (R27 step 3, R291). -/
def State.pastEnd (s : State) : Bool := decide (s.pbound.low + s.pc.toNat > s.pbound.high)

/-- What a step is about to do. -/
inductive Selected where
  | stay
  | outside (r : Fault ⊕ Refusal)
  | halt (cause : HaltCause)
  | raise (f : FaultInfo)
  | skip
  | run (i : Instr)
  deriving Repr

/-- The decoder's answer as the step takes it: an instruction to execute, or a raise (R96, R273). -/
def decoded (i : Word) : Selected :=
  match decode i with
  | .ok ins => .run ins
  | .error _ => .raise (.unknownFormat i)

/-- R27 steps 6 and 7 for a fetched word: `cond = 1111` goes to the decoder without a condition test (R94); a word whose
condition fails is skipped before it is decoded (R95). -/
def issue (i : Word) (f : Flags) : Selected :=
  match Cond.ofBits (i.extractLsb' 28 4) with
  | none => decoded i
  | some c => if conditionPassed c f then decoded i else .skip

/-- R27 steps 1 to 7, in the order of R287: Halted, stop request, pc past the Bound, fetch, then the word. -/
def select (s : State) : Selected :=
  match s.run with
  | .halted => .stay
  | .running =>
    match s.outsidePremises with
    | some r => .outside r
    | none =>
      if s.stopReq then .halt .stopped
      else if s.pastEnd then .halt .endOfProgram
      else
        match s.fetch s.pc with
        | .error f => .raise f
        | .ok i => issue i s.flags

/-- A word placed where the next step fetches, in a Core about to fetch: Running, nothing recorded, no stop request. The
pc and everything else stay; the pc must be one a fetch accepts (aligned, inside Bound and capacity). -/
def State.placeWord (s : State) (w : Word) : State :=
  { s with
    run := .running
    haltCause := none
    faultPc := none
    stopReq := false
    store := s.store.setProg (s.progMem.setWord (resolveWord s.pbound s.pc) w) }

end Sys2Proof.Machine
end

