-- ==== Sys2Proof/Machine/Step.lean ====
section
/-! DEFINITION. The step of a Core (spec 10_state.md R27). It is atomic and untimed (R316). -/

namespace Sys2Proof.Machine

/-- One step (R27). Faults are effects on the Core (R284) and so next states; a Halted Core does not change (R35). -/
def step (s : State) : Host.Outcome State Fault Refusal :=
  match select s with
  | .stay => .next s
  | .outside (.inl r) => .fault r
  | .outside (.inr r) => .refused r
  | .halt cause => .next (s.halt cause)
  | .raise f => .next (s.raise f s.pc)
  | .skip => .next s.advance
  | .run i => exec i s

/-- The state with a table row's word stored, big-endian, where `step` fetches its next instruction: at `PBOUND.low + pc`
of the program Memory (R62, R63). It stands for the environment's load (R312, log entry 8). -/
def State.withFetchWord (s : State) (nbits w : Nat) : State := s.placeWord (tableWord nbits w)

end Sys2Proof.Machine
end

