-- ==== Sys2Proof/Machine/Processor.lean ====
section
/-! DEFINITION. Several Cores (spec 60_exceptions.md R298, 20_memory.md R50, R66, R77): a Processor owns the Memories; each
Core has its own registers, flags and run state and refers to a program and a data Memory. Cores share nothing but the
Memories, through disjoint Bounds. Which Core moves next is the environment's choice, one `stepCore` at a time. -/

namespace Sys2Proof.Machine

/-- A Core of a Processor and the Memories it refers to, by their place in the Processor's list (R50). -/
structure CoreSlot where
  core : CoreState
  pmem : Nat
  dmem : Nat
  deriving DecidableEq, Repr

/-- A Processor: its Memories and its ordered list of Cores (R298). -/
structure Processor where
  mems  : List Memory
  cores : List CoreSlot
  deriving DecidableEq, Repr

/-- A window of a Memory: which Memory, and the Bound. -/
abbrev Window := Nat × Bound

/-- The windows a Core reaches: its program and its data window (R37). -/
def CoreSlot.windows (c : CoreSlot) : List Window := [(c.pmem, c.core.pbound), (c.dmem, c.core.dbound)]

/-- Two windows do not overlap: they lie in different Memories, or one ends below the other (R77). -/
abbrev Window.apart (a b : Window) : Prop := a.1 ≠ b.1 ∨ a.2.high < b.2.low ∨ b.2.high < a.2.low

/-- Two Cores' windows are pairwise non-overlapping (R6, R77). One Core's own two windows may overlap (U14). -/
abbrev CoreSlot.apart (c d : CoreSlot) : Prop := ∀ a ∈ c.windows, ∀ b ∈ d.windows, Window.apart a b

/-- The invariant configuration must enforce: the Bounds of different Cores are pairwise disjoint (R77). -/
abbrev Processor.disjoint (p : Processor) : Prop := p.cores.Pairwise CoreSlot.apart

/-- The storage a Core refers to, out of the Processor's Memories. -/
def Processor.storeOf (p : Processor) (c : CoreSlot) : Option Store :=
  match p.mems[c.pmem]?, p.mems[c.dmem]? with
  | some pm, some dm => some (if c.pmem = c.dmem then .coincident pm else .separate pm dm)
  | _, _ => none

/-- One Core's view of the Processor: a machine of its own (R77, decision D32). -/
def Processor.view (p : Processor) (k : Nat) : Option State :=
  match p.cores[k]? with
  | none => none
  | some c => (p.storeOf c).map (fun st => { toCoreState := c.core, store := st })

/-- Put a Core's state after its step back: its own registers and run state, and the one Memory it writes. -/
def Processor.putBack (p : Processor) (k : Nat) (c : CoreSlot) (s : State) : Processor :=
  { mems := p.mems.set c.dmem s.dataMem, cores := p.cores.set k { c with core := s.toCoreState } }

/-- A Processor holds `N_CORES >= 1` Cores (R5, R6, R298). -/
abbrev Processor.populated (p : Processor) : Prop := coreCountOk p.cores.length

/-- One step of Core `k` (R298). No Core at all is an invalid core count (R293). -/
def Processor.stepCore (p : Processor) (k : Nat) : Host.Outcome Processor Fault Refusal :=
  if ¬p.populated then .fault .configurationError
  else if ¬p.disjoint then .refused .boundsOverlap
  else
    match p.cores[k]?, p.view k with
    | some c, some s =>
      match step s with
      | .next s' => .next (p.putBack k c s')
      | .fault r => .fault r
      | .refused r => .refused r
    | _, _ => .refused .noSuchCore

/-- Reset of every Core: what `run` of a freshly configured Processor starts from (R298, R310). -/
def Processor.reset (p : Processor) : Processor :=
  { p with cores := p.cores.map (fun c => { c with core := c.core.reset }) }

/-- Every Core is Halted: the end of a Processor's run (R313). A Processor without Cores has no run (R298). -/
abbrev Processor.finished (p : Processor) : Prop := p.populated ∧ ∀ c ∈ p.cores, c.core.run = .halted

/-- A Core in its initial state with the given Bounds (R310). -/
def freshCore (pbound dbound : Bound) : CoreState :=
  { State.reset.toCoreState with pbound := pbound, dbound := dbound }

/-- Von Neumann topology: `n` Cores share one Memory, partitioned into `n` equal, non-overlapping windows (R50, R66).
DESIGN CHOICE, log entry 16: a Core's data Bound is its program Bound, which R50 allows ("may coincide") and U25 leaves a
parameter. DESIGN CHOICE, log entry 18: the windows when `n` does not divide the capacity. -/
def Processor.vonNeumann (m : Memory) (n : Nat) : Processor :=
  { mems := [m]
    cores := (List.range n).map fun k =>
      { core := freshCore (Config.slice m.capacity n k) (Config.slice m.capacity n k), pmem := 0, dmem := 0 } }

/-- Harvard topology: each Core gets a private program Memory and a private data Memory (R50, R66). -/
def Processor.harvard (mems : List (Memory × Memory)) : Processor :=
  { mems := mems.flatMap (fun m => [m.1, m.2])
    cores := mems.zipIdx.map fun m =>
      { core := freshCore (Config.wholeWindow m.1.1.capacity) (Config.wholeWindow m.1.2.capacity)
        pmem := 2 * m.2
        dmem := 2 * m.2 + 1 } }

/-- The Processor of a topology over `n` Cores of equal Memories (R6, R66). -/
def Processor.arrange (t : Topology) (m : Memory) (n : Nat) : Processor :=
  match t with
  | .vonNeumann => Processor.vonNeumann m n
  | .harvard => Processor.harvard (List.replicate n (m, m))

/-- The configuration of a topology over `n` Cores. An invalid core count or Memory size is a `ConfigurationError`: no
Processor results (R293). -/
def Processor.configure (t : Topology) (m : Memory) (n : Nat) : Except Fault Processor :=
  if coreCountOk n ∧ capacityOk m.capacity then .ok (Processor.arrange t m n) else .error .configurationError

end Sys2Proof.Machine
end

