-- ==== Sys2Proof/Safety.lean ====
section
/-! DEFINITION. The terms in which claims are stated: the configuration premises, the invariant of a Core, which bytes a
window reaches, how a run ended; and the spec's own description of each instruction shape (what it is made of and the
values its rules give), written from the rules in closed form and without the machine's operations. -/

namespace Sys2Proof.Machine

/-! ## Configuration, invariant, windows -/

/-- The configuration constraints the spec takes as premises (R6, R52, R293). -/
abbrev State.configOk (s : State) : Prop :=
  capacityOk s.progMem.capacity ∧ capacityOk s.dataMem.capacity ∧ s.pbound.ordered ∧ s.dbound.ordered ∧
    s.pbound.aligned ∧ s.dbound.aligned

/-- The halt record agrees with the run state (R36, R39): no cause while Running, one of the three causes when Halted, and
a `fault_pc` exactly after a fault. -/
def CoreState.haltRecordOk (c : CoreState) : Bool :=
  match c.run, c.haltCause with
  | .running, none => c.faultPc.isNone
  | .halted, some .endOfProgram => c.faultPc.isNone
  | .halted, some .stopped => c.faultPc.isNone
  | .halted, some (.faulted _) => c.faultPc.isSome
  | _, _ => false

/-- At a fault the pc is the fault pc (R284). -/
def State.faultPcOk (s : State) : Bool :=
  match s.faultPc with
  | some a => s.pc == a
  | none => true

/-- The invariant of the machine: the configuration premises, both Memories in their canonical form, and the halt record. -/
abbrev State.Inv (s : State) : Prop :=
  s.configOk ∧ s.progMem.wf ∧ s.dataMem.wf ∧ s.toCoreState.haltRecordOk ∧ s.faultPcOk

/-- The step gets past R27 steps 1 to 3: the Core is Running, inside the premises, not asked to stop, and its pc is inside
the program Bound. -/
abbrev State.canFetch (s : State) : Prop :=
  s.run = .running ∧ s.configOk ∧ s.stopReq = false ∧ s.pbound.low + s.pc.toNat ≤ s.pbound.high

/-- The fetch itself passes its checks: alignment, Bound, capacity (R54, R55, R62). -/
abbrev State.fetchable (s : State) : Prop :=
  s.canFetch ∧ s.pc.toNat % 4 = 0 ∧ s.pbound.low + s.pc.toNat < s.progMem.capacity

/-- The four bytes at the pc, in ascending order (R62, R63). -/
def State.bytesAtPc (s : State) : List Byte :=
  [s.progMem.byte (s.pbound.low + s.pc.toNat), s.progMem.byte (s.pbound.low + s.pc.toNat + 1),
   s.progMem.byte (s.pbound.low + s.pc.toNat + 2), s.progMem.byte (s.pbound.low + s.pc.toNat + 3)]

/-- A word access at `addr` passes the checks of the data window: alignment, Bound, capacity (R54, R55). -/
abbrev State.wordAccessible (s : State) (addr : Word) : Prop :=
  addr.toNat % 4 = 0 ∧ s.dbound.low + addr.toNat ≤ s.dbound.high ∧ s.dbound.low + addr.toNat < s.dataMem.capacity

/-- A byte access at `addr` passes the checks of the data window, which test its containing word (R55). -/
abbrev State.byteAccessible (s : State) (addr : Word) : Prop :=
  s.dbound.low + (addr.toNat - addr.toNat % 4) ≤ s.dbound.high ∧
    s.dbound.low + (addr.toNat - addr.toNat % 4) < s.dataMem.capacity

/-- The fault of a word access that does not pass: misaligned first, out of bounds otherwise (R54, R55, R68). -/
def wordFault (addr : Word) : FaultInfo :=
  if addr.toNat % 4 ≠ 0 then .memoryAccess .misaligned addr else .memoryAccess .outOfBounds addr

/-- The storage addresses a window reaches: every byte of a word whose address is inside it (R53, R55). -/
def windowReaches (b : Bound) (a : Nat) : Prop := b.low ≤ a ∧ a ≤ b.high + 3 - (b.high - b.low) % 4

/-- A run that is over ended without a fault (R313). -/
abbrev State.endedWithoutFault (s : State) : Prop :=
  s.run = .halted ∧ (s.haltCause = some .endOfProgram ∨ s.haltCause = some .stopped)

/-! ## What an instruction leaves as it was -/

/-- The stop input and the configuration are as before (R6, R50, R288). -/
abbrev sameEnvironment (s t : State) : Prop :=
  t.stopReq = s.stopReq ∧ t.pbound = s.pbound ∧ t.dbound = s.dbound ∧ t.initRegs = s.initRegs ∧ t.initFlags = s.initFlags

/-- The run state and the halt record are as before (R35, R36). -/
abbrev sameRun (s t : State) : Prop := t.run = s.run ∧ t.haltCause = s.haltCause ∧ t.faultPc = s.faultPc

/-- Nothing but data memory differs between the stores; a separate program Memory is untouched (R62, R75). -/
abbrev onlyDataMem (s t : State) : Prop := t.store = s.store.setData t.dataMem ∧ t.dataMem.capacity = s.dataMem.capacity

/-- The registers of an instruction that is not of the branch family: what it leaves in `x[r]`, and the step's `+4` on
`x[15]` (R28). -/
abbrev regsThenAdvance (t : State) (g : RegIx → Word) : Prop := ∀ r : RegIx, t.reg r = g r + (if r = 15#4 then 4 else 0)

/-- The Core has halted with the fault `f` at the pc `a` (R284). -/
abbrev haltedWith (t : State) (f : FaultInfo) (a : Word) : Prop :=
  t.run = .halted ∧ t.haltCause = some (.faulted f) ∧ t.faultPc = some a

/-! ## The shifter and operand 2, as the rules define them -/

/-- The four shifts of R131. -/
def specShift (t : ShiftType) (v : Word) (n : Nat) : Word :=
  match t with
  | .lsl => BitVec.ofNat 32 (v.toNat * 2 ^ n)
  | .lsr => BitVec.ofNat 32 (v.toNat / 2 ^ n)
  | .asr => BitVec.ofInt 32 (v.toInt / 2 ^ n)
  | .ror => v.rotateRight (n % 32)

/-- The three forms of operand 2 (R132 to R134). -/
inductive Operand2 where
  | imm (rot : BitVec 4) (imm8 : BitVec 8)
  | reg (rm : RegIx) (t : ShiftType) (shamt : BitVec 5)
  | regShift (rm : RegIx) (t : ShiftType) (rs : RegIx)
  deriving DecidableEq, Repr

/-- The value of operand 2 (R132 to R134). -/
def Operand2.value (o : Operand2) (s : State) : Word :=
  match o with
  | .imm rot imm8 => (imm8.zeroExtend 32).rotateRight (2 * rot.toNat)
  | .reg rm t shamt => specShift t (s.reg rm) shamt.toNat
  | .regShift rm t rs => specShift t (s.reg rm) ((s.reg rs).toNat % 256)

/-! ## Data processing -/

/-- A data-processing instruction, whichever its format (R130). -/
structure DataOp where
  op   : AluOp
  cond : Cond
  s    : Bool
  rn   : RegIx
  rd   : RegIx
  op2  : Operand2
  deriving DecidableEq, Repr

def dataOpDPI (a : AluOp) (f : DPI) : DataOp := ⟨a, f.cond, f.s, f.rn, f.rd, .imm f.rot f.imm8⟩
def dataOpDPR (a : AluOp) (f : DPR) : DataOp := ⟨a, f.cond, f.s, f.rn, f.rd, .reg f.rm f.stype f.shamt⟩
def dataOpDPRS (a : AluOp) (f : DPRS) : DataOp := ⟨a, f.cond, f.s, f.rn, f.rd, .regShift f.rm f.stype f.rs⟩

/-- The data-processing instructions: 16 operations in 3 formats. -/
def dataOp? : Instr → Option DataOp
  | .andDPI f => some (dataOpDPI .and f)
  | .andDPR f => some (dataOpDPR .and f)
  | .andDPRS f => some (dataOpDPRS .and f)
  | .eorDPI f => some (dataOpDPI .eor f)
  | .eorDPR f => some (dataOpDPR .eor f)
  | .eorDPRS f => some (dataOpDPRS .eor f)
  | .subDPI f => some (dataOpDPI .sub f)
  | .subDPR f => some (dataOpDPR .sub f)
  | .subDPRS f => some (dataOpDPRS .sub f)
  | .rsbDPI f => some (dataOpDPI .rsb f)
  | .rsbDPR f => some (dataOpDPR .rsb f)
  | .rsbDPRS f => some (dataOpDPRS .rsb f)
  | .addDPI f => some (dataOpDPI .add f)
  | .addDPR f => some (dataOpDPR .add f)
  | .addDPRS f => some (dataOpDPRS .add f)
  | .adcDPI f => some (dataOpDPI .adc f)
  | .adcDPR f => some (dataOpDPR .adc f)
  | .adcDPRS f => some (dataOpDPRS .adc f)
  | .sbcDPI f => some (dataOpDPI .sbc f)
  | .sbcDPR f => some (dataOpDPR .sbc f)
  | .sbcDPRS f => some (dataOpDPRS .sbc f)
  | .rscDPI f => some (dataOpDPI .rsc f)
  | .rscDPR f => some (dataOpDPR .rsc f)
  | .rscDPRS f => some (dataOpDPRS .rsc f)
  | .tstDPI f => some (dataOpDPI .tst f)
  | .tstDPR f => some (dataOpDPR .tst f)
  | .tstDPRS f => some (dataOpDPRS .tst f)
  | .teqDPI f => some (dataOpDPI .teq f)
  | .teqDPR f => some (dataOpDPR .teq f)
  | .teqDPRS f => some (dataOpDPRS .teq f)
  | .cmpDPI f => some (dataOpDPI .cmp f)
  | .cmpDPR f => some (dataOpDPR .cmp f)
  | .cmpDPRS f => some (dataOpDPRS .cmp f)
  | .cmnDPI f => some (dataOpDPI .cmn f)
  | .cmnDPR f => some (dataOpDPR .cmn f)
  | .cmnDPRS f => some (dataOpDPRS .cmn f)
  | .orrDPI f => some (dataOpDPI .orr f)
  | .orrDPR f => some (dataOpDPR .orr f)
  | .orrDPRS f => some (dataOpDPRS .orr f)
  | .movDPI f => some (dataOpDPI .mov f)
  | .movDPR f => some (dataOpDPR .mov f)
  | .movDPRS f => some (dataOpDPRS .mov f)
  | .bicDPI f => some (dataOpDPI .bic f)
  | .bicDPR f => some (dataOpDPR .bic f)
  | .bicDPRS f => some (dataOpDPRS .bic f)
  | .mvnDPI f => some (dataOpDPI .mvn f)
  | .mvnDPR f => some (dataOpDPR .mvn f)
  | .mvnDPRS f => some (dataOpDPRS .mvn f)
  | _ => none

/-- TST, TEQ, CMP and CMN "do not write the destination register" (R130). -/
def writesRd : AluOp → Bool
  | .tst | .teq | .cmp | .cmn => false
  | _ => true

/-- The result of each operation, as R140 to R155 give it; `c` is the C flag before. -/
def aluResult (op : AluOp) (a b : Word) (c : Bool) : Word :=
  match op with
  | .and | .tst => a &&& b
  | .eor | .teq => a ^^^ b
  | .sub | .cmp => a - b
  | .rsb => b - a
  | .add | .cmn => a + b
  | .adc => a + b + BitVec.ofNat 32 c.toNat
  | .sbc => a - b - BitVec.ofNat 32 (1 - c.toNat)
  | .rsc => b - a - BitVec.ofNat 32 (1 - c.toNat)
  | .orr => a ||| b
  | .mov => b
  | .bic => a &&& ~~~b
  | .mvn => ~~~b

/-- C after each operation with `S` (R31): the carry out of an addition; 1 for a subtraction without borrow; unchanged by a
logical operation. -/
def aluCarry (op : AluOp) (a b : Word) (c : Bool) : Bool :=
  match op with
  | .add | .cmn => decide (2 ^ 32 ≤ a.toNat + b.toNat)
  | .adc => decide (2 ^ 32 ≤ a.toNat + b.toNat + c.toNat)
  | .sub | .cmp => decide (b.toNat ≤ a.toNat)
  | .rsb => decide (a.toNat ≤ b.toNat)
  | .sbc => decide (b.toNat + (1 - c.toNat) ≤ a.toNat)
  | .rsc => decide (a.toNat + (1 - c.toNat) ≤ b.toNat)
  | _ => c

/-- An integer lies outside the two's-complement range of a word. -/
abbrev overflows (x : Int) : Bool := decide (x < -(2 ^ 31) ∨ 2 ^ 31 ≤ x)

/-- V after each operation with `S` (R31): signed overflow of the exact sum or difference; unchanged by a logical
operation. -/
def aluOverflow (op : AluOp) (a b : Word) (c v : Bool) : Bool :=
  match op with
  | .add | .cmn => overflows (a.toInt + b.toInt)
  | .adc => overflows (a.toInt + b.toInt + c.toNat)
  | .sub | .cmp => overflows (a.toInt - b.toInt)
  | .rsb => overflows (b.toInt - a.toInt)
  | .sbc => overflows (a.toInt - b.toInt - (1 - c.toNat : Int))
  | .rsc => overflows (b.toInt - a.toInt - (1 - c.toNat : Int))
  | _ => v

/-- The four flags after a data-processing instruction that updates them (R31, R138). -/
def aluFlags (op : AluOp) (a b : Word) (f : Flags) : Flags :=
  { n := (aluResult op a b f.c).msb
    z := decide (aluResult op a b f.c = 0)
    c := aluCarry op a b f.c
    v := aluOverflow op a b f.c f.v }

/-! ## Loads and stores -/

/-- The forms of an offset (R181, R211). -/
inductive Offset where
  | imm (v : Word)
  | reg (rm : RegIx) (t : ShiftType) (n : Nat)
  deriving DecidableEq, Repr

/-- The value of an offset; a register offset of the extended family is unshifted, an amount of 0 (R181, R211). -/
def Offset.value (o : Offset) (s : State) : Word :=
  match o with
  | .imm v => v
  | .reg rm t n => specShift t (s.reg rm) n

/-- How an instruction addresses memory: `P`, `U`, `W`, base and offset (R103, R182). -/
structure Address where
  p   : Bool
  u   : Bool
  w   : Bool
  rn  : RegIx
  off : Offset
  deriving DecidableEq, Repr

/-- The base displaced by the offset, modulo 2^32 (R182). -/
def Address.disp (a : Address) (s : State) : Word :=
  if a.u then s.reg a.rn + a.off.value s else s.reg a.rn - a.off.value s

/-- The address accessed: displaced when pre-indexed, the base when post-indexed (R182). -/
def Address.addr (a : Address) (s : State) : Word := if a.p then a.disp s else s.reg a.rn

/-- Whether the base is written back: always when post-indexed, on `W` when pre-indexed (R182). -/
def Address.wb (a : Address) : Bool := !a.p || a.w

def addressLSI (f : LSI) : Address := ⟨f.p, f.u, f.w, f.rn, .imm (f.imm12.zeroExtend 32)⟩
def addressLSR (f : LSR) : Address := ⟨f.p, f.u, f.w, f.rn, .reg f.rm f.stype f.shamt.toNat⟩
def addressXLI (f : XLI) : Address := ⟨f.p, f.u, f.w, f.rn, .imm ((f.immH ++ f.immL).zeroExtend 32)⟩
def addressXLR (f : XLR) : Address := ⟨f.p, f.u, f.w, f.rn, .reg f.rm .lsl 0⟩

/-- What a load reads and how it extends it (R184, R186, R212, R214, R215). -/
inductive LoadKind where
  | word | byte | half | signedByte | signedHalf
  deriving DecidableEq, Repr

/-- What a store writes (R185, R187, R213). -/
inductive StoreKind where
  | word | byte | half
  deriving DecidableEq, Repr

/-- A load of the single or extended family. -/
structure LoadOp where
  kind : LoadKind
  cond : Cond
  rd   : RegIx
  mem  : Address
  deriving DecidableEq, Repr

/-- A store of the single or extended family. -/
structure StoreOp where
  kind : StoreKind
  cond : Cond
  rd   : RegIx
  mem  : Address
  deriving DecidableEq, Repr

/-- LDR, LDRB, LDRH, LDRSB and LDRSH, each in its two formats. -/
def loadOp? : Instr → Option LoadOp
  | .ldrLSI f => some ⟨.word, f.cond, f.rd, addressLSI f⟩
  | .ldrLSR f => some ⟨.word, f.cond, f.rd, addressLSR f⟩
  | .ldrbLSI f => some ⟨.byte, f.cond, f.rd, addressLSI f⟩
  | .ldrbLSR f => some ⟨.byte, f.cond, f.rd, addressLSR f⟩
  | .ldrhXLI f => some ⟨.half, f.cond, f.rd, addressXLI f⟩
  | .ldrhXLR f => some ⟨.half, f.cond, f.rd, addressXLR f⟩
  | .ldrsbXLI f => some ⟨.signedByte, f.cond, f.rd, addressXLI f⟩
  | .ldrsbXLR f => some ⟨.signedByte, f.cond, f.rd, addressXLR f⟩
  | .ldrshXLI f => some ⟨.signedHalf, f.cond, f.rd, addressXLI f⟩
  | .ldrshXLR f => some ⟨.signedHalf, f.cond, f.rd, addressXLR f⟩
  | _ => none

/-- STR, STRB and STRH, each in its two formats. -/
def storeOp? : Instr → Option StoreOp
  | .strLSI f => some ⟨.word, f.cond, f.rd, addressLSI f⟩
  | .strLSR f => some ⟨.word, f.cond, f.rd, addressLSR f⟩
  | .strbLSI f => some ⟨.byte, f.cond, f.rd, addressLSI f⟩
  | .strbLSR f => some ⟨.byte, f.cond, f.rd, addressLSR f⟩
  | .strhXLI f => some ⟨.half, f.cond, f.rd, addressXLI f⟩
  | .strhXLR f => some ⟨.half, f.cond, f.rd, addressXLR f⟩
  | _ => none

/-- The data byte at a window-relative address (R58). -/
def State.dataByte (s : State) (addr : Word) : Byte := s.dataMem.byte (s.dbound.low + addr.toNat)

/-- The data word at a window-relative address: its byte at the lowest storage address is the most significant (R63). -/
def State.dataWord (s : State) (addr : Word) : Word :=
  s.dataMem.byte (s.dbound.low + addr.toNat) ++ s.dataMem.byte (s.dbound.low + addr.toNat + 1) ++
    s.dataMem.byte (s.dbound.low + addr.toNat + 2) ++ s.dataMem.byte (s.dbound.low + addr.toNat + 3)

/-- The accesses of a load pass the checks; a halfword is two byte accesses (R60). -/
def LoadKind.accessible (k : LoadKind) (s : State) (addr : Word) : Prop :=
  match k with
  | .word => s.wordAccessible addr
  | .byte | .signedByte => s.byteAccessible addr
  | .half | .signedHalf => s.byteAccessible addr ∧ s.byteAccessible (addr + 1)

/-- The value a load leaves in `Rd`; halfwords are little-endian (R60, R63). -/
def LoadKind.value (k : LoadKind) (s : State) (addr : Word) : Word :=
  match k with
  | .word => s.dataWord addr
  | .byte => (s.dataByte addr).zeroExtend 32
  | .half => (s.dataByte (addr + 1) ++ s.dataByte addr).zeroExtend 32
  | .signedByte => (s.dataByte addr).signExtend 32
  | .signedHalf => (s.dataByte (addr + 1) ++ s.dataByte addr).signExtend 32

/-- The fault of a load whose accesses do not all pass: the first that fails is reported (R60, R68, R287). -/
def LoadKind.fault (k : LoadKind) (s : State) (addr : Word) : FaultInfo :=
  match k with
  | .word => wordFault addr
  | .byte | .signedByte => .memoryAccess .outOfBounds addr
  | .half | .signedHalf =>
    if s.byteAccessible addr then .memoryAccess .outOfBounds (addr + 1) else .memoryAccess .outOfBounds addr

/-- The accesses of a store pass the checks (R61). -/
def StoreKind.accessible (k : StoreKind) (s : State) (addr : Word) : Prop :=
  match k with
  | .word => s.wordAccessible addr
  | .byte => s.byteAccessible addr
  | .half => s.byteAccessible addr ∧ s.byteAccessible (addr + 1)

/-- What a store leaves at a storage address, of the bytes it stores: words big-endian, halfwords little-endian (R63);
`none` for every byte it does not store. -/
def StoreKind.stored (k : StoreKind) (s : State) (addr v : Word) (a : Nat) : Option Byte :=
  match k with
  | .word =>
    if a = s.dbound.low + addr.toNat then some (v.extractLsb' 24 8)
    else if a = s.dbound.low + addr.toNat + 1 then some (v.extractLsb' 16 8)
    else if a = s.dbound.low + addr.toNat + 2 then some (v.extractLsb' 8 8)
    else if a = s.dbound.low + addr.toNat + 3 then some (v.extractLsb' 0 8)
    else none
  | .byte => if a = s.dbound.low + addr.toNat then some (v.extractLsb' 0 8) else none
  | .half =>
    if a = s.dbound.low + addr.toNat then some (v.extractLsb' 0 8)
    else if a = s.dbound.low + (addr + 1).toNat then some (v.extractLsb' 8 8)
    else none

/-- Data memory after some bytes were stored: each stored byte holds its new value, every other byte is as before. -/
abbrev memoryAfter (s t : State) (stored : Nat → Option Byte) : Prop :=
  ∀ a, t.dataMem.byte a = (stored a).getD (s.dataMem.byte a)

/-! ## Load and store multiple -/

/-- How many registers below `x[n]` the list selects (R201: the `j` of the j-th selected register). -/
def lsmRank (f : LSM) (n : Nat) : Nat := ((List.range n).filter fun j => f.reglist.getLsbD j).length

/-- The address of the j-th selected register: `base + 4j` or `base + 4(j+1)` upward, `base - 4j` or `base - 4(j+1)`
downward, modulo 2^32 (R201). -/
def lsmAddr (f : LSM) (s : State) (k : RegIx) : Word :=
  let d := BitVec.ofNat 32 (4 * (lsmRank f k.toNat + (if f.p then 1 else 0)))
  if f.u then s.reg f.rn + d else s.reg f.rn - d

/-- The final address: the base moved by 4 for each selected register (R201). -/
def lsmFinal (f : LSM) (s : State) : Word :=
  let d := BitVec.ofNat 32 (4 * lsmRank f 16)
  if f.u then s.reg f.rn + d else s.reg f.rn - d

/-- The list selects `x[k]`. -/
abbrev lsmSelects (f : LSM) (k : RegIx) : Prop := f.reglist.getLsbD k.toNat = true

/-! ## Refused instructions -/

/-- The recognised-and-refused instructions and the name each raises (R261 to R272). -/
def unimplName? : Instr → Option UnimplName
  | .mrs _ => some .mrs
  | .msrReg _ => some .msr
  | .msrImm _ => some .msr
  | .blxReg _ => some .blx
  | .blxImm => some .blx
  | .bkpt _ => some .bkpt
  | .qadd _ => some .dspAddSub
  | .qsub _ => some .dspAddSub
  | .qdadd _ => some .dspAddSub
  | .qdsub _ => some .dspAddSub
  | .cdp _ => some .cdp
  | .mcr _ => some .mcr
  | .mrc _ => some .mrc
  | .ldc _ => some .ldc
  | .stc _ => some .stc
  | .swi _ => some .swi
  | _ => none

/-! ## The bits a word's meaning depends on -/

/-- The bits of a word that decodes to the instruction which the dispatch tree tests or a rule uses; the others are the
don't-care bits R97 and R111 list. `W` counts only when pre-indexed (R103, R106, R182). -/
def caredBits : Instr → Word
  | .movDPI _ | .movDPR _ | .movDPRS _ | .mvnDPI _ | .mvnDPR _ | .mvnDPRS _ => 0xFFF0FFFF#32
  | .tstDPI _ | .tstDPR _ | .tstDPRS _ | .teqDPI _ | .teqDPR _ | .teqDPRS _ => 0xFFFF0FFF#32
  | .cmpDPI _ | .cmpDPR _ | .cmpDPRS _ | .cmnDPI _ | .cmnDPR _ | .cmnDPRS _ => 0xFFFF0FFF#32
  | .bx _ => 0xFFF000FF#32
  | .ldrLSI f | .strLSI f | .ldrbLSI f | .strbLSI f => if f.p then 0xFFFFFFFF#32 else 0xFFDFFFFF#32
  | .ldrLSR f | .strLSR f | .ldrbLSR f | .strbLSR f => if f.p then 0xFFFFFFFF#32 else 0xFFDFFFFF#32
  | .ldm _ | .stm _ => 0xFFBFFFFF#32
  | .ldrhXLI f | .strhXLI f | .ldrsbXLI f | .ldrshXLI f => if f.p then 0xFFFFFFFF#32 else 0xFFDFFFFF#32
  | .ldrhXLR f | .strhXLR f | .ldrsbXLR f | .ldrshXLR f => if f.p then 0xFFFFF0FF#32 else 0xFFDFF0FF#32
  | .mul _ => 0xFFFF0FFF#32
  | .swp _ | .swpb _ => 0xFFFFF0FF#32
  | .mrs _ | .msrReg _ => 0xFFB000F0#32
  | .msrImm _ => 0xFFB00000#32
  | .blxReg _ | .bkpt _ => 0xFFF000F0#32
  | .blxImm => 0xFE000000#32
  | .qadd _ | .qsub _ | .qdadd _ | .qdsub _ => 0xFFF000F0#32
  | .cdp _ => 0xFF000010#32
  | .mcr _ | .mrc _ => 0xFF100010#32
  | .ldc _ | .stc _ => 0xFE100000#32
  | .swi _ => 0xFF000000#32
  | _ => 0xFFFFFFFF#32

/-! ## Several Cores, and what a Core can see -/

/-- A Processor inside the premises: at least one Core, disjoint Bounds, Memories in canonical form, and every Core with
Memories to refer to and a sound configuration (R5, R6, R77). -/
def Processor.sound (p : Processor) : Prop :=
  p.populated ∧ p.disjoint ∧ (∀ m ∈ p.mems, m.wf) ∧ ∀ k, k < p.cores.length → ∃ s, p.view k = some s ∧ s.configOk

/-- Two stores of one shape and capacity: both one Memory, or both two (R50). -/
def Store.sameShape (a b : Store) : Prop :=
  match a, b with
  | .coincident m, .coincident m' => m.capacity = m'.capacity
  | .separate p d, .separate p' d' => p.capacity = p'.capacity ∧ d.capacity = d'.capacity
  | _, _ => False

/-- Two machines with the same Core whose Memories, each in canonical form, agree inside the Core's two windows. -/
structure AgreeInWindows (s s' : State) : Prop where
  core  : s'.toCoreState = s.toCoreState
  shape : s.store.sameShape s'.store
  wf    : s.progMem.wf ∧ s.dataMem.wf ∧ s'.progMem.wf ∧ s'.dataMem.wf
  prog  : ∀ a, windowReaches s.pbound a → s'.progMem.byte a = s.progMem.byte a
  data  : ∀ a, windowReaches s.dbound a → s'.dataMem.byte a = s.dataMem.byte a

/-! ## Which instructions may write the flags -/

/-- An instruction whose S bit asks for a flag update, or one of TST, TEQ, CMP and CMN (R31). -/
def updatesFlags (i : Instr) : Bool :=
  match dataOp? i with
  | some d => d.s || !writesRd d.op
  | none =>
    match i with
    | .mul f | .mla f => f.s
    | .umull f | .umlal f | .smull f | .smlal f => f.s
    | _ => false

/-- The condition of an instruction passes; BLX immediate has none (R93, R94). -/
def passes (i : Instr) (f : Flags) : Bool :=
  match i.cond? with
  | some c => conditionPassed c f
  | none => true

end Sys2Proof.Machine
end

