-- ==== Sys2Proof/WellFormed.lean ====
section
/-! DEFINITION. Which terms of `Instr` stand for words. One check: TST, TEQ, CMP and CMN exist only with `S = 1`; with `S = 0`
the word lies in the control space (spec 30_encoding.md R116, 40_data_processing.md R148 to R151). Every other field takes
every value its width admits: no register is excluded anywhere (R21) and `cond = 1111` is not in the type (R94). -/

namespace Sys2Proof

/-- The instruction's S bit is one its row admits (R116). -/
def Instr.wf : Instr → Bool
  | .andDPI _ => true
  | .andDPR _ => true
  | .andDPRS _ => true
  | .eorDPI _ => true
  | .eorDPR _ => true
  | .eorDPRS _ => true
  | .subDPI _ => true
  | .subDPR _ => true
  | .subDPRS _ => true
  | .rsbDPI _ => true
  | .rsbDPR _ => true
  | .rsbDPRS _ => true
  | .addDPI _ => true
  | .addDPR _ => true
  | .addDPRS _ => true
  | .adcDPI _ => true
  | .adcDPR _ => true
  | .adcDPRS _ => true
  | .sbcDPI _ => true
  | .sbcDPR _ => true
  | .sbcDPRS _ => true
  | .rscDPI _ => true
  | .rscDPR _ => true
  | .rscDPRS _ => true
  | .tstDPI f => f.s
  | .tstDPR f => f.s
  | .tstDPRS f => f.s
  | .teqDPI f => f.s
  | .teqDPR f => f.s
  | .teqDPRS f => f.s
  | .cmpDPI f => f.s
  | .cmpDPR f => f.s
  | .cmpDPRS f => f.s
  | .cmnDPI f => f.s
  | .cmnDPR f => f.s
  | .cmnDPRS f => f.s
  | .orrDPI _ => true
  | .orrDPR _ => true
  | .orrDPRS _ => true
  | .movDPI _ => true
  | .movDPR _ => true
  | .movDPRS _ => true
  | .bicDPI _ => true
  | .bicDPR _ => true
  | .bicDPRS _ => true
  | .mvnDPI _ => true
  | .mvnDPR _ => true
  | .mvnDPRS _ => true
  | .b _ => true
  | .bl _ => true
  | .bx _ => true
  | .ldrLSI _ => true
  | .ldrLSR _ => true
  | .strLSI _ => true
  | .strLSR _ => true
  | .ldrbLSI _ => true
  | .ldrbLSR _ => true
  | .strbLSI _ => true
  | .strbLSR _ => true
  | .ldm _ => true
  | .stm _ => true
  | .ldrhXLI _ => true
  | .ldrhXLR _ => true
  | .strhXLI _ => true
  | .strhXLR _ => true
  | .ldrsbXLI _ => true
  | .ldrsbXLR _ => true
  | .ldrshXLI _ => true
  | .ldrshXLR _ => true
  | .mul _ => true
  | .mla _ => true
  | .umull _ => true
  | .umlal _ => true
  | .smull _ => true
  | .smlal _ => true
  | .swp _ => true
  | .swpb _ => true
  | .mrs _ => true
  | .msrReg _ => true
  | .msrImm _ => true
  | .blxReg _ => true
  | .blxImm => true
  | .bkpt _ => true
  | .qadd _ => true
  | .qsub _ => true
  | .qdadd _ => true
  | .qdsub _ => true
  | .cdp _ => true
  | .mcr _ => true
  | .mrc _ => true
  | .ldc _ => true
  | .stc _ => true
  | .swi _ => true

end Sys2Proof
end

