-- ==== Sys2Proof/Certificates/Slice0/Obligations.lean ====
section
/-! DEFINITION. The statements about the machine, from the numbered rules of the spec. A statement about an instruction's
result concludes that `exec` answers a next state and says what it holds, the frame included. -/

open Sys2Proof Sys2Proof.Machine

/-! ## Encoding and decoding -/

/-- Words written out bit by bit from R98 to R111, with the conditions of R93 and the opcodes of R116, decode to the
instructions they stand for: at least one word of each format, and of each group of refused instructions. -/
def Obligations.SampleWordsDecode : Prop :=
  decode 0b1110_001_1101_0_0000_0000_0000_00000101#32 = .ok (.movDPI ⟨.al, false, 0, 0, 0, 5⟩) ∧
  decode 0b1110_000_0100_1_0000_0010_00100_10_0_0011#32 = .ok (.addDPR ⟨.al, true, 0, 2, 4, .asr, 3⟩) ∧
  decode 0b0001_000_0110_0_0001_0010_0011_0_11_1_0100#32 = .ok (.sbcDPRS ⟨.ne, false, 1, 2, 3, .ror, 4⟩) ∧
  decode 0b1110_101_1_000000000000000000000011#32 = .ok (.bl ⟨.al, 3⟩) ∧
  decode 0b1110_0001_0010_1111_1111_1111_0001_0000#32 = .ok (.bx ⟨.al, 0⟩) ∧
  decode 0b1110_010_0_1_0_0_1_0001_0100_000000000100#32 = .ok (.ldrLSI ⟨.al, false, true, false, 1, 4, 4⟩) ∧
  decode 0b1110_011_1_0_1_0_0_0001_0000_00010_00_0_0010#32 = .ok (.strbLSR ⟨.al, true, false, false, 1, 0, 2, .lsl, 2⟩) ∧
  decode 0b1110_100_1_0_0_1_0_1101_0000000000000011#32 = .ok (.stm ⟨.al, true, false, true, 13, 3⟩) ∧
  decode 0b1110_000_1_1_1_0_1_0001_0011_0001_1_01_1_0010#32 = .ok (.ldrhXLI ⟨.al, true, true, false, 1, 3, 1, 2⟩) ∧
  decode 0b1110_000_1_1_0_0_1_0001_0000_0000_1_01_1_0010#32 = .ok (.ldrhXLR ⟨.al, true, true, false, 1, 0, 2⟩) ∧
  decode 0b1110_000000_1_1_0011_0010_0001_1001_0000#32 = .ok (.mla ⟨.al, true, 3, 2, 1, 0⟩) ∧
  decode 0b1110_00001_1_0_0_0001_0000_0011_1001_0010#32 = .ok (.smull ⟨.al, false, 1, 0, 3, 2⟩) ∧
  decode 0b1110_00010_1_00_0001_0000_0000_1001_0010#32 = .ok (.swpb ⟨.al, 1, 0, 2⟩) ∧
  decode 0b1110_00010_0_00_1111_0000_0000_0000_0000#32 = .ok (.mrs .al) ∧
  decode 0b1110_00110_0_10_1000_1111_0010_00001111#32 = .ok (.msrImm .al) ∧
  decode 0b1110_0001_0010_0000_0000_0000_0111_0000#32 = .ok (.bkpt .al) ∧
  decode 0b1110_00010_00_0_0001_0000_0000_0101_0010#32 = .ok (.qadd .al) ∧
  decode 0b1110_1110_0000_0000_0000_0000_000_0_0000#32 = .ok (.cdp .al) ∧
  decode 0b1110_1110_000_1_0000_0000_0000_000_1_0000#32 = .ok (.mrc .al) ∧
  decode 0b1110_110_1100_1_0000_0000_0000_00000000#32 = .ok (.ldc .al) ∧
  decode 0b1110_1111_000000000000000000000000#32 = .ok (.swi .al) ∧
  decode 0b1111_101_0_000000000000000000000000#32 = .ok .blxImm

/-- Decoding an encoded well-formed instruction gives it back, with every field at every value: no bit of an encoding is
dropped. -/
def Obligations.DecodeEncodeAgree : Prop :=
  ∀ i : Instr, i.wf = true → decode (encode i) = .ok i

/-- What the decoder answers is well formed: TST, TEQ, CMP and CMN come with `S = 1` only (R116). -/
def Obligations.DecodedIsWellFormed : Prop :=
  ∀ (w : Word) (i : Instr), decode w = .ok i → i.wf = true

/-- R122: the opcode table restates the decoder. No mask includes `i[31:28]`; no word selects two rows; with `cond != 1111`
a word that selects a row decodes to that row's instruction and a word that selects none is `UnknownFormat`; with
`cond = 1111` it is BLX immediate or `UnknownFormat`. -/
def Obligations.OpcodeTableDecides : Prop :=
  (∀ r ∈ opcodeRows, r.mask &&& 0xF0000000#32 = 0#32) ∧
  (∀ r ∈ opcodeRows, ∀ r' ∈ opcodeRows, ∀ w : Word, w &&& r.mask = r.pattern → w &&& r'.mask = r'.pattern → r = r') ∧
  (∀ (w : Word) (c : Cond), Cond.ofBits (w.extractLsb' 28 4) = some c →
    (∀ r ∈ opcodeRows, w &&& r.mask = r.pattern → decode w = .ok (build r.leaf c w)) ∧
    ((∀ r ∈ opcodeRows, w &&& r.mask ≠ r.pattern) → decode w = .error (.unknownFormat w))) ∧
  (∀ w : Word, w.extractLsb' 28 4 = 0b1111#4 →
    decode w = if w &&& 0xFE000000#32 = 0xFA000000#32 then .ok .blxImm else .error (.unknownFormat w))

/-- R116: the opcode field of a data-processing word is its operation's number, and opcodes 8 to 11 come with `S = 1` only. -/
def Obligations.OpcodeNumbers : Prop :=
  ∀ (w : Word) (i : Instr) (d : DataOp), decode w = .ok i → dataOp? i = some d →
    [AluOp.and, .eor, .sub, .rsb, .add, .adc, .sbc, .rsc, .tst, .teq, .cmp, .cmn, .orr, .mov, .bic, .mvn][(w.extractLsb' 21 4).toNat]? =
      some d.op ∧
    d.s = w.getLsbD 20 ∧ (8 ≤ (w.extractLsb' 21 4).toNat → (w.extractLsb' 21 4).toNat ≤ 11 → w.getLsbD 20 = true)

/-- R97: the don't-care bits are not tested and change nothing: two words that agree on the other bits of an instruction
decode to instructions that do the same in every state. -/
def Obligations.DontCareBits : Prop :=
  ∀ (w w' : Word) (i : Instr), decode w = .ok i → w &&& caredBits i = w' &&& caredBits i →
    ∃ i', decode w' = .ok i' ∧ ∀ s : State, exec i' s = exec i s

/-! ## The step -/

/-- R93: the condition table, by the code in `i[31:28]`; `1111` is no condition. -/
def Obligations.ConditionTable : Prop :=
  ∀ f : Flags, ∀ b : BitVec 4,
    (Cond.ofBits b).map (fun c => conditionPassed c f) =
      [some f.z, some !f.z, some f.c, some !f.c, some f.n, some !f.n, some f.v, some !f.v, some (f.c && !f.z),
       some (!f.c || f.z), some (f.n == f.v), some (f.n != f.v), some (!f.z && (f.n == f.v)), some (f.z || (f.n != f.v)),
       some true, none].getD b.toNat none

/-- R27, R54 to R56, R63: when the four bytes at a fetchable pc decode to `i`, the step is `i` executed in that state, and
nothing around it (the advance of the pc, or the branch, is part of `exec`). -/
def Obligations.StepRunsDecodedInstruction : Prop :=
  ∀ (s : State) (i : Instr), s.fetchable → decodeBytes s.bytesAtPc = .ok (i, []) → step s = exec i s

/-- The word of a well-formed instruction, placed where the next step fetches, is the instruction the next step runs. -/
def Obligations.PlacedInstructionRuns : Prop :=
  ∀ (s : State) (i : Instr), s.fetchable → s.progMem.wf → i.wf = true →
    step (s.withFetchWord 32 (encode i).toNat) = exec i (s.withFetchWord 32 (encode i).toNat)

/-- R95: a fetched word whose condition fails is skipped whatever its other bits are: it raises nothing, the pc gets 4, and no
other register, flag or memory changes; so is every instruction. -/
def Obligations.FailedConditionSkips : Prop :=
  (∀ (s : State) (w : Word) (c : Cond), s.canFetch → s.fetch s.pc = .ok w → Cond.ofBits (w.extractLsb' 28 4) = some c →
    conditionPassed c s.flags = false →
    ∃ t, step s = .next t ∧ regsThenAdvance t s.reg ∧ t.flags = s.flags ∧ t.store = s.store ∧ sameRun s t ∧
      sameEnvironment s t) ∧
  (∀ (s : State) (i : Instr), passes i s.flags = false →
    ∃ t, exec i s = .next t ∧ regsThenAdvance t s.reg ∧ t.flags = s.flags ∧ t.store = s.store ∧ sameRun s t ∧
      sameEnvironment s t)

/-- R94: with `cond = 1111`, before any condition test: group 101 raises `UnimplementedInstruction(BLX)`, every other word
`UnknownFormat`; nothing but the halt record changes. -/
def Obligations.Condition1111Raises : Prop :=
  ∀ (s : State) (w : Word), s.canFetch → s.fetch s.pc = .ok w → w.extractLsb' 28 4 = 0b1111#4 →
    step s = .next { s with
      run := .halted
      haltCause := some (.faulted (if w.extractLsb' 25 3 = 0b101#3 then .unimplemented .blx else .unknownFormat w))
      faultPc := some s.pc }

/-- R273, R117: a fetched word whose condition passes and which the decoder does not know raises `UnknownFormat` with the
word; nothing but the halt record changes and the pc is not advanced. -/
def Obligations.UnknownWordRaises : Prop :=
  ∀ (s : State) (w : Word) (c : Cond), s.canFetch → s.fetch s.pc = .ok w → Cond.ofBits (w.extractLsb' 28 4) = some c →
    conditionPassed c s.flags = true → (∀ r ∈ opcodeRows, w &&& r.mask ≠ r.pattern) →
    step s = .next { s with
      run := .halted
      haltCause := some (.faulted (.unknownFormat w))
      faultPc := some s.pc }

/-- R35: a Core starts Running with pc = 0; a Halted Core changes no register, no flag and no memory, whatever its inputs, for
any number of steps; reset makes it Running again. -/
def Obligations.HaltedCoreStays : Prop :=
  (State.reset.run = .running ∧ State.reset.pc = 0) ∧
  (∀ (s : State) (n : Nat), s.run = .halted → Host.Core.run Sys2Proof.core n s = .next s) ∧
  (∀ s : State, s.applyReset.run = .running)

/-- R288, R287: a Running Core that is asked to stop halts with `Stopped` before anything else, all else as it was. -/
def Obligations.StopRequestHalts : Prop :=
  ∀ s : State, s.run = .running → s.configOk → s.stopReq = true →
    step s = .next { s with run := .halted, haltCause := some .stopped }

/-- R291: a pc past the program Bound, in unbounded integers, halts the Core with `EndOfProgram`, all else as it was; a pc
inside the Bound but past the capacity does not: its fetch faults `OutOfBounds` (when aligned). -/
def Obligations.EndOfProgramHalts : Prop :=
  (∀ s : State, s.run = .running → s.configOk → s.stopReq = false → s.pbound.low + s.pc.toNat > s.pbound.high →
    step s = .next { s with run := .halted, haltCause := some .endOfProgram }) ∧
  (∀ s : State, s.canFetch → s.pc.toNat % 4 = 0 → s.progMem.capacity ≤ s.pbound.low + s.pc.toNat →
    step s = .next { s with
      run := .halted
      haltCause := some (.faulted (.memoryAccess .outOfBounds s.pc))
      faultPc := some s.pc })

/-- R25, R62, R286: inside the Bound, a misaligned pc raises `Misaligned` and a pc at or past the capacity `OutOfBounds`, at
the fetch, with nothing but the halt record changed. -/
def Obligations.FetchFaults : Prop :=
  ∀ s : State, s.canFetch → (s.pc.toNat % 4 ≠ 0 ∨ s.progMem.capacity ≤ s.pbound.low + s.pc.toNat) →
    step s = .next { s with
      run := .halted
      haltCause := some (.faulted (wordFault s.pc))
      faultPc := some s.pc }

/-- Inside the configuration premises every step answers a next state: nothing is refused and the model never stops. That a
raise is a next state is the model's reading of R284 (log entry 6). Outside the premises, which R6, R293 and U15 tell a
model to take as premises, the step of a Running Core stops by name: the model's choice (log entry 5). -/
def Obligations.StepAnswersInsidePremises : Prop :=
  (∀ s : State, s.configOk → ∃ t, step s = .next t) ∧
  (∀ s : State, s.run = .running → ¬s.configOk →
    step s = .fault .configurationError ∨ step s = .refused .boundLowUnaligned)

/-- R284: whatever raises, and whenever in a step, the Core is Halted with the fault recorded, `fault_pc` is the pc of the
instruction, and `x[15]` still holds it. -/
def Obligations.RaiseRecordsThePc : Prop :=
  ∀ (s t : State) (f : FaultInfo), s.run = .running → s.haltCause = none → step s = .next t →
    t.haltCause = some (.faulted f) → t.run = .halted ∧ t.faultPc = some s.pc ∧ t.pc = s.pc

/-! ## Reset -/

/-- R39, R310: what reset leaves, of what the spec gives a value: pc = 0, Running, no halt record. The clause that memory
lists nothing is the model's choice (log entry 2). -/
def Obligations.ResetLeavesTheGivenValues : Prop :=
  State.reset.pc = 0 ∧ State.reset.run = .running ∧ State.reset.haltCause = none ∧ State.reset.faultPc = none ∧
    State.reset.dataMem.cells = [] ∧ State.reset.applyReset = State.reset

/-- R310, R311: the reset input, from any state and for all values of `INIT_REG` and `INIT_FLAGS`: pc = 0, Running, the halt
record lost, r0 to r14 and the flags at their initial values, no Memory and no configuration changed. -/
def Obligations.ResetInput : Prop :=
  ∀ s : State,
    s.applyReset.pc = 0 ∧ (∀ (k : Nat) (h : k < 15), s.applyReset.reg (BitVec.ofNat 4 k) = s.initRegs[k]) ∧
    s.applyReset.flags = s.initFlags ∧ s.applyReset.run = .running ∧ s.applyReset.haltCause = none ∧
    s.applyReset.faultPc = none ∧ s.applyReset.store = s.store ∧ sameEnvironment s s.applyReset

/-! ## Invariants of every step -/

/-- The invariant holds right after reset. -/
def Obligations.InvariantAtReset : Prop := State.reset.Inv

/-- Every step keeps the invariant: the configuration premises, the canonical form of both Memories, the agreement of the halt
record with the run state, and pc = fault_pc after a fault; so does the reset input. -/
def Obligations.StepKeepsTheInvariant : Prop :=
  (∀ s t : State, s.Inv → step s = .next t → t.Inv) ∧ (∀ s : State, s.Inv → s.applyReset.Inv)

/-- R50, R67: no step changes a Bound or a capacity: the configuration is static. That no step changes the stop input, which
is a field of State, is the model's choice (log entry 9), and so are INIT_REG and INIT_FLAGS as fields (log entry 4). -/
def Obligations.StepKeepsTheConfiguration : Prop :=
  ∀ s t : State, step s = .next t →
    sameEnvironment s t ∧ t.progMem.capacity = s.progMem.capacity ∧ t.dataMem.capacity = s.dataMem.capacity

/-- R62, R75: when the memories are separate no step can change the program. -/
def Obligations.SeparateProgramIsNeverWritten : Prop :=
  ∀ (s t : State) (p d : Memory), s.store = .separate p d → step s = .next t → ∃ d', t.store = .separate p d'

/-- R31: no instruction but those whose S bit asks for it, and TST, TEQ, CMP and CMN, changes a flag; and the multiplies change
neither C nor V. -/
def Obligations.FlagsChangeOnlyWhenAsked : Prop :=
  ∀ (i : Instr) (s t : State), exec i s = .next t →
    (updatesFlags i = false → t.flags = s.flags) ∧ (dataOp? i = none → t.flags.c = s.flags.c ∧ t.flags.v = s.flags.v)

/-! ## The shifter and the adder -/

/-- R131: the four shifts, for every word and every amount. -/
def Obligations.ShifterValues : Prop :=
  ∀ (v : Word) (n : Nat),
    (shift .lsl v n).toNat = v.toNat * 2 ^ n % 2 ^ 32 ∧
    (shift .lsr v n).toNat = v.toNat / 2 ^ n ∧
    shift .asr v n = BitVec.ofInt 32 (v.toInt / 2 ^ n) ∧
    shift .ror v n = (v >>> (n % 32)) ||| (v <<< ((32 - n % 32) % 32)) ∧
    (32 ≤ n → shift .lsl v n = 0 ∧ shift .lsr v n = 0 ∧ shift .asr v n = if v.msb then 0xFFFFFFFF#32 else 0#32) ∧
    (n % 32 = 0 → shift .ror v n = v)

/-- R112, R132 to R134: operand 2 of the three formats. An immediate is rotated right within 32 bits by twice the rotate
field, 0 being the identity; an immediate amount of 0 is no shift for any type; a register amount is the low byte. -/
def Obligations.Operand2Values : Prop :=
  (∀ (rot : BitVec 4) (imm8 : BitVec 8), operand2Imm rot imm8 = (imm8.zeroExtend 32).rotateRight (2 * rot.toNat) ∧
    operand2Imm 0 imm8 = imm8.zeroExtend 32) ∧
  (∀ (s : State) (rm : RegIx) (t : ShiftType) (n : BitVec 5), operand2Reg s rm t n = specShift t (s.reg rm) n.toNat ∧
    operand2Reg s rm t 0 = s.reg rm) ∧
  (∀ (s : State) (rm rs : RegIx) (t : ShiftType),
    operand2RegShift s rm t rs = specShift t (s.reg rm) ((s.reg rs).toNat % 256))

/-- R136: `AddWithCarry` and its closed forms: the carry of a subtraction is 1 exactly when there is no borrow, and overflow
is read off the signs. -/
def Obligations.AdderValues : Prop :=
  (∀ (x y : Word) (cin : Bool),
    (addWithCarry x y cin).result.toNat = (x.toNat + y.toNat + cin.toNat) % 2 ^ 32 ∧
    (addWithCarry x y cin).carry = decide (2 ^ 32 ≤ x.toNat + y.toNat + cin.toNat) ∧
    (addWithCarry x y cin).ovf =
      decide (x.toInt + y.toInt + cin.toNat < -(2 ^ 31) ∨ x.toInt + y.toInt + cin.toNat > 2 ^ 31 - 1)) ∧
  (∀ a b : Word,
    (addWithCarry a b false).result = a + b ∧
    (addWithCarry a b false).ovf = ((a.msb == b.msb) && ((addWithCarry a b false).result.msb != a.msb)) ∧
    (addWithCarry a (~~~b) true).result = a - b ∧
    (addWithCarry a (~~~b) true).carry = decide (b.toNat ≤ a.toNat) ∧
    (addWithCarry a (~~~b) true).ovf = ((a.msb != b.msb) && ((addWithCarry a (~~~b) true).result.msb != a.msb)) ∧
    (∀ c : Bool, (addWithCarry a (~~~b) c).result = a - b - BitVec.ofNat 32 (1 - c.toNat)))

/-! ## Data processing -/

/-- What a data-processing instruction of one of `ops` does when its condition passes (R137 to R139): all reads first, the
result in `Rd` unless the operation is a compare, the step's `+4` on the pc, the flags when asked, nothing else. -/
abbrev dataProcessingDoes (ops : List AluOp) : Prop :=
  ∀ (i : Instr) (d : DataOp) (s : State), dataOp? i = some d → d.op ∈ ops → conditionPassed d.cond s.flags = true →
    ∃ t, exec i s = .next t ∧
      regsThenAdvance t (fun r =>
        if writesRd d.op = true ∧ r = d.rd then aluResult d.op (s.reg d.rn) (d.op2.value s) s.flags.c else s.reg r) ∧
      t.flags = (if d.s || !writesRd d.op then aluFlags d.op (s.reg d.rn) (d.op2.value s) s.flags else s.flags) ∧
      t.store = s.store ∧ sameRun s t ∧ sameEnvironment s t

/-- AND, EOR, ORR, MOV, BIC, MVN (R140, R141, R152 to R155), in all three formats. -/
def Obligations.LogicalOperations : Prop := dataProcessingDoes [.and, .eor, .orr, .mov, .bic, .mvn]

/-- SUB, RSB, ADD (R142 to R144), in all three formats. -/
def Obligations.AddSubtractOperations : Prop := dataProcessingDoes [.sub, .rsb, .add]

/-- ADC, SBC, RSC (R145 to R147), in all three formats: C before the instruction is the carry in. -/
def Obligations.CarryOperations : Prop := dataProcessingDoes [.adc, .sbc, .rsc]

/-- TST, TEQ, CMP, CMN (R148 to R151), in all three formats: no register but the pc changes, the flags always do. -/
def Obligations.CompareOperations : Prop := dataProcessingDoes [.tst, .teq, .cmp, .cmn]

/-! ## Control transfer -/

/-- R171: B, `cond 101 0 imm24`, adds the sign-extended, shifted immediate to its own address; nothing else changes. The target
of an aligned branch is aligned, and one past the program Bound halts the Core with `EndOfProgram` at the next step. -/
def Obligations.BranchResult : Prop :=
  (∀ (w : Word) (c : Cond), Cond.ofBits (w.extractLsb' 28 4) = some c → w &&& 0x0F000000#32 = 0x0A000000#32 →
    decode w = .ok (.b ⟨c, w.extractLsb' 0 24⟩)) ∧
  (∀ (f : BR) (s : State), conditionPassed f.cond s.flags = true →
    ∃ t, exec (.b f) s = .next t ∧
      (∀ r : RegIx, t.reg r = if r = 15#4 then BitVec.ofInt 32 ((s.reg 15#4).toNat + 4 * f.imm24.toInt) else s.reg r) ∧
      t.flags = s.flags ∧ t.store = s.store ∧ sameRun s t ∧ sameEnvironment s t ∧
      (s.pc.toNat % 4 = 0 → t.pc.toNat % 4 = 0) ∧
      (t.run = .running → t.configOk → t.stopReq = false → t.pbound.low + t.pc.toNat > t.pbound.high →
        step t = .next { t with run := .halted, haltCause := some .endOfProgram }))

/-- R172: BL, `cond 101 1 imm24`, leaves its own address in r14 and branches as B; nothing else changes. -/
def Obligations.BranchLinkResult : Prop :=
  (∀ (w : Word) (c : Cond), Cond.ofBits (w.extractLsb' 28 4) = some c → w &&& 0x0F000000#32 = 0x0B000000#32 →
    decode w = .ok (.bl ⟨c, w.extractLsb' 0 24⟩)) ∧
  (∀ (f : BR) (s : State), conditionPassed f.cond s.flags = true →
    ∃ t, exec (.bl f) s = .next t ∧
      (∀ r : RegIx, t.reg r =
        if r = 15#4 then BitVec.ofInt 32 ((s.reg 15#4).toNat + 4 * f.imm24.toInt)
        else if r = 14#4 then s.reg 15#4 else s.reg r) ∧
      t.flags = s.flags ∧ t.store = s.store ∧ sameRun s t ∧ sameEnvironment s t)

/-- R173: BX, `cond 0001 0010 xxxx xxxx xxxx 0001 Rm`, reads `Rm` first, leaves its own address plus 4 in r14, and goes to the
target with all 32 bits unchanged; nothing else changes. A target that is not a multiple of 4 makes the next fetch raise. -/
def Obligations.BranchExchangeResult : Prop :=
  (∀ (w : Word) (c : Cond), Cond.ofBits (w.extractLsb' 28 4) = some c → w &&& 0x0FF000F0#32 = 0x01200010#32 →
    decode w = .ok (.bx ⟨c, w.extractLsb' 0 4⟩)) ∧
  (∀ (f : BXR) (s : State), conditionPassed f.cond s.flags = true →
    ∃ t, exec (.bx f) s = .next t ∧
      (∀ r : RegIx, t.reg r = if r = 15#4 then s.reg f.rm else if r = 14#4 then s.reg 15#4 + 4 else s.reg r) ∧
      t.flags = s.flags ∧ t.store = s.store ∧ sameRun s t ∧ sameEnvironment s t ∧
      (t.canFetch → (s.reg f.rm).toNat % 4 ≠ 0 →
        step t = .next { t with
          run := .halted
          haltCause := some (.faulted (.memoryAccess .misaligned (s.reg f.rm)))
          faultPc := some (s.reg f.rm) }))

/-- R175: after a BL at `A`, `MOV pc, lr` returns to `A + 4`, and `BX lr` goes back to `A` itself; after a BX at `A`,
`MOV pc, lr` lands on `A + 8` and `BX lr` on `A + 4`. -/
def Obligations.CallAndReturn : Prop :=
  ∀ (s t : State) (g : DPR), g.cond = .al → g.rd = 15#4 → g.rm = 14#4 → g.shamt = 0 → g.stype = .lsl →
    (∀ f : BR, conditionPassed f.cond s.flags = true → exec (.bl f) s = .next t →
      (∃ u, exec (.movDPR g) t = .next u ∧ u.pc = s.pc + 4) ∧ (∃ u, exec (.bx ⟨.al, 14#4⟩) t = .next u ∧ u.pc = s.pc)) ∧
    (∀ f : BXR, conditionPassed f.cond s.flags = true → exec (.bx f) s = .next t →
      (∃ u, exec (.movDPR g) t = .next u ∧ u.pc = s.pc + 8) ∧
      (∃ u, exec (.bx ⟨.al, 14#4⟩) t = .next u ∧ u.pc = s.pc + 4))

/-! ## Single and extended load/store -/

/-- R182 to R184, R186, R211, R212, R214 to R216: LDR, LDRB, LDRH, LDRSB, LDRSH in both formats, all index modes. `Rd` is
written last and wins over the writeback; memory and flags are unchanged. -/
def Obligations.LoadResults : Prop :=
  ∀ (i : Instr) (d : LoadOp) (s : State), loadOp? i = some d → conditionPassed d.cond s.flags = true →
    d.kind.accessible s (d.mem.addr s) →
    ∃ t, exec i s = .next t ∧
      regsThenAdvance t (fun r =>
        if r = d.rd then d.kind.value s (d.mem.addr s)
        else if d.mem.wb = true ∧ r = d.mem.rn then d.mem.disp s else s.reg r) ∧
      t.flags = s.flags ∧ t.store = s.store ∧ sameRun s t ∧ sameEnvironment s t

/-- R183, R184, R186, R286: a load whose access does not pass halts the Core with that fault; neither the writeback nor the
load happens, registers and memory are exactly as before. -/
def Obligations.LoadFaults : Prop :=
  ∀ (i : Instr) (d : LoadOp) (s : State), loadOp? i = some d → conditionPassed d.cond s.flags = true →
    ¬d.kind.accessible s (d.mem.addr s) →
    exec i s = .next { s with
      run := .halted
      haltCause := some (.faulted (d.kind.fault s (d.mem.addr s)))
      faultPc := some s.pc }

/-- R182, R183, R185, R187, R213: STR, STRB, STRH in both formats, all index modes. The value stored is `x[Rd]` before the
writeback, at the address the resolver gives; every byte outside the stored ones is as before. -/
def Obligations.StoreResults : Prop :=
  ∀ (i : Instr) (d : StoreOp) (s : State), storeOp? i = some d → conditionPassed d.cond s.flags = true → s.dataMem.wf →
    d.kind.accessible s (d.mem.addr s) →
    ∃ t, exec i s = .next t ∧
      memoryAfter s t (d.kind.stored s (d.mem.addr s) (s.reg d.rd)) ∧
      regsThenAdvance t (fun r => if d.mem.wb = true ∧ r = d.mem.rn then d.mem.disp s else s.reg r) ∧
      t.flags = s.flags ∧ onlyDataMem s t ∧ sameRun s t ∧ sameEnvironment s t

/-- R183, R185, R187, R286: a store whose (first) access does not pass halts the Core and changes nothing else. -/
def Obligations.StoreFaults : Prop :=
  ∀ (i : Instr) (d : StoreOp) (s : State), storeOp? i = some d → conditionPassed d.cond s.flags = true →
    (d.kind = .word ∧ ¬s.wordAccessible (d.mem.addr s) ∨ d.kind ≠ .word ∧ ¬s.byteAccessible (d.mem.addr s)) →
    exec i s = .next { s with
      run := .halted
      haltCause := some (.faulted
        (if d.kind = .word then wordFault (d.mem.addr s) else .memoryAccess .outOfBounds (d.mem.addr s)))
      faultPc := some s.pc }

/-- R213, R286: a STRH whose second byte faults has written its first byte, which stays written; there is no writeback. -/
def Obligations.StoreHalfSecondByteFaults : Prop :=
  ∀ (i : Instr) (d : StoreOp) (s : State), storeOp? i = some d → d.kind = .half → conditionPassed d.cond s.flags = true →
    s.dataMem.wf → s.byteAccessible (d.mem.addr s) → ¬s.byteAccessible (d.mem.addr s + 1) →
    ∃ t, exec i s = .next t ∧ haltedWith t (.memoryAccess .outOfBounds (d.mem.addr s + 1)) s.pc ∧
      memoryAfter s t (StoreKind.byte.stored s (d.mem.addr s) (s.reg d.rd)) ∧ (∀ r : RegIx, t.reg r = s.reg r) ∧
      t.flags = s.flags ∧ onlyDataMem s t ∧ sameEnvironment s t

/-! ## Load and store multiple -/

/-- R201, R202, R204: LDM loads the j-th selected register from the j-th address of the walk; the writeback, when asked, is
last and wins over a loaded base. An empty list loads nothing. -/
def Obligations.LoadMultipleResult : Prop :=
  ∀ (f : LSM) (s : State), conditionPassed f.cond s.flags = true →
    (∀ k : RegIx, lsmSelects f k → s.wordAccessible (lsmAddr f s k)) →
    ∃ t, exec (.ldm f) s = .next t ∧
      regsThenAdvance t (fun r =>
        if f.w = true ∧ r = f.rn then lsmFinal f s
        else if lsmSelects f r then s.dataWord (lsmAddr f s r) else s.reg r) ∧
      t.flags = s.flags ∧ t.store = s.store ∧ sameRun s t ∧ sameEnvironment s t

/-- R202, R286: a LDM whose access for `x[k]` is the first that does not pass: the registers below are loaded and keep their
values, the others are untouched, and there is no writeback. -/
def Obligations.LoadMultipleFault : Prop :=
  ∀ (f : LSM) (s : State) (k : RegIx), conditionPassed f.cond s.flags = true → lsmSelects f k →
    ¬s.wordAccessible (lsmAddr f s k) →
    (∀ j : RegIx, lsmSelects f j → j.toNat < k.toNat → s.wordAccessible (lsmAddr f s j)) →
    ∃ t, exec (.ldm f) s = .next t ∧ haltedWith t (wordFault (lsmAddr f s k)) s.pc ∧
      (∀ r : RegIx, t.reg r = if lsmSelects f r ∧ r.toNat < k.toNat then s.dataWord (lsmAddr f s r) else s.reg r) ∧
      t.flags = s.flags ∧ t.store = s.store ∧ sameEnvironment s t

/-- R201, R203, R204: STM stores the j-th selected register, as it was before the instruction, at the j-th address of the
walk; every other byte is as before; the writeback is the final address. -/
def Obligations.StoreMultipleResult : Prop :=
  ∀ (f : LSM) (s : State), conditionPassed f.cond s.flags = true → s.dataMem.wf →
    (∀ k : RegIx, lsmSelects f k → s.wordAccessible (lsmAddr f s k)) →
    ∃ t, exec (.stm f) s = .next t ∧
      (∀ k : RegIx, lsmSelects f k → t.dataWord (lsmAddr f s k) = s.reg k) ∧
      (∀ a : Nat, (∀ k : RegIx, lsmSelects f k →
          a < s.dbound.low + (lsmAddr f s k).toNat ∨ s.dbound.low + (lsmAddr f s k).toNat + 3 < a) →
        t.dataMem.byte a = s.dataMem.byte a) ∧
      regsThenAdvance t (fun r => if f.w = true ∧ r = f.rn then lsmFinal f s else s.reg r) ∧
      t.flags = s.flags ∧ onlyDataMem s t ∧ sameRun s t ∧ sameEnvironment s t

/-- R203, R286: a STM whose access for `x[k]` is the first that does not pass: the words below stay stored, no other byte and
no register changes, and there is no writeback. -/
def Obligations.StoreMultipleFault : Prop :=
  ∀ (f : LSM) (s : State) (k : RegIx), conditionPassed f.cond s.flags = true → s.dataMem.wf → lsmSelects f k →
    ¬s.wordAccessible (lsmAddr f s k) →
    (∀ j : RegIx, lsmSelects f j → j.toNat < k.toNat → s.wordAccessible (lsmAddr f s j)) →
    ∃ t, exec (.stm f) s = .next t ∧ haltedWith t (wordFault (lsmAddr f s k)) s.pc ∧
      (∀ j : RegIx, lsmSelects f j → j.toNat < k.toNat → t.dataWord (lsmAddr f s j) = s.reg j) ∧
      (∀ a : Nat, (∀ j : RegIx, lsmSelects f j → j.toNat < k.toNat →
          a < s.dbound.low + (lsmAddr f s j).toNat ∨ s.dbound.low + (lsmAddr f s j).toNat + 3 < a) →
        t.dataMem.byte a = s.dataMem.byte a) ∧
      (∀ r : RegIx, t.reg r = s.reg r) ∧ t.flags = s.flags ∧ onlyDataMem s t ∧ sameEnvironment s t

/-! ## Multiply and swap -/

/-- R231, R232: MUL and MLA, by their encodings: the low 32 bits of the product, plus the accumulator for MLA; with `S`, N and
Z of that result, C and V unchanged. -/
def Obligations.MultiplyResult : Prop :=
  (∀ (w : Word) (c : Cond), Cond.ofBits (w.extractLsb' 28 4) = some c →
    let f : MULF := ⟨c, w.getLsbD 20, w.extractLsb' 16 4, w.extractLsb' 12 4, w.extractLsb' 8 4, w.extractLsb' 0 4⟩
    (w &&& 0x0FE000F0#32 = 0x00000090#32 → decode w = .ok (.mul f)) ∧
    (w &&& 0x0FE000F0#32 = 0x00200090#32 → decode w = .ok (.mla f))) ∧
  (∀ (f : MULF) (s : State) (acc : Bool), conditionPassed f.cond s.flags = true →
    let n := ((s.reg f.rm).toNat * (s.reg f.rs).toNat + (if acc then (s.reg f.rn).toNat else 0)) % 2 ^ 32
    ∃ t, exec (if acc then .mla f else .mul f) s = .next t ∧
      regsThenAdvance t (fun r => if r = f.rd then BitVec.ofNat 32 n else s.reg r) ∧
      t.flags = (if f.s then { s.flags with n := decide (2 ^ 31 ≤ n), z := decide (n = 0) } else s.flags) ∧
      t.store = s.store ∧ sameRun s t ∧ sameEnvironment s t)

/-- R233 to R237: UMULL, UMLAL, SMULL, SMLAL, by their encodings: the 64-bit product, unsigned or signed, plus the 64-bit
accumulator when asked, modulo 2^64; `RdLo` first, `RdHi` second; with `S`, N and Z of the 64 bits, C and V unchanged. -/
def Obligations.LongMultiplyResult : Prop :=
  (∀ (w : Word) (c : Cond), Cond.ofBits (w.extractLsb' 28 4) = some c →
    let f : MULL := ⟨c, w.getLsbD 20, w.extractLsb' 16 4, w.extractLsb' 12 4, w.extractLsb' 8 4, w.extractLsb' 0 4⟩
    (w &&& 0x0FE000F0#32 = 0x00800090#32 → decode w = .ok (.umull f)) ∧
    (w &&& 0x0FE000F0#32 = 0x00A00090#32 → decode w = .ok (.umlal f)) ∧
    (w &&& 0x0FE000F0#32 = 0x00C00090#32 → decode w = .ok (.smull f)) ∧
    (w &&& 0x0FE000F0#32 = 0x00E00090#32 → decode w = .ok (.smlal f))) ∧
  (∀ (f : MULL) (s : State) (sg acc : Bool), conditionPassed f.cond s.flags = true →
    let p : Int := if sg then (s.reg f.rm).toInt * (s.reg f.rs).toInt else (s.reg f.rm).toNat * (s.reg f.rs).toNat
    let a : Int := if acc then (s.reg f.rdHi).toNat * 2 ^ 32 + (s.reg f.rdLo).toNat else 0
    let n : Nat := ((p + a) % 2 ^ 64).toNat
    ∃ t, exec (match sg, acc with
        | false, false => .umull f
        | false, true => .umlal f
        | true, false => .smull f
        | true, true => .smlal f) s = .next t ∧
      regsThenAdvance t (fun r =>
        if r = f.rdHi then BitVec.ofNat 32 (n / 2 ^ 32) else if r = f.rdLo then BitVec.ofNat 32 (n % 2 ^ 32) else s.reg r) ∧
      t.flags = (if f.s then { s.flags with n := decide (2 ^ 63 ≤ n), z := decide (n = 0) } else s.flags) ∧
      t.store = s.store ∧ sameRun s t ∧ sameEnvironment s t)

/-- R251, R252: SWP and SWPB, by their encodings. SWP reads the word at the address, writes `x[Rm]` there, and leaves the old
word in `Rd`; SWPB does the same with one byte, zero-extended into `Rd`, and writes the low 8 bits of `x[Rm]`. When the
read does not pass, the Core halts with no other state changed. -/
def Obligations.SwapResults : Prop :=
  (∀ (w : Word) (c : Cond), Cond.ofBits (w.extractLsb' 28 4) = some c →
    let f : SWPF := ⟨c, w.extractLsb' 16 4, w.extractLsb' 12 4, w.extractLsb' 0 4⟩
    (w &&& 0x0FF000F0#32 = 0x01000090#32 → decode w = .ok (.swp f)) ∧
    (w &&& 0x0FF000F0#32 = 0x01400090#32 → decode w = .ok (.swpb f))) ∧
  (∀ (f : SWPF) (s : State), conditionPassed f.cond s.flags = true → s.dataMem.wf →
    (s.wordAccessible (s.reg f.rn) →
      ∃ t, exec (.swp f) s = .next t ∧
        memoryAfter s t (StoreKind.word.stored s (s.reg f.rn) (s.reg f.rm)) ∧
        regsThenAdvance t (fun r => if r = f.rd then s.dataWord (s.reg f.rn) else s.reg r) ∧
        t.flags = s.flags ∧ onlyDataMem s t ∧ sameRun s t ∧ sameEnvironment s t) ∧
    (s.byteAccessible (s.reg f.rn) →
      ∃ t, exec (.swpb f) s = .next t ∧
        memoryAfter s t (StoreKind.byte.stored s (s.reg f.rn) (s.reg f.rm)) ∧
        regsThenAdvance t (fun r => if r = f.rd then (s.dataByte (s.reg f.rn)).zeroExtend 32 else s.reg r) ∧
        t.flags = s.flags ∧ onlyDataMem s t ∧ sameRun s t ∧ sameEnvironment s t)) ∧
  (∀ (f : SWPF) (s : State), conditionPassed f.cond s.flags = true →
    (¬s.wordAccessible (s.reg f.rn) →
      exec (.swp f) s = .next { s with
        run := .halted, haltCause := some (.faulted (wordFault (s.reg f.rn))), faultPc := some s.pc }) ∧
    (¬s.byteAccessible (s.reg f.rn) →
      exec (.swpb f) s = .next { s with
        run := .halted, haltCause := some (.faulted (.memoryAccess .outOfBounds (s.reg f.rn))), faultPc := some s.pc }))

/-! ## Recognised and refused -/

/-- R260 to R272: MRS, MSR, BLX, BKPT, QADD, QSUB, QDADD, QDSUB, CDP, MCR, MRC, LDC, STC and SWI: when the condition passes
(BLX immediate: always) the Core halts with `UnimplementedInstruction` naming the tag, at this pc, and nothing else
changes; when it fails the instruction is skipped. -/
def Obligations.RefusedInstructionsRaise : Prop :=
  ∀ (i : Instr) (name : UnimplName) (s : State), unimplName? i = some name →
    (passes i s.flags = true →
      exec i s = .next { s with
        run := .halted
        haltCause := some (.faulted (.unimplemented name))
        faultPc := some s.pc }) ∧
    (passes i s.flags = false →
      ∃ t, exec i s = .next t ∧ regsThenAdvance t s.reg ∧ t.flags = s.flags ∧ t.store = s.store ∧ sameRun s t ∧
        sameEnvironment s t)

/-! ## Memory -/

/-- R54, R55, R68: the order of the checks and the fault each reports; an access that passes them all is made. -/
def Obligations.AccessChecks : Prop :=
  ∀ (m : Memory) (b : Bound) (addr v : Word) (x : Byte),
    (addr.toNat % 4 ≠ 0 → m.readWord b addr = .error (.memoryAccess .misaligned addr) ∧
      m.writeWord b addr v = .error (.memoryAccess .misaligned addr)) ∧
    (addr.toNat % 4 = 0 → (b.low + addr.toNat > b.high ∨ b.low + addr.toNat ≥ m.capacity) →
      m.readWord b addr = .error (.memoryAccess .outOfBounds addr) ∧
      m.writeWord b addr v = .error (.memoryAccess .outOfBounds addr)) ∧
    (addr.toNat % 4 = 0 → b.low + addr.toNat ≤ b.high → b.low + addr.toNat < m.capacity →
      (∃ w, m.readWord b addr = .ok w) ∧ ∃ m', m.writeWord b addr v = .ok m') ∧
    ((b.low + (addr.toNat - addr.toNat % 4) > b.high ∨ b.low + (addr.toNat - addr.toNat % 4) ≥ m.capacity) →
      m.readByte b addr = .error (.memoryAccess .outOfBounds addr) ∧
      m.writeByte b addr x = .error (.memoryAccess .outOfBounds addr)) ∧
    (b.low + (addr.toNat - addr.toNat % 4) ≤ b.high → b.low + (addr.toNat - addr.toNat % 4) < m.capacity →
      (∃ y, m.readByte b addr = .ok y) ∧ ∃ m', m.writeByte b addr x = .ok m')

/-- R57: a word write applies the alignment check, then the bound and the capacity check; one that passes them reads back,
`writeWord(addr, v); readWord(addr) == v`, and changes no byte outside the word. -/
def Obligations.WordWriteThenRead : Prop :=
  ∀ (m : Memory) (b : Bound) (addr v : Word), m.wf →
    (addr.toNat % 4 ≠ 0 → m.writeWord b addr v = .error (.memoryAccess .misaligned addr)) ∧
    (addr.toNat % 4 = 0 → (b.low + addr.toNat > b.high ∨ b.low + addr.toNat ≥ m.capacity) →
      m.writeWord b addr v = .error (.memoryAccess .outOfBounds addr)) ∧
    (addr.toNat % 4 = 0 → b.low + addr.toNat ≤ b.high → b.low + addr.toNat < m.capacity →
      ∃ m', m.writeWord b addr v = .ok m' ∧ m'.readWord b addr = .ok v ∧ m'.capacity = m.capacity ∧
        ∀ a, (a < b.low + addr.toNat ∨ b.low + addr.toNat + 3 < a) → m'.byte a = m.byte a)

/-- R59: a byte write applies the bound and the capacity check to the containing word, with no alignment check; one that passes
them changes the targeted byte only. -/
def Obligations.ByteWriteKeepsTheOthers : Prop :=
  ∀ (m : Memory) (b : Bound) (addr : Word) (x : Byte), m.wf →
    ((b.low + (addr.toNat - addr.toNat % 4) > b.high ∨ b.low + (addr.toNat - addr.toNat % 4) ≥ m.capacity) →
      m.writeByte b addr x = .error (.memoryAccess .outOfBounds addr)) ∧
    (b.low + (addr.toNat - addr.toNat % 4) ≤ b.high → b.low + (addr.toNat - addr.toNat % 4) < m.capacity →
      ∃ m', m.writeByte b addr x = .ok m' ∧ m'.readByte b addr = .ok x ∧ m'.capacity = m.capacity ∧
        ∀ a, a ≠ b.low + addr.toNat → m'.byte a = m.byte a)

/-- R60, R63: after a word is written its bytes read most significant first, and its halfwords little-endian. -/
def Obligations.MixedWidthReads : Prop :=
  ∀ (s t : State) (addr v : Word), s.dataMem.wf → s.memWrite4 addr v = .ok t →
    t.memRead1 addr = .ok (v.extractLsb' 24 8) ∧ t.memRead1 (addr + 1) = .ok (v.extractLsb' 16 8) ∧
    t.memRead1 (addr + 2) = .ok (v.extractLsb' 8 8) ∧ t.memRead1 (addr + 3) = .ok (v.extractLsb' 0 8) ∧
    t.memRead2 addr = .ok (v.extractLsb' 16 8 ++ v.extractLsb' 24 8) ∧
    t.memRead2 (addr + 2) = .ok (v.extractLsb' 0 8 ++ v.extractLsb' 8 8)

/-- R75: when program and data memory are one Memory seen through one Bound, a stored word is what the very next fetch of
that address reads. -/
def Obligations.StoreIsSeenByTheFetch : Prop :=
  ∀ (s t : State) (m : Memory) (i : Instr) (d : StoreOp), s.store = .coincident m → m.wf → s.pbound = s.dbound →
    storeOp? i = some d → d.kind = .word → conditionPassed d.cond s.flags = true → s.wordAccessible (d.mem.addr s) →
    exec i s = .next t → t.fetch (d.mem.addr s) = .ok (s.reg d.rd)

/-- R70: image byte `i` becomes `B[i]`; a final group of 1 to 3 bytes is completed with zero low-order bytes; no other byte
changes. For an image that does not fit the capacity no rule says what the loader does; that it is stored all the same is
the model's choice (log entry 14). -/
def Obligations.ImageLoads : Prop :=
  ∀ (m : Memory) (image : List Byte), m.wf →
    (∀ (k : Nat) (h : k < image.length), (m.loadImage image).byte k = image[k]) ∧
    (∀ k, image.length ≤ k → k < (image.length + 3) / 4 * 4 → (m.loadImage image).byte k = 0) ∧
    (∀ k, (image.length + 3) / 4 * 4 ≤ k → (m.loadImage image).byte k = m.byte k)

/-! ## Windows and several Cores -/

/-- R53, R55, R67: no step writes a byte of data memory that the data window does not reach. -/
def Obligations.WritesStayInTheWindow : Prop :=
  ∀ (s t : State) (a : Nat), step s = .next t → ¬windowReaches s.dbound a → t.dataMem.byte a = s.dataMem.byte a

/-- R66, R67, R77: a Core sees nothing outside its windows. Two machines with the same Core whose Memories agree inside the
windows step to machines that again agree: whatever lies outside, the same registers, flags, run state and window
contents result. -/
def Obligations.NothingOutsideIsSeen : Prop :=
  ∀ s s' t : State, AgreeInWindows s s' → step s = .next t → ∃ t', step s' = .next t' ∧ AgreeInWindows t t'

/-- R77, R298: a step of one Core changes no other Core's registers, flags or run state, and no byte another Core's windows
reach. -/
def Obligations.OtherCoresAreUntouched : Prop :=
  ∀ (p q : Processor) (j k : Nat), j ≠ k → p.sound → p.stepCore j = .next q →
    q.cores[k]? = p.cores[k]? ∧
    ∀ s, p.view k = some s → ∃ t, q.view k = some t ∧ t.toCoreState = s.toCoreState ∧
      (∀ a, windowReaches s.pbound a → t.progMem.byte a = s.progMem.byte a) ∧
      (∀ a, windowReaches s.dbound a → t.dataMem.byte a = s.dataMem.byte a)

/-- R77, R298, decision D32: the Cores of a sound Processor may step in either order: both orders complete, with the same
result. -/
def Obligations.CoresCommute : Prop :=
  ∀ (p : Processor) (j k : Nat), j ≠ k → j < p.cores.length → k < p.cores.length → p.sound →
    ∃ pj pk q, p.stepCore j = .next pj ∧ p.stepCore k = .next pk ∧ pj.stepCore k = .next q ∧ pk.stepCore j = .next q

/-- R66: Von Neumann topology slices one Memory into equal, non-overlapping windows inside it; two Cores in 1024 bytes get
`[0, 511]` and `[512, 1023]`. Two clauses are the model's choice: where the core count does not divide the capacity, that a
window has `capacity / n` bytes, rounded down (log entry 18); and, for every core count, that a Core's data Bound is its
program Bound (log entry 16: R50 says the two "may coincide", and U25 leaves it a parameter). -/
def Obligations.SlicesAreDisjoint : Prop :=
  (∀ (m : Memory) (n : Nat), 0 < m.capacity / n →
    (Processor.vonNeumann m n).disjoint ∧ (Processor.vonNeumann m n).cores.length = n ∧
    ∀ c ∈ (Processor.vonNeumann m n).cores, c.core.dbound = c.core.pbound ∧
      c.core.pbound.high + 1 = c.core.pbound.low + m.capacity / n ∧ c.core.pbound.high < m.capacity) ∧
  Config.slice 1024 2 0 = ⟨0, 511⟩ ∧ Config.slice 1024 2 1 = ⟨512, 1023⟩
end

