-- ==== Sys2Proof/Laws/Memory.lean ====
section
/-! SUPPORT. Memory: a byte or word read after a write, what a write leaves alone, the canonical form is kept, and memories
in canonical form with equal bytes are equal. -/

namespace Sys2Proof.Machine

/-! ## The list of cells -/

/-- The order part of the canonical form. -/
abbrev rising (l : List Host.Cell) : Prop := l.Pairwise (fun a b => a.1 < b.1)

/-- No entry equals what an unlisted address reads as. -/
abbrev nonDefault (l : List Host.Cell) : Prop := ∀ c ∈ l, c.2 ≠ Config.unlistedByte

theorem cellsRead_of_above {l : List Host.Cell} {a : Nat} (h : ∀ c ∈ l, a < c.1) :
    cellsRead l a = Config.unlistedByte := by
  induction l with
  | nil => rfl
  | cons c rest ih =>
    have hc : c.1 ≠ a := Nat.ne_of_gt (h c (by simp))
    simp only [cellsRead, hc, ↓reduceIte]
    exact ih fun d hd => h d (by simp [hd])

theorem cellsRead_cellsWrite_ne (l : List Host.Cell) {a b : Nat} (v : Byte) (h : b ≠ a) :
    cellsRead (cellsWrite l a v) b = cellsRead l b := by
  induction l with
  | nil => by_cases hv : v = Config.unlistedByte <;> simp [cellsWrite, cellsRead, hv, Ne.symm h]
  | cons c rest ih =>
    obtain ⟨k, w⟩ := c
    simp only [cellsWrite]
    split
    · split <;> simp [cellsRead, Ne.symm h]
    · split
      · subst_vars; split <;> simp [cellsRead, Ne.symm h]
      · simp [cellsRead, ih]

theorem cellsRead_cellsWrite_eq {l : List Host.Cell} (hl : rising l) (a : Nat) (v : Byte) :
    cellsRead (cellsWrite l a v) a = v := by
  induction l with
  | nil => by_cases hv : v = Config.unlistedByte <;> simp [cellsWrite, cellsRead, hv]
  | cons c rest ih =>
    obtain ⟨k, w⟩ := c
    have hk : ∀ d ∈ rest, k < d.1 := (List.pairwise_cons.mp hl).1
    simp only [cellsWrite]
    split
    · next hak =>
      split
      · next hv =>
        rw [hv]
        exact cellsRead_of_above fun d hd => by
          rcases List.mem_cons.mp hd with rfl | hd
          · exact hak
          · exact Nat.lt_trans hak (hk d hd)
      · simp [cellsRead]
    · split
      · next _ heq =>
        subst heq
        split
        · next hv => rw [hv]; exact cellsRead_of_above hk
        · simp [cellsRead]
      · next _ hne =>
        simp only [cellsRead, Ne.symm hne, ↓reduceIte]
        exact ih (List.pairwise_cons.mp hl).2

/-- Where the cells of a written list come from. -/
theorem mem_cellsWrite {l : List Host.Cell} {a : Nat} {v : Byte} {c : Host.Cell} (h : c ∈ cellsWrite l a v) :
    (c = (a, v) ∧ v ≠ Config.unlistedByte) ∨ c ∈ l := by
  induction l with
  | nil => by_cases hv : v = Config.unlistedByte <;> simp_all [cellsWrite]
  | cons d rest ih =>
    obtain ⟨k, w⟩ := d
    simp only [cellsWrite] at h
    split at h
    · split at h
      · exact .inr h
      · rcases List.mem_cons.mp h with rfl | h
        · exact .inl ⟨rfl, ‹_›⟩
        · exact .inr h
    · split at h
      · split at h
        · exact .inr (List.mem_cons_of_mem _ h)
        · rcases List.mem_cons.mp h with rfl | h
          · exact .inl ⟨rfl, ‹_›⟩
          · exact .inr (List.mem_cons_of_mem _ h)
      · rcases List.mem_cons.mp h with rfl | h
        · exact .inr (by simp)
        · exact (ih h).imp_right (List.mem_cons_of_mem _)

theorem rising_cellsWrite {l : List Host.Cell} (hl : rising l) (a : Nat) (v : Byte) : rising (cellsWrite l a v) := by
  induction l with
  | nil => by_cases hv : v = Config.unlistedByte <;> simp [cellsWrite, hv]
  | cons c rest ih =>
    obtain ⟨k, w⟩ := c
    obtain ⟨hk, hrest⟩ := List.pairwise_cons.mp hl
    simp only [cellsWrite]
    split
    · next hak =>
      split
      · exact hl
      · exact List.pairwise_cons.mpr ⟨fun d hd => by
          rcases List.mem_cons.mp hd with rfl | hd
          · exact hak
          · exact Nat.lt_trans hak (hk d hd), hl⟩
    · split
      · next _ heq =>
        subst heq
        split
        · exact hrest
        · exact List.pairwise_cons.mpr ⟨hk, hrest⟩
      · next hlt hne =>
        refine List.pairwise_cons.mpr ⟨fun d hd => ?_, ih hrest⟩
        rcases mem_cellsWrite hd with ⟨rfl, _⟩ | hd
        · exact Nat.lt_of_le_of_ne (Nat.le_of_not_lt hlt) (Ne.symm hne)
        · exact hk d hd

/-- Two canonical lists that read alike are the same list. -/
theorem cells_ext {l l' : List Host.Cell} (hl : rising l) (hl' : rising l') (hd : nonDefault l) (hd' : nonDefault l')
    (h : ∀ a, cellsRead l a = cellsRead l' a) : l = l' := by
  induction l generalizing l' with
  | nil =>
    cases l' with
    | nil => rfl
    | cons c rest =>
      have := h c.1
      simp only [cellsRead, ↓reduceIte] at this
      exact absurd this.symm (hd' c (by simp))
  | cons c rest ih =>
    obtain ⟨hk, hrest⟩ := List.pairwise_cons.mp hl
    cases l' with
    | nil =>
      have := h c.1
      simp only [cellsRead, ↓reduceIte] at this
      exact absurd this (hd c (by simp))
    | cons c' rest' =>
      obtain ⟨hk', hrest'⟩ := List.pairwise_cons.mp hl'
      have hkey : c.1 = c'.1 := by
        rcases Nat.lt_trichotomy c.1 c'.1 with hlt | heq | hgt
        · have h1 := h c.1
          rw [cellsRead_of_above (l := c' :: rest') (fun d hd => by
            rcases List.mem_cons.mp hd with rfl | hd
            · exact hlt
            · exact Nat.lt_trans hlt (hk' d hd))] at h1
          simp only [cellsRead, ↓reduceIte] at h1
          exact absurd h1 (hd c (by simp))
        · exact heq
        · have h1 := h c'.1
          rw [cellsRead_of_above (l := c :: rest) (fun d hd => by
            rcases List.mem_cons.mp hd with rfl | hd
            · exact hgt
            · exact Nat.lt_trans hgt (hk d hd))] at h1
          simp only [cellsRead, ↓reduceIte] at h1
          exact absurd h1.symm (hd' c' (by simp))
      obtain ⟨k, b⟩ := c
      obtain ⟨k', b'⟩ := c'
      simp only at hkey
      subst hkey
      have hb : b = b' := by simpa [cellsRead] using h k
      subst hb
      congr 1
      refine ih hrest hrest' (fun d hd1 => hd d (by simp [hd1])) (fun d hd1 => hd' d (by simp [hd1])) fun a => ?_
      by_cases hak : k = a
      · subst hak
        rw [cellsRead_of_above hk, cellsRead_of_above hk']
      · simpa [cellsRead, hak] using h a

/-! ## A Memory's bytes -/

@[simp] theorem Memory.setByte_capacity (m : Memory) (a : Nat) (v : Byte) : (m.setByte a v).capacity = m.capacity := rfl
@[simp] theorem Memory.setWord_capacity (m : Memory) (a : Nat) (v : Word) : (m.setWord a v).capacity = m.capacity := rfl

/-- A byte write leaves every other byte alone (R59). -/
theorem Memory.byte_setByte_ne (m : Memory) {a b : Nat} (v : Byte) (h : b ≠ a) : (m.setByte a v).byte b = m.byte b :=
  cellsRead_cellsWrite_ne _ _ h

/-- A byte read after a byte write, on rising cells. -/
theorem Memory.byte_setByte_eq {m : Memory} (hm : rising m.cells) (a : Nat) (v : Byte) : (m.setByte a v).byte a = v :=
  cellsRead_cellsWrite_eq hm _ _

theorem Memory.byte_setByte {m : Memory} (hm : rising m.cells) (a b : Nat) (v : Byte) :
    (m.setByte a v).byte b = if b = a then v else m.byte b := by
  split
  · subst_vars; exact byte_setByte_eq hm _ _
  · exact m.byte_setByte_ne v ‹_›

theorem Memory.rising_setByte {m : Memory} (hm : rising m.cells) (a : Nat) (v : Byte) : rising (m.setByte a v).cells :=
  rising_cellsWrite hm _ _

theorem Memory.rising_setWord {m : Memory} (hm : rising m.cells) (a : Nat) (v : Word) : rising (m.setWord a v).cells :=
  rising_setByte (rising_setByte (rising_setByte (rising_setByte hm _ _) _ _) _ _) _ _

/-- A word write leaves every byte outside its four alone (R57). -/
theorem Memory.byte_setWord_ne (m : Memory) {a b : Nat} (v : Word) (h : b < a ∨ a + 3 < b) :
    (m.setWord a v).byte b = m.byte b := by
  unfold setWord
  rw [byte_setByte_ne _ _ (by omega), byte_setByte_ne _ _ (by omega), byte_setByte_ne _ _ (by omega),
    byte_setByte_ne _ _ (by omega)]

/-- The four bytes of a written word, most significant first (R63). -/
theorem Memory.byte_setWord {m : Memory} (hm : rising m.cells) (a : Nat) (v : Word) :
    (m.setWord a v).byte a = v.extractLsb' 24 8 ∧ (m.setWord a v).byte (a + 1) = v.extractLsb' 16 8 ∧
      (m.setWord a v).byte (a + 2) = v.extractLsb' 8 8 ∧ (m.setWord a v).byte (a + 3) = v.extractLsb' 0 8 := by
  have h1 := rising_setByte hm a (v.extractLsb' 24 8)
  have h2 := rising_setByte h1 (a + 1) (v.extractLsb' 16 8)
  have h3 := rising_setByte h2 (a + 2) (v.extractLsb' 8 8)
  refine ⟨?_, ?_, ?_, ?_⟩ <;> simp [setWord, byte_setByte, hm, h1, h2, h3]

theorem wordOfBytes_split (v : Word) :
    wordOfBytes (v.extractLsb' 24 8) (v.extractLsb' 16 8) (v.extractLsb' 8 8) (v.extractLsb' 0 8) = v := by
  apply BitVec.eq_of_getLsbD_eq
  intro i hi
  simp only [wordOfBytes, BitVec.getLsbD_append, BitVec.getLsbD_extractLsb']
  by_cases h1 : i < 8
  · simp [h1]
  · by_cases h2 : i - 8 < 8
    · simp [h1, h2, show 8 + (i - 8) = i by omega]
    · by_cases h3 : i - 8 - 8 < 8
      · simp [h1, h2, h3, show 16 + (i - 8 - 8) = i by omega]
      · simp [h1, h2, h3, show 24 + (i - 8 - 8 - 8) = i by omega]
        intro; omega

/-- A word read after a word write (R57). -/
theorem Memory.word_setWord {m : Memory} (hm : rising m.cells) (a : Nat) (v : Word) : (m.setWord a v).word a = v := by
  obtain ⟨h0, h1, h2, h3⟩ := byte_setWord hm a v
  simp only [word, h0, h1, h2, h3]
  exact wordOfBytes_split v

/-- A word read away from a word write. -/
theorem Memory.word_setWord_ne (m : Memory) {a b : Nat} (v : Word) (h : b + 3 < a ∨ a + 3 < b) :
    (m.setWord a v).word b = m.word b := by
  simp only [word]
  rw [m.byte_setWord_ne v (by omega), m.byte_setWord_ne v (by omega), m.byte_setWord_ne v (by omega),
    m.byte_setWord_ne v (by omega)]

/-! ## The canonical form is kept -/

theorem Memory.wf_setByte {m : Memory} (hm : m.wf) {a : Nat} (ha : a < m.capacity) (v : Byte) : (m.setByte a v).wf := by
  refine ⟨rising_setByte hm.1 a v, fun c hc => ?_⟩
  rcases mem_cellsWrite hc with ⟨rfl, hv⟩ | hc
  · exact ⟨ha, hv⟩
  · exact hm.2 c hc

theorem Memory.wf_setWord {m : Memory} (hm : m.wf) {a : Nat} (ha : a + 3 < m.capacity) (v : Word) : (m.setWord a v).wf :=
  wf_setByte (wf_setByte (wf_setByte (wf_setByte hm (by omega) _) (by simp; omega) _) (by simp; omega) _) (by simp; omega) _

theorem Memory.wf_putBytes {m : Memory} (hm : m.wf) (l : List Byte) {a : Nat} (ha : a + l.length ≤ m.capacity) :
    (m.putBytes a l).wf := by
  induction l generalizing m a with
  | nil => exact hm
  | cons b rest ih =>
    simp only [List.length_cons] at ha
    exact ih (wf_setByte hm (by omega) b) (by simp only [setByte_capacity]; omega)

/-- Loading an image that fits keeps the canonical form. -/
theorem Memory.wf_loadImage {m : Memory} (hm : m.wf) {image : List Byte} (h : (padImage image).length ≤ m.capacity) :
    (m.loadImage image).wf := wf_putBytes hm _ (by omega)

/-- Memories in canonical form with the same capacity and the same bytes are equal. -/
theorem Memory.ext_of_wf {m m' : Memory} (h : m.wf) (h' : m'.wf) (hc : m.capacity = m'.capacity)
    (hb : ∀ a, m.byte a = m'.byte a) : m = m' := by
  have := cells_ext h.1 h'.1 (fun c hc => (h.2 c hc).2) (fun c hc => (h'.2 c hc).2) hb
  cases m; cases m'; simp_all

/-! ## Addresses -/

/-- A power of two that is at least 128 is a multiple of 4 (R5). -/
theorem capacityOk_mod_four {c : Nat} (h : capacityOk c) : c % 4 = 0 := by
  obtain ⟨h1, h2⟩ := h
  have h7 : 7 ≤ c.log2 := (Nat.le_log2 (by omega)).mpr (by simpa using h1)
  rw [← h2, show c.log2 = 2 + (c.log2 - 2) by omega, Nat.pow_add]
  omega

/-- A resolved word that starts inside a Memory ends inside it. -/
theorem word_inside {c b a : Nat} (hc : capacityOk c) (hb : b % 4 = 0) (ha : a % 4 = 0) (h : b + a < c) : b + a + 3 < c := by
  have := capacityOk_mod_four hc
  omega

end Sys2Proof.Machine
end

