-- ==== Sys2Proof/Laws/State.lean ====
section
/-! SUPPORT. One lemma per field per update of the State, so that no proof unfolds a record update; and what a register
read answers after each update. -/

namespace Sys2Proof.Machine

@[simp] theorem State.setReg_regs (s : State) (i : RegIx) (v : Word) : (s.setReg i v).regs = s.regs.set i.toNat v i.isLt := rfl
@[simp] theorem State.setReg_flags (s : State) (i : RegIx) (v : Word) : (s.setReg i v).flags = s.flags := rfl
@[simp] theorem State.setReg_run (s : State) (i : RegIx) (v : Word) : (s.setReg i v).run = s.run := rfl
@[simp] theorem State.setReg_haltCause (s : State) (i : RegIx) (v : Word) : (s.setReg i v).haltCause = s.haltCause := rfl
@[simp] theorem State.setReg_faultPc (s : State) (i : RegIx) (v : Word) : (s.setReg i v).faultPc = s.faultPc := rfl
@[simp] theorem State.setReg_stopReq (s : State) (i : RegIx) (v : Word) : (s.setReg i v).stopReq = s.stopReq := rfl
@[simp] theorem State.setReg_pbound (s : State) (i : RegIx) (v : Word) : (s.setReg i v).pbound = s.pbound := rfl
@[simp] theorem State.setReg_dbound (s : State) (i : RegIx) (v : Word) : (s.setReg i v).dbound = s.dbound := rfl
@[simp] theorem State.setReg_initRegs (s : State) (i : RegIx) (v : Word) : (s.setReg i v).initRegs = s.initRegs := rfl
@[simp] theorem State.setReg_initFlags (s : State) (i : RegIx) (v : Word) : (s.setReg i v).initFlags = s.initFlags := rfl
@[simp] theorem State.setReg_store (s : State) (i : RegIx) (v : Word) : (s.setReg i v).store = s.store := rfl

@[simp] theorem State.setPc_flags (s : State) (v : Word) : (s.setPc v).flags = s.flags := rfl
@[simp] theorem State.setPc_run (s : State) (v : Word) : (s.setPc v).run = s.run := rfl
@[simp] theorem State.setPc_haltCause (s : State) (v : Word) : (s.setPc v).haltCause = s.haltCause := rfl
@[simp] theorem State.setPc_faultPc (s : State) (v : Word) : (s.setPc v).faultPc = s.faultPc := rfl
@[simp] theorem State.setPc_stopReq (s : State) (v : Word) : (s.setPc v).stopReq = s.stopReq := rfl
@[simp] theorem State.setPc_pbound (s : State) (v : Word) : (s.setPc v).pbound = s.pbound := rfl
@[simp] theorem State.setPc_dbound (s : State) (v : Word) : (s.setPc v).dbound = s.dbound := rfl
@[simp] theorem State.setPc_initRegs (s : State) (v : Word) : (s.setPc v).initRegs = s.initRegs := rfl
@[simp] theorem State.setPc_initFlags (s : State) (v : Word) : (s.setPc v).initFlags = s.initFlags := rfl
@[simp] theorem State.setPc_store (s : State) (v : Word) : (s.setPc v).store = s.store := rfl

@[simp] theorem State.setFlags_regs (s : State) (f : Flags) : (s.setFlags f).regs = s.regs := rfl
@[simp] theorem State.setFlags_flags (s : State) (f : Flags) : (s.setFlags f).flags = f := rfl
@[simp] theorem State.setFlags_run (s : State) (f : Flags) : (s.setFlags f).run = s.run := rfl
@[simp] theorem State.setFlags_haltCause (s : State) (f : Flags) : (s.setFlags f).haltCause = s.haltCause := rfl
@[simp] theorem State.setFlags_faultPc (s : State) (f : Flags) : (s.setFlags f).faultPc = s.faultPc := rfl
@[simp] theorem State.setFlags_stopReq (s : State) (f : Flags) : (s.setFlags f).stopReq = s.stopReq := rfl
@[simp] theorem State.setFlags_pbound (s : State) (f : Flags) : (s.setFlags f).pbound = s.pbound := rfl
@[simp] theorem State.setFlags_dbound (s : State) (f : Flags) : (s.setFlags f).dbound = s.dbound := rfl
@[simp] theorem State.setFlags_initRegs (s : State) (f : Flags) : (s.setFlags f).initRegs = s.initRegs := rfl
@[simp] theorem State.setFlags_initFlags (s : State) (f : Flags) : (s.setFlags f).initFlags = s.initFlags := rfl
@[simp] theorem State.setFlags_store (s : State) (f : Flags) : (s.setFlags f).store = s.store := rfl

@[simp] theorem State.advance_flags (s : State) : (s.advance).flags = s.flags := rfl
@[simp] theorem State.advance_run (s : State) : (s.advance).run = s.run := rfl
@[simp] theorem State.advance_haltCause (s : State) : (s.advance).haltCause = s.haltCause := rfl
@[simp] theorem State.advance_faultPc (s : State) : (s.advance).faultPc = s.faultPc := rfl
@[simp] theorem State.advance_stopReq (s : State) : (s.advance).stopReq = s.stopReq := rfl
@[simp] theorem State.advance_pbound (s : State) : (s.advance).pbound = s.pbound := rfl
@[simp] theorem State.advance_dbound (s : State) : (s.advance).dbound = s.dbound := rfl
@[simp] theorem State.advance_initRegs (s : State) : (s.advance).initRegs = s.initRegs := rfl
@[simp] theorem State.advance_initFlags (s : State) : (s.advance).initFlags = s.initFlags := rfl
@[simp] theorem State.advance_store (s : State) : (s.advance).store = s.store := rfl

@[simp] theorem State.setRegIf_flags (s : State) (on : Bool) (i : RegIx) (v : Word) : (s.setRegIf on i v).flags = s.flags := by cases on <;> rfl
@[simp] theorem State.setRegIf_run (s : State) (on : Bool) (i : RegIx) (v : Word) : (s.setRegIf on i v).run = s.run := by cases on <;> rfl
@[simp] theorem State.setRegIf_haltCause (s : State) (on : Bool) (i : RegIx) (v : Word) : (s.setRegIf on i v).haltCause = s.haltCause := by cases on <;> rfl
@[simp] theorem State.setRegIf_faultPc (s : State) (on : Bool) (i : RegIx) (v : Word) : (s.setRegIf on i v).faultPc = s.faultPc := by cases on <;> rfl
@[simp] theorem State.setRegIf_stopReq (s : State) (on : Bool) (i : RegIx) (v : Word) : (s.setRegIf on i v).stopReq = s.stopReq := by cases on <;> rfl
@[simp] theorem State.setRegIf_pbound (s : State) (on : Bool) (i : RegIx) (v : Word) : (s.setRegIf on i v).pbound = s.pbound := by cases on <;> rfl
@[simp] theorem State.setRegIf_dbound (s : State) (on : Bool) (i : RegIx) (v : Word) : (s.setRegIf on i v).dbound = s.dbound := by cases on <;> rfl
@[simp] theorem State.setRegIf_initRegs (s : State) (on : Bool) (i : RegIx) (v : Word) : (s.setRegIf on i v).initRegs = s.initRegs := by cases on <;> rfl
@[simp] theorem State.setRegIf_initFlags (s : State) (on : Bool) (i : RegIx) (v : Word) : (s.setRegIf on i v).initFlags = s.initFlags := by cases on <;> rfl
@[simp] theorem State.setRegIf_store (s : State) (on : Bool) (i : RegIx) (v : Word) : (s.setRegIf on i v).store = s.store := by cases on <;> rfl

@[simp] theorem State.setDataMem_regs (s : State) (m : Memory) : (s.setDataMem m).regs = s.regs := rfl
@[simp] theorem State.setDataMem_flags (s : State) (m : Memory) : (s.setDataMem m).flags = s.flags := rfl
@[simp] theorem State.setDataMem_run (s : State) (m : Memory) : (s.setDataMem m).run = s.run := rfl
@[simp] theorem State.setDataMem_haltCause (s : State) (m : Memory) : (s.setDataMem m).haltCause = s.haltCause := rfl
@[simp] theorem State.setDataMem_faultPc (s : State) (m : Memory) : (s.setDataMem m).faultPc = s.faultPc := rfl
@[simp] theorem State.setDataMem_stopReq (s : State) (m : Memory) : (s.setDataMem m).stopReq = s.stopReq := rfl
@[simp] theorem State.setDataMem_pbound (s : State) (m : Memory) : (s.setDataMem m).pbound = s.pbound := rfl
@[simp] theorem State.setDataMem_dbound (s : State) (m : Memory) : (s.setDataMem m).dbound = s.dbound := rfl
@[simp] theorem State.setDataMem_initRegs (s : State) (m : Memory) : (s.setDataMem m).initRegs = s.initRegs := rfl
@[simp] theorem State.setDataMem_initFlags (s : State) (m : Memory) : (s.setDataMem m).initFlags = s.initFlags := rfl
@[simp] theorem State.setDataMem_store (s : State) (m : Memory) : (s.setDataMem m).store = s.store.setData m := rfl

@[simp] theorem State.halt_regs (s : State) (c : HaltCause) : (s.halt c).regs = s.regs := rfl
@[simp] theorem State.halt_flags (s : State) (c : HaltCause) : (s.halt c).flags = s.flags := rfl
@[simp] theorem State.halt_run (s : State) (c : HaltCause) : (s.halt c).run = .halted := rfl
@[simp] theorem State.halt_haltCause (s : State) (c : HaltCause) : (s.halt c).haltCause = some c := rfl
@[simp] theorem State.halt_faultPc (s : State) (c : HaltCause) : (s.halt c).faultPc = s.faultPc := rfl
@[simp] theorem State.halt_stopReq (s : State) (c : HaltCause) : (s.halt c).stopReq = s.stopReq := rfl
@[simp] theorem State.halt_pbound (s : State) (c : HaltCause) : (s.halt c).pbound = s.pbound := rfl
@[simp] theorem State.halt_dbound (s : State) (c : HaltCause) : (s.halt c).dbound = s.dbound := rfl
@[simp] theorem State.halt_initRegs (s : State) (c : HaltCause) : (s.halt c).initRegs = s.initRegs := rfl
@[simp] theorem State.halt_initFlags (s : State) (c : HaltCause) : (s.halt c).initFlags = s.initFlags := rfl
@[simp] theorem State.halt_store (s : State) (c : HaltCause) : (s.halt c).store = s.store := rfl

@[simp] theorem State.raise_regs (s : State) (f : FaultInfo) (a : Word) : (s.raise f a).regs = s.regs := rfl
@[simp] theorem State.raise_flags (s : State) (f : FaultInfo) (a : Word) : (s.raise f a).flags = s.flags := rfl
@[simp] theorem State.raise_run (s : State) (f : FaultInfo) (a : Word) : (s.raise f a).run = .halted := rfl
@[simp] theorem State.raise_haltCause (s : State) (f : FaultInfo) (a : Word) : (s.raise f a).haltCause = some (.faulted f) := rfl
@[simp] theorem State.raise_faultPc (s : State) (f : FaultInfo) (a : Word) : (s.raise f a).faultPc = some a := rfl
@[simp] theorem State.raise_stopReq (s : State) (f : FaultInfo) (a : Word) : (s.raise f a).stopReq = s.stopReq := rfl
@[simp] theorem State.raise_pbound (s : State) (f : FaultInfo) (a : Word) : (s.raise f a).pbound = s.pbound := rfl
@[simp] theorem State.raise_dbound (s : State) (f : FaultInfo) (a : Word) : (s.raise f a).dbound = s.dbound := rfl
@[simp] theorem State.raise_initRegs (s : State) (f : FaultInfo) (a : Word) : (s.raise f a).initRegs = s.initRegs := rfl
@[simp] theorem State.raise_initFlags (s : State) (f : FaultInfo) (a : Word) : (s.raise f a).initFlags = s.initFlags := rfl
@[simp] theorem State.raise_store (s : State) (f : FaultInfo) (a : Word) : (s.raise f a).store = s.store := rfl

@[simp] theorem State.applyReset_regs (s : State) : (s.applyReset).regs = resetRegs s.initRegs := rfl
@[simp] theorem State.applyReset_flags (s : State) : (s.applyReset).flags = s.initFlags := rfl
@[simp] theorem State.applyReset_run (s : State) : (s.applyReset).run = .running := rfl
@[simp] theorem State.applyReset_haltCause (s : State) : (s.applyReset).haltCause = none := rfl
@[simp] theorem State.applyReset_faultPc (s : State) : (s.applyReset).faultPc = none := rfl
@[simp] theorem State.applyReset_stopReq (s : State) : (s.applyReset).stopReq = s.stopReq := rfl
@[simp] theorem State.applyReset_pbound (s : State) : (s.applyReset).pbound = s.pbound := rfl
@[simp] theorem State.applyReset_dbound (s : State) : (s.applyReset).dbound = s.dbound := rfl
@[simp] theorem State.applyReset_initRegs (s : State) : (s.applyReset).initRegs = s.initRegs := rfl
@[simp] theorem State.applyReset_initFlags (s : State) : (s.applyReset).initFlags = s.initFlags := rfl
@[simp] theorem State.applyReset_store (s : State) : (s.applyReset).store = s.store := rfl

@[simp] theorem State.placeWord_regs (s : State) (w : Word) : (s.placeWord w).regs = s.regs := rfl
@[simp] theorem State.placeWord_flags (s : State) (w : Word) : (s.placeWord w).flags = s.flags := rfl
@[simp] theorem State.placeWord_run (s : State) (w : Word) : (s.placeWord w).run = .running := rfl
@[simp] theorem State.placeWord_haltCause (s : State) (w : Word) : (s.placeWord w).haltCause = none := rfl
@[simp] theorem State.placeWord_faultPc (s : State) (w : Word) : (s.placeWord w).faultPc = none := rfl
@[simp] theorem State.placeWord_stopReq (s : State) (w : Word) : (s.placeWord w).stopReq = false := rfl
@[simp] theorem State.placeWord_pbound (s : State) (w : Word) : (s.placeWord w).pbound = s.pbound := rfl
@[simp] theorem State.placeWord_dbound (s : State) (w : Word) : (s.placeWord w).dbound = s.dbound := rfl
@[simp] theorem State.placeWord_initRegs (s : State) (w : Word) : (s.placeWord w).initRegs = s.initRegs := rfl
@[simp] theorem State.placeWord_initFlags (s : State) (w : Word) : (s.placeWord w).initFlags = s.initFlags := rfl
@[simp] theorem State.placeWord_store (s : State) (w : Word) : (s.placeWord w).store = s.store.setProg (s.progMem.setWord (resolveWord s.pbound s.pc) w) := rfl

/-! ## Memories after an update -/

@[simp] theorem Store.setData_data (st : Store) (m : Memory) : (st.setData m).data = m := by cases st <;> rfl
@[simp] theorem Store.setProg_prog (st : Store) (m : Memory) : (st.setProg m).prog = m := by cases st <;> rfl

@[simp] theorem State.setDataMem_dataMem (s : State) (m : Memory) : (s.setDataMem m).dataMem = m := Store.setData_data _ _
@[simp] theorem State.placeWord_progMem (s : State) (w : Word) :
    (s.placeWord w).progMem = s.progMem.setWord (resolveWord s.pbound s.pc) w := Store.setProg_prog _ _

@[simp] theorem State.setReg_progMem (s : State) (i : RegIx) (v : Word) : (s.setReg i v).progMem = s.progMem := rfl
@[simp] theorem State.setReg_dataMem (s : State) (i : RegIx) (v : Word) : (s.setReg i v).dataMem = s.dataMem := rfl
@[simp] theorem State.setPc_progMem (s : State) (v : Word) : (s.setPc v).progMem = s.progMem := rfl
@[simp] theorem State.setPc_dataMem (s : State) (v : Word) : (s.setPc v).dataMem = s.dataMem := rfl
@[simp] theorem State.setFlags_progMem (s : State) (f : Flags) : (s.setFlags f).progMem = s.progMem := rfl
@[simp] theorem State.setFlags_dataMem (s : State) (f : Flags) : (s.setFlags f).dataMem = s.dataMem := rfl
@[simp] theorem State.advance_progMem (s : State) : (s.advance).progMem = s.progMem := rfl
@[simp] theorem State.advance_dataMem (s : State) : (s.advance).dataMem = s.dataMem := rfl
@[simp] theorem State.setRegIf_progMem (s : State) (on : Bool) (i : RegIx) (v : Word) : (s.setRegIf on i v).progMem = s.progMem := by cases on <;> rfl
@[simp] theorem State.setRegIf_dataMem (s : State) (on : Bool) (i : RegIx) (v : Word) : (s.setRegIf on i v).dataMem = s.dataMem := by cases on <;> rfl
@[simp] theorem State.halt_progMem (s : State) (c : HaltCause) : (s.halt c).progMem = s.progMem := rfl
@[simp] theorem State.halt_dataMem (s : State) (c : HaltCause) : (s.halt c).dataMem = s.dataMem := rfl
@[simp] theorem State.raise_progMem (s : State) (f : FaultInfo) (a : Word) : (s.raise f a).progMem = s.progMem := rfl
@[simp] theorem State.raise_dataMem (s : State) (f : FaultInfo) (a : Word) : (s.raise f a).dataMem = s.dataMem := rfl
@[simp] theorem State.applyReset_progMem (s : State) : (s.applyReset).progMem = s.progMem := rfl
@[simp] theorem State.applyReset_dataMem (s : State) : (s.applyReset).dataMem = s.dataMem := rfl

/-! ## Registers after an update -/

/-- A register read after a register write (R22). -/
@[simp] theorem State.reg_setReg (s : State) (i j : RegIx) (v : Word) :
    (s.setReg i v).reg j = if j = i then v else s.reg j := by
  unfold State.reg State.setReg
  simp only [Vector.getElem_set, BitVec.toNat_inj]
  by_cases h : j = i
  · simp [h]
  · simp [h, Ne.symm h]

@[simp] theorem State.reg_setPc (s : State) (j : RegIx) (v : Word) :
    (s.setPc v).reg j = if j = pcIx then v else s.reg j := s.reg_setReg _ _ _

/-- The step's `+4` reaches the pc and no other register (R28). -/
@[simp] theorem State.reg_advance (s : State) (j : RegIx) :
    s.advance.reg j = if j = pcIx then s.pc + 4 else s.reg j := s.reg_setPc _ _

@[simp] theorem State.reg_setRegIf (s : State) (on : Bool) (i j : RegIx) (v : Word) :
    (s.setRegIf on i v).reg j = if on = true ∧ j = i then v else s.reg j := by
  cases on <;> simp [State.setRegIf]

@[simp] theorem State.reg_setFlags (s : State) (f : Flags) (j : RegIx) : (s.setFlags f).reg j = s.reg j := rfl
@[simp] theorem State.reg_setDataMem (s : State) (m : Memory) (j : RegIx) : (s.setDataMem m).reg j = s.reg j := rfl
@[simp] theorem State.reg_halt (s : State) (c : HaltCause) (j : RegIx) : (s.halt c).reg j = s.reg j := rfl
@[simp] theorem State.reg_raise (s : State) (f : FaultInfo) (a : Word) (j : RegIx) : (s.raise f a).reg j = s.reg j := rfl
@[simp] theorem State.reg_placeWord (s : State) (w : Word) (j : RegIx) : (s.placeWord w).reg j = s.reg j := rfl

/-- The pc is `x[15]` (R25). -/
theorem State.pc_eq_reg (s : State) : s.pc = s.reg pcIx := rfl

@[simp] theorem State.pc_setReg (s : State) (i : RegIx) (v : Word) :
    (s.setReg i v).pc = if pcIx = i then v else s.pc := s.reg_setReg _ _ _
@[simp] theorem State.pc_setRegIf (s : State) (on : Bool) (i : RegIx) (v : Word) :
    (s.setRegIf on i v).pc = if on = true ∧ pcIx = i then v else s.pc := s.reg_setRegIf _ _ _ _
@[simp] theorem State.pc_setPc (s : State) (v : Word) : (s.setPc v).pc = v := by simp [State.pc]
@[simp] theorem State.pc_advance (s : State) : s.advance.pc = s.pc + 4 := by simp [State.advance]
@[simp] theorem State.pc_setFlags (s : State) (f : Flags) : (s.setFlags f).pc = s.pc := rfl
@[simp] theorem State.pc_setDataMem (s : State) (m : Memory) : (s.setDataMem m).pc = s.pc := rfl
@[simp] theorem State.pc_halt (s : State) (c : HaltCause) : (s.halt c).pc = s.pc := rfl
@[simp] theorem State.pc_raise (s : State) (f : FaultInfo) (a : Word) : (s.raise f a).pc = s.pc := rfl
@[simp] theorem State.pc_placeWord (s : State) (w : Word) : (s.placeWord w).pc = s.pc := rfl

/-- Two states are equal when their registers, flags, run state, configuration and store are. -/
theorem State.eq_of_fields {s t : State} (hr : ∀ i, s.reg i = t.reg i) (hf : s.flags = t.flags) (hrun : s.run = t.run)
    (hc : s.haltCause = t.haltCause) (hp : s.faultPc = t.faultPc) (hs : s.stopReq = t.stopReq) (hpb : s.pbound = t.pbound)
    (hdb : s.dbound = t.dbound) (hir : s.initRegs = t.initRegs) (hif : s.initFlags = t.initFlags)
    (hst : s.store = t.store) : s = t := by
  have hregs : s.regs = t.regs := by
    apply Vector.ext
    intro k hk
    have h := hr (BitVec.ofNat 4 k)
    simpa [State.reg, Nat.mod_eq_of_lt hk] using h
  obtain ⟨⟨_⟩, _⟩ := s
  obtain ⟨⟨_⟩, _⟩ := t
  simp_all

end Sys2Proof.Machine
end

