-- ==== Sys2Proof/Laws/Access.lean ====
section
/-! SUPPORT. One lemma per access primitive: when an access through a Bound answers a value, what it answers, and which fault
it raises otherwise (spec 20_memory.md R53 to R61, R68). -/

namespace Sys2Proof.Machine

/-! ## Through a Bound -/

theorem checkWord_eq_none {m : Memory} {b : Bound} {addr : Word} :
    checkWord m b addr = none ↔
      addr.toNat % 4 = 0 ∧ b.low + addr.toNat ≤ b.high ∧ b.low + addr.toNat < m.capacity := by
  unfold checkWord checkResolved resolveWord
  repeat' split
  all_goals simp_all

theorem checkByte_eq_none {m : Memory} {b : Bound} {addr : Word} :
    checkByte m b addr = none ↔
      b.low + (addr.toNat - addr.toNat % 4) ≤ b.high ∧ b.low + (addr.toNat - addr.toNat % 4) < m.capacity := by
  unfold checkByte checkResolved resolveByte
  repeat' split
  all_goals simp_all

/-- A misaligned word access is refused as such, whatever the Bound (R54). -/
theorem checkWord_misaligned {m : Memory} {b : Bound} {addr : Word} (h : addr.toNat % 4 ≠ 0) :
    checkWord m b addr = some (.memoryAccess .misaligned addr) := by
  simp [checkWord, h]

/-- An aligned word access that fails is out of bounds (R55). -/
theorem checkWord_outOfBounds {m : Memory} {b : Bound} {addr : Word} (h : addr.toNat % 4 = 0)
    (h' : ¬(b.low + addr.toNat ≤ b.high ∧ b.low + addr.toNat < m.capacity)) :
    checkWord m b addr = some (.memoryAccess .outOfBounds addr) := by
  unfold checkWord checkResolved resolveWord
  repeat' split
  all_goals simp_all

/-- A byte access that fails is out of bounds (R54, R55). -/
theorem checkByte_outOfBounds {m : Memory} {b : Bound} {addr : Word}
    (h : ¬(b.low + (addr.toNat - addr.toNat % 4) ≤ b.high ∧ b.low + (addr.toNat - addr.toNat % 4) < m.capacity)) :
    checkByte m b addr = some (.memoryAccess .outOfBounds addr) := by
  unfold checkByte checkResolved resolveByte
  repeat' split
  all_goals simp_all

/-- The byte an accessible byte operation selects lies in its word, and so below the capacity (R58). -/
theorem storageByte_lt {c : Nat} {b : Bound} {addr : Word} (hc : capacityOk c) (hb : b.aligned)
    (h : b.low + (addr.toNat - addr.toNat % 4) < c) : storageByte b addr < c := by
  have := capacityOk_mod_four hc
  unfold storageByte
  simp only [Bound.aligned] at hb
  omega

/-! ## Writes keep the canonical form -/

theorem Memory.wf_writeWord {m m' : Memory} {b : Bound} {addr v : Word} (hc : capacityOk m.capacity) (hb : b.aligned)
    (hm : m.wf) (h : m.writeWord b addr v = .ok m') : m'.wf := by
  unfold Memory.writeWord at h
  split at h
  · cases h
  · next hn =>
    cases h
    have := checkWord_eq_none.1 hn
    exact Memory.wf_setWord hm (word_inside hc hb this.1 this.2.2) v

theorem Memory.wf_writeByte {m m' : Memory} {b : Bound} {addr : Word} {v : Byte} (hc : capacityOk m.capacity) (hb : b.aligned)
    (hm : m.wf) (h : m.writeByte b addr v = .ok m') : m'.wf := by
  unfold Memory.writeByte at h
  split at h
  · cases h
  · next hn =>
    cases h
    exact Memory.wf_setByte hm (storageByte_lt hc hb (checkByte_eq_none.1 hn).2) v

theorem reset_memory_wf : State.reset.progMem.wf ∧ State.reset.dataMem.wf := by decide

/-! ## The primitives on the state -/

theorem State.memRead4_ok {s : State} {addr : Word} (h : s.wordAccessible addr) :
    s.memRead4 addr = .ok (s.dataMem.word (s.dbound.low + addr.toNat)) := by
  simp only [State.memRead4, Memory.readWord, checkWord_eq_none.mpr h]
  rfl

theorem State.memRead4_misaligned {s : State} {addr : Word} (h : addr.toNat % 4 ≠ 0) :
    s.memRead4 addr = .error (.memoryAccess .misaligned addr) := by
  simp only [State.memRead4, Memory.readWord, checkWord_misaligned h]

theorem State.memRead4_outOfBounds {s : State} {addr : Word} (h : addr.toNat % 4 = 0) (h' : ¬s.wordAccessible addr) :
    s.memRead4 addr = .error (.memoryAccess .outOfBounds addr) := by
  have h' : ¬(s.dbound.low + addr.toNat ≤ s.dbound.high ∧ s.dbound.low + addr.toNat < s.dataMem.capacity) :=
    fun h2 => h' ⟨h, h2⟩
  simp only [State.memRead4, Memory.readWord, checkWord_outOfBounds h h']

theorem State.memRead1_ok {s : State} {addr : Word} (h : s.byteAccessible addr) :
    s.memRead1 addr = .ok (s.dataMem.byte (s.dbound.low + addr.toNat)) := by
  simp only [State.memRead1, Memory.readByte, checkByte_eq_none.mpr h]
  rfl

theorem State.memRead1_outOfBounds {s : State} {addr : Word} (h : ¬s.byteAccessible addr) :
    s.memRead1 addr = .error (.memoryAccess .outOfBounds addr) := by
  simp only [State.memRead1, Memory.readByte, checkByte_outOfBounds h]

theorem State.memRead2_ok {s : State} {addr : Word} (h : s.byteAccessible addr) (h' : s.byteAccessible (addr + 1)) :
    s.memRead2 addr =
      .ok (s.dataMem.byte (s.dbound.low + (addr + 1).toNat) ++ s.dataMem.byte (s.dbound.low + addr.toNat)) := by
  simp only [State.memRead2, State.memRead1_ok h, State.memRead1_ok h']

theorem State.memWrite4_ok {s : State} {addr : Word} (v : Word) (h : s.wordAccessible addr) :
    s.memWrite4 addr v = .ok (s.setDataMem (s.dataMem.setWord (s.dbound.low + addr.toNat) v)) := by
  simp only [State.memWrite4, Memory.writeWord, checkWord_eq_none.mpr h]
  rfl

theorem State.memWrite4_misaligned {s : State} {addr : Word} (v : Word) (h : addr.toNat % 4 ≠ 0) :
    s.memWrite4 addr v = .error (.memoryAccess .misaligned addr, s) := by
  simp only [State.memWrite4, Memory.writeWord, checkWord_misaligned h]

theorem State.memWrite4_outOfBounds {s : State} {addr : Word} (v : Word) (h : addr.toNat % 4 = 0)
    (h' : ¬s.wordAccessible addr) : s.memWrite4 addr v = .error (.memoryAccess .outOfBounds addr, s) := by
  have h' : ¬(s.dbound.low + addr.toNat ≤ s.dbound.high ∧ s.dbound.low + addr.toNat < s.dataMem.capacity) :=
    fun h2 => h' ⟨h, h2⟩
  simp only [State.memWrite4, Memory.writeWord, checkWord_outOfBounds h h']

theorem State.memWrite1_ok {s : State} {addr : Word} (v : Byte) (h : s.byteAccessible addr) :
    s.memWrite1 addr v = .ok (s.setDataMem (s.dataMem.setByte (s.dbound.low + addr.toNat) v)) := by
  simp only [State.memWrite1, Memory.writeByte, checkByte_eq_none.mpr h]
  rfl

theorem State.memWrite1_outOfBounds {s : State} {addr : Word} (v : Byte) (h : ¬s.byteAccessible addr) :
    s.memWrite1 addr v = .error (.memoryAccess .outOfBounds addr, s) := by
  simp only [State.memWrite1, Memory.writeByte, checkByte_outOfBounds h]

end Sys2Proof.Machine
end

