-- ==== Sys2Proof/Laws/Encoding.lean ====
section
/-! SUPPORT. The encoder, format by format: the condition, the fields and the leaf of an encoded word. -/

namespace Sys2Proof

/-- The bits of a placed field. -/
theorem getLsbD_place (lo : Nat) {k : Nat} (x : BitVec k) (i : Nat) :
    (place lo x).getLsbD i = (decide (i < 32) && decide (lo ≤ i) && x.getLsbD (i - lo)) := by
  unfold place
  rw [BitVec.getLsbD_shiftLeft, BitVec.getLsbD_setWidth]
  by_cases h : i < 32
  · by_cases h2 : i < lo
    · simp [h2, Nat.not_le.mpr h2]
    · simp [h, h2, Nat.not_lt.mp h2, show i - lo < 32 by omega]
  · simp [h]

@[simp] theorem Cond.ofBits_bits (c : Cond) : Cond.ofBits c.bits = some c := by cases c <;> rfl
@[simp] theorem ShiftType.ofBits_bits (t : ShiftType) : ShiftType.ofBits t.bits = t := by cases t <;> rfl
@[simp] theorem AluOp.ofBits_bits (a : AluOp) : AluOp.ofBits a.bits = a := by cases a <;> rfl

/-! ## The condition field -/

@[simp] theorem cond_encodeDPI (a : AluOp) (f : DPI) : (encodeDPI a f).extractLsb' 28 4 = f.cond.bits := by
  apply BitVec.eq_of_getLsbD_eq
  intro i hi
  simp only [encodeDPI, placeBit, BitVec.getLsbD_or, getLsbD_place, BitVec.getLsbD_extractLsb']
  interval_cases i <;> simp

@[simp] theorem cond_encodeDPR (a : AluOp) (f : DPR) : (encodeDPR a f).extractLsb' 28 4 = f.cond.bits := by
  apply BitVec.eq_of_getLsbD_eq
  intro i hi
  simp only [encodeDPR, placeBit, BitVec.getLsbD_or, getLsbD_place, BitVec.getLsbD_extractLsb']
  interval_cases i <;> simp

@[simp] theorem cond_encodeDPRS (a : AluOp) (f : DPRS) : (encodeDPRS a f).extractLsb' 28 4 = f.cond.bits := by
  apply BitVec.eq_of_getLsbD_eq
  intro i hi
  simp only [encodeDPRS, placeBit, BitVec.getLsbD_or, getLsbD_place, BitVec.getLsbD_extractLsb']
  interval_cases i <;> simp

@[simp] theorem cond_encodeBR (link : Bool) (f : BR) : (encodeBR link f).extractLsb' 28 4 = f.cond.bits := by
  apply BitVec.eq_of_getLsbD_eq
  intro i hi
  simp only [encodeBR, placeBit, BitVec.getLsbD_or, getLsbD_place, BitVec.getLsbD_extractLsb']
  interval_cases i <;> simp

@[simp] theorem cond_encodeBXR (f : BXR) : (encodeBXR f).extractLsb' 28 4 = f.cond.bits := by
  apply BitVec.eq_of_getLsbD_eq
  intro i hi
  simp only [encodeBXR, BitVec.getLsbD_or, getLsbD_place, BitVec.getLsbD_extractLsb']
  interval_cases i <;> simp

@[simp] theorem cond_encodeLSI (byte load : Bool) (f : LSI) : (encodeLSI byte load f).extractLsb' 28 4 = f.cond.bits := by
  apply BitVec.eq_of_getLsbD_eq
  intro i hi
  simp only [encodeLSI, placeBit, BitVec.getLsbD_or, getLsbD_place, BitVec.getLsbD_extractLsb']
  interval_cases i <;> simp

@[simp] theorem cond_encodeLSR (byte load : Bool) (f : LSR) : (encodeLSR byte load f).extractLsb' 28 4 = f.cond.bits := by
  apply BitVec.eq_of_getLsbD_eq
  intro i hi
  simp only [encodeLSR, placeBit, BitVec.getLsbD_or, getLsbD_place, BitVec.getLsbD_extractLsb']
  interval_cases i <;> simp

@[simp] theorem cond_encodeLSM (load : Bool) (f : LSM) : (encodeLSM load f).extractLsb' 28 4 = f.cond.bits := by
  apply BitVec.eq_of_getLsbD_eq
  intro i hi
  simp only [encodeLSM, placeBit, BitVec.getLsbD_or, getLsbD_place, BitVec.getLsbD_extractLsb']
  interval_cases i <;> simp

@[simp] theorem cond_encodeXLI (load : Bool) (sh : BitVec 2) (f : XLI) : (encodeXLI load sh f).extractLsb' 28 4 = f.cond.bits := by
  apply BitVec.eq_of_getLsbD_eq
  intro i hi
  simp only [encodeXLI, placeBit, BitVec.getLsbD_or, getLsbD_place, BitVec.getLsbD_extractLsb']
  interval_cases i <;> simp

@[simp] theorem cond_encodeXLR (load : Bool) (sh : BitVec 2) (f : XLR) : (encodeXLR load sh f).extractLsb' 28 4 = f.cond.bits := by
  apply BitVec.eq_of_getLsbD_eq
  intro i hi
  simp only [encodeXLR, placeBit, BitVec.getLsbD_or, getLsbD_place, BitVec.getLsbD_extractLsb']
  interval_cases i <;> simp

@[simp] theorem cond_encodeMULF (acc : Bool) (f : MULF) : (encodeMULF acc f).extractLsb' 28 4 = f.cond.bits := by
  apply BitVec.eq_of_getLsbD_eq
  intro i hi
  simp only [encodeMULF, placeBit, BitVec.getLsbD_or, getLsbD_place, BitVec.getLsbD_extractLsb']
  interval_cases i <;> simp

@[simp] theorem cond_encodeMULL (sg acc : Bool) (f : MULL) : (encodeMULL sg acc f).extractLsb' 28 4 = f.cond.bits := by
  apply BitVec.eq_of_getLsbD_eq
  intro i hi
  simp only [encodeMULL, placeBit, BitVec.getLsbD_or, getLsbD_place, BitVec.getLsbD_extractLsb']
  interval_cases i <;> simp

@[simp] theorem cond_encodeSWPF (byte : Bool) (f : SWPF) : (encodeSWPF byte f).extractLsb' 28 4 = f.cond.bits := by
  apply BitVec.eq_of_getLsbD_eq
  intro i hi
  simp only [encodeSWPF, placeBit, BitVec.getLsbD_or, getLsbD_place, BitVec.getLsbD_extractLsb']
  interval_cases i <;> simp

@[simp] theorem cond_encodeRefused (c : Cond) (row : BitVec 28) : (encodeRefused c row).extractLsb' 28 4 = c.bits := by
  apply BitVec.eq_of_getLsbD_eq
  intro i hi
  simp only [encodeRefused, BitVec.getLsbD_or, getLsbD_place, BitVec.getLsbD_extractLsb']
  interval_cases i <;> simp

/-! ## The fields -/

theorem s_encodeDPI (a : AluOp) (f : DPI) : (encodeDPI a f).getLsbD 20 = f.s := by
  simp only [encodeDPI, placeBit, BitVec.getLsbD_or, getLsbD_place]
  simp

theorem rn_encodeDPI (a : AluOp) (f : DPI) : (encodeDPI a f).extractLsb' 16 4 = f.rn := by
  apply BitVec.eq_of_getLsbD_eq
  intro i hi
  simp only [encodeDPI, placeBit, BitVec.getLsbD_or, getLsbD_place, BitVec.getLsbD_extractLsb']
  interval_cases i <;> simp

theorem rd_encodeDPI (a : AluOp) (f : DPI) : (encodeDPI a f).extractLsb' 12 4 = f.rd := by
  apply BitVec.eq_of_getLsbD_eq
  intro i hi
  simp only [encodeDPI, placeBit, BitVec.getLsbD_or, getLsbD_place, BitVec.getLsbD_extractLsb']
  interval_cases i <;> simp

theorem rot_encodeDPI (a : AluOp) (f : DPI) : (encodeDPI a f).extractLsb' 8 4 = f.rot := by
  apply BitVec.eq_of_getLsbD_eq
  intro i hi
  simp only [encodeDPI, placeBit, BitVec.getLsbD_or, getLsbD_place, BitVec.getLsbD_extractLsb']
  interval_cases i <;> simp

theorem imm8_encodeDPI (a : AluOp) (f : DPI) : (encodeDPI a f).extractLsb' 0 8 = f.imm8 := by
  apply BitVec.eq_of_getLsbD_eq
  intro i hi
  simp only [encodeDPI, placeBit, BitVec.getLsbD_or, getLsbD_place, BitVec.getLsbD_extractLsb']
  interval_cases i <;> simp

/-- Every field of the format comes back (no bit of the encoding is dropped). -/
@[simp] theorem fieldsDPI_encodeDPI (a : AluOp) (f : DPI) : fieldsDPI f.cond (encodeDPI a f) = f := by
  simp only [fieldsDPI, s_encodeDPI, rn_encodeDPI, rd_encodeDPI, rot_encodeDPI, imm8_encodeDPI]

theorem s_encodeDPR (a : AluOp) (f : DPR) : (encodeDPR a f).getLsbD 20 = f.s := by
  simp only [encodeDPR, placeBit, BitVec.getLsbD_or, getLsbD_place]
  simp

theorem rn_encodeDPR (a : AluOp) (f : DPR) : (encodeDPR a f).extractLsb' 16 4 = f.rn := by
  apply BitVec.eq_of_getLsbD_eq
  intro i hi
  simp only [encodeDPR, placeBit, BitVec.getLsbD_or, getLsbD_place, BitVec.getLsbD_extractLsb']
  interval_cases i <;> simp

theorem rd_encodeDPR (a : AluOp) (f : DPR) : (encodeDPR a f).extractLsb' 12 4 = f.rd := by
  apply BitVec.eq_of_getLsbD_eq
  intro i hi
  simp only [encodeDPR, placeBit, BitVec.getLsbD_or, getLsbD_place, BitVec.getLsbD_extractLsb']
  interval_cases i <;> simp

theorem shamt_encodeDPR (a : AluOp) (f : DPR) : (encodeDPR a f).extractLsb' 7 5 = f.shamt := by
  apply BitVec.eq_of_getLsbD_eq
  intro i hi
  simp only [encodeDPR, placeBit, BitVec.getLsbD_or, getLsbD_place, BitVec.getLsbD_extractLsb']
  interval_cases i <;> simp

theorem stype_encodeDPR (a : AluOp) (f : DPR) : (encodeDPR a f).extractLsb' 5 2 = f.stype.bits := by
  apply BitVec.eq_of_getLsbD_eq
  intro i hi
  simp only [encodeDPR, placeBit, BitVec.getLsbD_or, getLsbD_place, BitVec.getLsbD_extractLsb']
  interval_cases i <;> simp

theorem rm_encodeDPR (a : AluOp) (f : DPR) : (encodeDPR a f).extractLsb' 0 4 = f.rm := by
  apply BitVec.eq_of_getLsbD_eq
  intro i hi
  simp only [encodeDPR, placeBit, BitVec.getLsbD_or, getLsbD_place, BitVec.getLsbD_extractLsb']
  interval_cases i <;> simp

/-- Every field of the format comes back (no bit of the encoding is dropped). -/
@[simp] theorem fieldsDPR_encodeDPR (a : AluOp) (f : DPR) : fieldsDPR f.cond (encodeDPR a f) = f := by
  simp only [fieldsDPR, s_encodeDPR, rn_encodeDPR, rd_encodeDPR, shamt_encodeDPR, stype_encodeDPR, rm_encodeDPR, ShiftType.ofBits_bits]

theorem s_encodeDPRS (a : AluOp) (f : DPRS) : (encodeDPRS a f).getLsbD 20 = f.s := by
  simp only [encodeDPRS, placeBit, BitVec.getLsbD_or, getLsbD_place]
  simp

theorem rn_encodeDPRS (a : AluOp) (f : DPRS) : (encodeDPRS a f).extractLsb' 16 4 = f.rn := by
  apply BitVec.eq_of_getLsbD_eq
  intro i hi
  simp only [encodeDPRS, placeBit, BitVec.getLsbD_or, getLsbD_place, BitVec.getLsbD_extractLsb']
  interval_cases i <;> simp

theorem rd_encodeDPRS (a : AluOp) (f : DPRS) : (encodeDPRS a f).extractLsb' 12 4 = f.rd := by
  apply BitVec.eq_of_getLsbD_eq
  intro i hi
  simp only [encodeDPRS, placeBit, BitVec.getLsbD_or, getLsbD_place, BitVec.getLsbD_extractLsb']
  interval_cases i <;> simp

theorem rs_encodeDPRS (a : AluOp) (f : DPRS) : (encodeDPRS a f).extractLsb' 8 4 = f.rs := by
  apply BitVec.eq_of_getLsbD_eq
  intro i hi
  simp only [encodeDPRS, placeBit, BitVec.getLsbD_or, getLsbD_place, BitVec.getLsbD_extractLsb']
  interval_cases i <;> simp

theorem stype_encodeDPRS (a : AluOp) (f : DPRS) : (encodeDPRS a f).extractLsb' 5 2 = f.stype.bits := by
  apply BitVec.eq_of_getLsbD_eq
  intro i hi
  simp only [encodeDPRS, placeBit, BitVec.getLsbD_or, getLsbD_place, BitVec.getLsbD_extractLsb']
  interval_cases i <;> simp

theorem rm_encodeDPRS (a : AluOp) (f : DPRS) : (encodeDPRS a f).extractLsb' 0 4 = f.rm := by
  apply BitVec.eq_of_getLsbD_eq
  intro i hi
  simp only [encodeDPRS, placeBit, BitVec.getLsbD_or, getLsbD_place, BitVec.getLsbD_extractLsb']
  interval_cases i <;> simp

/-- Every field of the format comes back (no bit of the encoding is dropped). -/
@[simp] theorem fieldsDPRS_encodeDPRS (a : AluOp) (f : DPRS) : fieldsDPRS f.cond (encodeDPRS a f) = f := by
  simp only [fieldsDPRS, s_encodeDPRS, rn_encodeDPRS, rd_encodeDPRS, rs_encodeDPRS, stype_encodeDPRS, rm_encodeDPRS, ShiftType.ofBits_bits]

theorem imm24_encodeBR (link : Bool) (f : BR) : (encodeBR link f).extractLsb' 0 24 = f.imm24 := by
  apply BitVec.eq_of_getLsbD_eq
  intro i hi
  simp only [encodeBR, placeBit, BitVec.getLsbD_or, getLsbD_place, BitVec.getLsbD_extractLsb']
  interval_cases i <;> simp

/-- Every field of the format comes back (no bit of the encoding is dropped). -/
@[simp] theorem fieldsBR_encodeBR (link : Bool) (f : BR) : fieldsBR f.cond (encodeBR link f) = f := by
  simp only [fieldsBR, imm24_encodeBR]

theorem rm_encodeBXR (f : BXR) : (encodeBXR f).extractLsb' 0 4 = f.rm := by
  apply BitVec.eq_of_getLsbD_eq
  intro i hi
  simp only [encodeBXR, BitVec.getLsbD_or, getLsbD_place, BitVec.getLsbD_extractLsb']
  interval_cases i <;> simp

/-- Every field of the format comes back (no bit of the encoding is dropped). -/
@[simp] theorem fieldsBXR_encodeBXR (f : BXR) : fieldsBXR f.cond (encodeBXR f) = f := by
  simp only [fieldsBXR, rm_encodeBXR]

theorem p_encodeLSI (byte load : Bool) (f : LSI) : (encodeLSI byte load f).getLsbD 24 = f.p := by
  simp only [encodeLSI, placeBit, BitVec.getLsbD_or, getLsbD_place]
  simp

theorem u_encodeLSI (byte load : Bool) (f : LSI) : (encodeLSI byte load f).getLsbD 23 = f.u := by
  simp only [encodeLSI, placeBit, BitVec.getLsbD_or, getLsbD_place]
  simp

theorem w_encodeLSI (byte load : Bool) (f : LSI) : (encodeLSI byte load f).getLsbD 21 = f.w := by
  simp only [encodeLSI, placeBit, BitVec.getLsbD_or, getLsbD_place]
  simp

theorem rn_encodeLSI (byte load : Bool) (f : LSI) : (encodeLSI byte load f).extractLsb' 16 4 = f.rn := by
  apply BitVec.eq_of_getLsbD_eq
  intro i hi
  simp only [encodeLSI, placeBit, BitVec.getLsbD_or, getLsbD_place, BitVec.getLsbD_extractLsb']
  interval_cases i <;> simp

theorem rd_encodeLSI (byte load : Bool) (f : LSI) : (encodeLSI byte load f).extractLsb' 12 4 = f.rd := by
  apply BitVec.eq_of_getLsbD_eq
  intro i hi
  simp only [encodeLSI, placeBit, BitVec.getLsbD_or, getLsbD_place, BitVec.getLsbD_extractLsb']
  interval_cases i <;> simp

theorem imm12_encodeLSI (byte load : Bool) (f : LSI) : (encodeLSI byte load f).extractLsb' 0 12 = f.imm12 := by
  apply BitVec.eq_of_getLsbD_eq
  intro i hi
  simp only [encodeLSI, placeBit, BitVec.getLsbD_or, getLsbD_place, BitVec.getLsbD_extractLsb']
  interval_cases i <;> simp

/-- Every field of the format comes back (no bit of the encoding is dropped). -/
@[simp] theorem fieldsLSI_encodeLSI (byte load : Bool) (f : LSI) : fieldsLSI f.cond (encodeLSI byte load f) = f := by
  simp only [fieldsLSI, p_encodeLSI, u_encodeLSI, w_encodeLSI, rn_encodeLSI, rd_encodeLSI, imm12_encodeLSI]

theorem p_encodeLSR (byte load : Bool) (f : LSR) : (encodeLSR byte load f).getLsbD 24 = f.p := by
  simp only [encodeLSR, placeBit, BitVec.getLsbD_or, getLsbD_place]
  simp

theorem u_encodeLSR (byte load : Bool) (f : LSR) : (encodeLSR byte load f).getLsbD 23 = f.u := by
  simp only [encodeLSR, placeBit, BitVec.getLsbD_or, getLsbD_place]
  simp

theorem w_encodeLSR (byte load : Bool) (f : LSR) : (encodeLSR byte load f).getLsbD 21 = f.w := by
  simp only [encodeLSR, placeBit, BitVec.getLsbD_or, getLsbD_place]
  simp

theorem rn_encodeLSR (byte load : Bool) (f : LSR) : (encodeLSR byte load f).extractLsb' 16 4 = f.rn := by
  apply BitVec.eq_of_getLsbD_eq
  intro i hi
  simp only [encodeLSR, placeBit, BitVec.getLsbD_or, getLsbD_place, BitVec.getLsbD_extractLsb']
  interval_cases i <;> simp

theorem rd_encodeLSR (byte load : Bool) (f : LSR) : (encodeLSR byte load f).extractLsb' 12 4 = f.rd := by
  apply BitVec.eq_of_getLsbD_eq
  intro i hi
  simp only [encodeLSR, placeBit, BitVec.getLsbD_or, getLsbD_place, BitVec.getLsbD_extractLsb']
  interval_cases i <;> simp

theorem shamt_encodeLSR (byte load : Bool) (f : LSR) : (encodeLSR byte load f).extractLsb' 7 5 = f.shamt := by
  apply BitVec.eq_of_getLsbD_eq
  intro i hi
  simp only [encodeLSR, placeBit, BitVec.getLsbD_or, getLsbD_place, BitVec.getLsbD_extractLsb']
  interval_cases i <;> simp

theorem stype_encodeLSR (byte load : Bool) (f : LSR) : (encodeLSR byte load f).extractLsb' 5 2 = f.stype.bits := by
  apply BitVec.eq_of_getLsbD_eq
  intro i hi
  simp only [encodeLSR, placeBit, BitVec.getLsbD_or, getLsbD_place, BitVec.getLsbD_extractLsb']
  interval_cases i <;> simp

theorem rm_encodeLSR (byte load : Bool) (f : LSR) : (encodeLSR byte load f).extractLsb' 0 4 = f.rm := by
  apply BitVec.eq_of_getLsbD_eq
  intro i hi
  simp only [encodeLSR, placeBit, BitVec.getLsbD_or, getLsbD_place, BitVec.getLsbD_extractLsb']
  interval_cases i <;> simp

/-- Every field of the format comes back (no bit of the encoding is dropped). -/
@[simp] theorem fieldsLSR_encodeLSR (byte load : Bool) (f : LSR) : fieldsLSR f.cond (encodeLSR byte load f) = f := by
  simp only [fieldsLSR, p_encodeLSR, u_encodeLSR, w_encodeLSR, rn_encodeLSR, rd_encodeLSR, shamt_encodeLSR, stype_encodeLSR, rm_encodeLSR, ShiftType.ofBits_bits]

theorem p_encodeLSM (load : Bool) (f : LSM) : (encodeLSM load f).getLsbD 24 = f.p := by
  simp only [encodeLSM, placeBit, BitVec.getLsbD_or, getLsbD_place]
  simp

theorem u_encodeLSM (load : Bool) (f : LSM) : (encodeLSM load f).getLsbD 23 = f.u := by
  simp only [encodeLSM, placeBit, BitVec.getLsbD_or, getLsbD_place]
  simp

theorem w_encodeLSM (load : Bool) (f : LSM) : (encodeLSM load f).getLsbD 21 = f.w := by
  simp only [encodeLSM, placeBit, BitVec.getLsbD_or, getLsbD_place]
  simp

theorem rn_encodeLSM (load : Bool) (f : LSM) : (encodeLSM load f).extractLsb' 16 4 = f.rn := by
  apply BitVec.eq_of_getLsbD_eq
  intro i hi
  simp only [encodeLSM, placeBit, BitVec.getLsbD_or, getLsbD_place, BitVec.getLsbD_extractLsb']
  interval_cases i <;> simp

theorem reglist_encodeLSM (load : Bool) (f : LSM) : (encodeLSM load f).extractLsb' 0 16 = f.reglist := by
  apply BitVec.eq_of_getLsbD_eq
  intro i hi
  simp only [encodeLSM, placeBit, BitVec.getLsbD_or, getLsbD_place, BitVec.getLsbD_extractLsb']
  interval_cases i <;> simp

/-- Every field of the format comes back (no bit of the encoding is dropped). -/
@[simp] theorem fieldsLSM_encodeLSM (load : Bool) (f : LSM) : fieldsLSM f.cond (encodeLSM load f) = f := by
  simp only [fieldsLSM, p_encodeLSM, u_encodeLSM, w_encodeLSM, rn_encodeLSM, reglist_encodeLSM]

theorem p_encodeXLI (load : Bool) (sh : BitVec 2) (f : XLI) : (encodeXLI load sh f).getLsbD 24 = f.p := by
  simp only [encodeXLI, placeBit, BitVec.getLsbD_or, getLsbD_place]
  simp

theorem u_encodeXLI (load : Bool) (sh : BitVec 2) (f : XLI) : (encodeXLI load sh f).getLsbD 23 = f.u := by
  simp only [encodeXLI, placeBit, BitVec.getLsbD_or, getLsbD_place]
  simp

theorem w_encodeXLI (load : Bool) (sh : BitVec 2) (f : XLI) : (encodeXLI load sh f).getLsbD 21 = f.w := by
  simp only [encodeXLI, placeBit, BitVec.getLsbD_or, getLsbD_place]
  simp

theorem rn_encodeXLI (load : Bool) (sh : BitVec 2) (f : XLI) : (encodeXLI load sh f).extractLsb' 16 4 = f.rn := by
  apply BitVec.eq_of_getLsbD_eq
  intro i hi
  simp only [encodeXLI, placeBit, BitVec.getLsbD_or, getLsbD_place, BitVec.getLsbD_extractLsb']
  interval_cases i <;> simp

theorem rd_encodeXLI (load : Bool) (sh : BitVec 2) (f : XLI) : (encodeXLI load sh f).extractLsb' 12 4 = f.rd := by
  apply BitVec.eq_of_getLsbD_eq
  intro i hi
  simp only [encodeXLI, placeBit, BitVec.getLsbD_or, getLsbD_place, BitVec.getLsbD_extractLsb']
  interval_cases i <;> simp

theorem immH_encodeXLI (load : Bool) (sh : BitVec 2) (f : XLI) : (encodeXLI load sh f).extractLsb' 8 4 = f.immH := by
  apply BitVec.eq_of_getLsbD_eq
  intro i hi
  simp only [encodeXLI, placeBit, BitVec.getLsbD_or, getLsbD_place, BitVec.getLsbD_extractLsb']
  interval_cases i <;> simp

theorem immL_encodeXLI (load : Bool) (sh : BitVec 2) (f : XLI) : (encodeXLI load sh f).extractLsb' 0 4 = f.immL := by
  apply BitVec.eq_of_getLsbD_eq
  intro i hi
  simp only [encodeXLI, placeBit, BitVec.getLsbD_or, getLsbD_place, BitVec.getLsbD_extractLsb']
  interval_cases i <;> simp

/-- Every field of the format comes back (no bit of the encoding is dropped). -/
@[simp] theorem fieldsXLI_encodeXLI (load : Bool) (sh : BitVec 2) (f : XLI) : fieldsXLI f.cond (encodeXLI load sh f) = f := by
  simp only [fieldsXLI, p_encodeXLI, u_encodeXLI, w_encodeXLI, rn_encodeXLI, rd_encodeXLI, immH_encodeXLI, immL_encodeXLI]

theorem p_encodeXLR (load : Bool) (sh : BitVec 2) (f : XLR) : (encodeXLR load sh f).getLsbD 24 = f.p := by
  simp only [encodeXLR, placeBit, BitVec.getLsbD_or, getLsbD_place]
  simp

theorem u_encodeXLR (load : Bool) (sh : BitVec 2) (f : XLR) : (encodeXLR load sh f).getLsbD 23 = f.u := by
  simp only [encodeXLR, placeBit, BitVec.getLsbD_or, getLsbD_place]
  simp

theorem w_encodeXLR (load : Bool) (sh : BitVec 2) (f : XLR) : (encodeXLR load sh f).getLsbD 21 = f.w := by
  simp only [encodeXLR, placeBit, BitVec.getLsbD_or, getLsbD_place]
  simp

theorem rn_encodeXLR (load : Bool) (sh : BitVec 2) (f : XLR) : (encodeXLR load sh f).extractLsb' 16 4 = f.rn := by
  apply BitVec.eq_of_getLsbD_eq
  intro i hi
  simp only [encodeXLR, placeBit, BitVec.getLsbD_or, getLsbD_place, BitVec.getLsbD_extractLsb']
  interval_cases i <;> simp

theorem rd_encodeXLR (load : Bool) (sh : BitVec 2) (f : XLR) : (encodeXLR load sh f).extractLsb' 12 4 = f.rd := by
  apply BitVec.eq_of_getLsbD_eq
  intro i hi
  simp only [encodeXLR, placeBit, BitVec.getLsbD_or, getLsbD_place, BitVec.getLsbD_extractLsb']
  interval_cases i <;> simp

theorem rm_encodeXLR (load : Bool) (sh : BitVec 2) (f : XLR) : (encodeXLR load sh f).extractLsb' 0 4 = f.rm := by
  apply BitVec.eq_of_getLsbD_eq
  intro i hi
  simp only [encodeXLR, placeBit, BitVec.getLsbD_or, getLsbD_place, BitVec.getLsbD_extractLsb']
  interval_cases i <;> simp

/-- Every field of the format comes back (no bit of the encoding is dropped). -/
@[simp] theorem fieldsXLR_encodeXLR (load : Bool) (sh : BitVec 2) (f : XLR) : fieldsXLR f.cond (encodeXLR load sh f) = f := by
  simp only [fieldsXLR, p_encodeXLR, u_encodeXLR, w_encodeXLR, rn_encodeXLR, rd_encodeXLR, rm_encodeXLR]

theorem s_encodeMULF (acc : Bool) (f : MULF) : (encodeMULF acc f).getLsbD 20 = f.s := by
  simp only [encodeMULF, placeBit, BitVec.getLsbD_or, getLsbD_place]
  simp

theorem rd_encodeMULF (acc : Bool) (f : MULF) : (encodeMULF acc f).extractLsb' 16 4 = f.rd := by
  apply BitVec.eq_of_getLsbD_eq
  intro i hi
  simp only [encodeMULF, placeBit, BitVec.getLsbD_or, getLsbD_place, BitVec.getLsbD_extractLsb']
  interval_cases i <;> simp

theorem rn_encodeMULF (acc : Bool) (f : MULF) : (encodeMULF acc f).extractLsb' 12 4 = f.rn := by
  apply BitVec.eq_of_getLsbD_eq
  intro i hi
  simp only [encodeMULF, placeBit, BitVec.getLsbD_or, getLsbD_place, BitVec.getLsbD_extractLsb']
  interval_cases i <;> simp

theorem rs_encodeMULF (acc : Bool) (f : MULF) : (encodeMULF acc f).extractLsb' 8 4 = f.rs := by
  apply BitVec.eq_of_getLsbD_eq
  intro i hi
  simp only [encodeMULF, placeBit, BitVec.getLsbD_or, getLsbD_place, BitVec.getLsbD_extractLsb']
  interval_cases i <;> simp

theorem rm_encodeMULF (acc : Bool) (f : MULF) : (encodeMULF acc f).extractLsb' 0 4 = f.rm := by
  apply BitVec.eq_of_getLsbD_eq
  intro i hi
  simp only [encodeMULF, placeBit, BitVec.getLsbD_or, getLsbD_place, BitVec.getLsbD_extractLsb']
  interval_cases i <;> simp

/-- Every field of the format comes back (no bit of the encoding is dropped). -/
@[simp] theorem fieldsMULF_encodeMULF (acc : Bool) (f : MULF) : fieldsMULF f.cond (encodeMULF acc f) = f := by
  simp only [fieldsMULF, s_encodeMULF, rd_encodeMULF, rn_encodeMULF, rs_encodeMULF, rm_encodeMULF]

theorem s_encodeMULL (sg acc : Bool) (f : MULL) : (encodeMULL sg acc f).getLsbD 20 = f.s := by
  simp only [encodeMULL, placeBit, BitVec.getLsbD_or, getLsbD_place]
  simp

theorem rdHi_encodeMULL (sg acc : Bool) (f : MULL) : (encodeMULL sg acc f).extractLsb' 16 4 = f.rdHi := by
  apply BitVec.eq_of_getLsbD_eq
  intro i hi
  simp only [encodeMULL, placeBit, BitVec.getLsbD_or, getLsbD_place, BitVec.getLsbD_extractLsb']
  interval_cases i <;> simp

theorem rdLo_encodeMULL (sg acc : Bool) (f : MULL) : (encodeMULL sg acc f).extractLsb' 12 4 = f.rdLo := by
  apply BitVec.eq_of_getLsbD_eq
  intro i hi
  simp only [encodeMULL, placeBit, BitVec.getLsbD_or, getLsbD_place, BitVec.getLsbD_extractLsb']
  interval_cases i <;> simp

theorem rs_encodeMULL (sg acc : Bool) (f : MULL) : (encodeMULL sg acc f).extractLsb' 8 4 = f.rs := by
  apply BitVec.eq_of_getLsbD_eq
  intro i hi
  simp only [encodeMULL, placeBit, BitVec.getLsbD_or, getLsbD_place, BitVec.getLsbD_extractLsb']
  interval_cases i <;> simp

theorem rm_encodeMULL (sg acc : Bool) (f : MULL) : (encodeMULL sg acc f).extractLsb' 0 4 = f.rm := by
  apply BitVec.eq_of_getLsbD_eq
  intro i hi
  simp only [encodeMULL, placeBit, BitVec.getLsbD_or, getLsbD_place, BitVec.getLsbD_extractLsb']
  interval_cases i <;> simp

/-- Every field of the format comes back (no bit of the encoding is dropped). -/
@[simp] theorem fieldsMULL_encodeMULL (sg acc : Bool) (f : MULL) : fieldsMULL f.cond (encodeMULL sg acc f) = f := by
  simp only [fieldsMULL, s_encodeMULL, rdHi_encodeMULL, rdLo_encodeMULL, rs_encodeMULL, rm_encodeMULL]

theorem rn_encodeSWPF (byte : Bool) (f : SWPF) : (encodeSWPF byte f).extractLsb' 16 4 = f.rn := by
  apply BitVec.eq_of_getLsbD_eq
  intro i hi
  simp only [encodeSWPF, placeBit, BitVec.getLsbD_or, getLsbD_place, BitVec.getLsbD_extractLsb']
  interval_cases i <;> simp

theorem rd_encodeSWPF (byte : Bool) (f : SWPF) : (encodeSWPF byte f).extractLsb' 12 4 = f.rd := by
  apply BitVec.eq_of_getLsbD_eq
  intro i hi
  simp only [encodeSWPF, placeBit, BitVec.getLsbD_or, getLsbD_place, BitVec.getLsbD_extractLsb']
  interval_cases i <;> simp

theorem rm_encodeSWPF (byte : Bool) (f : SWPF) : (encodeSWPF byte f).extractLsb' 0 4 = f.rm := by
  apply BitVec.eq_of_getLsbD_eq
  intro i hi
  simp only [encodeSWPF, placeBit, BitVec.getLsbD_or, getLsbD_place, BitVec.getLsbD_extractLsb']
  interval_cases i <;> simp

/-- Every field of the format comes back (no bit of the encoding is dropped). -/
@[simp] theorem fieldsSWPF_encodeSWPF (byte : Bool) (f : SWPF) : fieldsSWPF f.cond (encodeSWPF byte f) = f := by
  simp only [fieldsSWPF, rn_encodeSWPF, rd_encodeSWPF, rm_encodeSWPF]

end Sys2Proof
end

