-- ==== Sys2Proof/Laws/Kept.lean ====
section
/-! SUPPORT. What an instruction can do, said once: `exec_ended`. Whatever the instruction, it leaves the configuration, the
stop input, the run state and the program Memory (when it is a Memory of its own) as they were, writes data memory inside
the data window only, and ends by an advance of the pc, a branch, or a raise at its own pc. -/

namespace Sys2Proof.Machine

/-- `m'` is `m` after writes through the Bound `b`: same capacity, no byte outside the window's reach changed, and the
canonical form kept when the configuration is sound. -/
structure MemKept (b : Bound) (m m' : Memory) : Prop where
  capacity : m'.capacity = m.capacity
  outside  : ∀ a, ¬windowReaches b a → m'.byte a = m.byte a
  rising   : rising m.cells → rising m'.cells
  wf       : capacityOk m.capacity → b.aligned → m.wf → m'.wf

theorem MemKept.refl (b : Bound) (m : Memory) : MemKept b m m := ⟨rfl, fun _ _ => rfl, id, fun _ _ h => h⟩

theorem MemKept.trans {b : Bound} {m m' m'' : Memory} (h : MemKept b m m') (h' : MemKept b m' m'') : MemKept b m m'' :=
  ⟨h'.capacity.trans h.capacity, fun a ha => (h'.outside a ha).trans (h.outside a ha), h'.rising ∘ h.rising,
    fun hc hb hm => h'.wf (h.capacity ▸ hc) hb (h.wf hc hb hm)⟩

theorem MemKept.setWord {b : Bound} {m : Memory} {addr : Word} (v : Word) (ha : addr.toNat % 4 = 0)
    (hh : b.low + addr.toNat ≤ b.high) (hc : b.low + addr.toNat < m.capacity) :
    MemKept b m (m.setWord (b.low + addr.toNat) v) where
  capacity := rfl
  outside a h := m.byte_setWord_ne v (by unfold windowReaches at h; omega)
  rising h := Memory.rising_setWord h _ _
  wf hcap hb h := Memory.wf_setWord h (word_inside hcap hb ha hc) v

theorem MemKept.setByte {b : Bound} {m : Memory} {addr : Word} (v : Byte)
    (hh : b.low + (addr.toNat - addr.toNat % 4) ≤ b.high) (hc : b.low + (addr.toNat - addr.toNat % 4) < m.capacity) :
    MemKept b m (m.setByte (b.low + addr.toNat) v) where
  capacity := rfl
  outside a h := m.byte_setByte_ne v (by unfold windowReaches at h; omega)
  rising h := Memory.rising_setByte h _ _
  wf hcap hb h := Memory.wf_setByte h (storageByte_lt hcap hb hc) v

/-- What the body of an instruction leaves as it was. -/
structure Kept (s t : State) : Prop where
  stopReq   : t.stopReq = s.stopReq
  pbound    : t.pbound = s.pbound
  dbound    : t.dbound = s.dbound
  initRegs  : t.initRegs = s.initRegs
  initFlags : t.initFlags = s.initFlags
  run       : t.run = s.run
  haltCause : t.haltCause = s.haltCause
  faultPc   : t.faultPc = s.faultPc
  store     : t.store = s.store.setData t.dataMem
  mem       : MemKept s.dbound s.dataMem t.dataMem

@[simp] theorem Store.setData_self (st : Store) : st.setData st.data = st := by cases st <;> rfl
@[simp] theorem Store.setData_setData (st : Store) (m m' : Memory) : (st.setData m).setData m' = st.setData m' := by
  cases st <;> rfl

theorem Kept.refl (s : State) : Kept s s :=
  ⟨rfl, rfl, rfl, rfl, rfl, rfl, rfl, rfl, (Store.setData_self s.store).symm, .refl _ _⟩

theorem Kept.trans {s t u : State} (h : Kept s t) (h' : Kept t u) : Kept s u where
  stopReq := h'.stopReq.trans h.stopReq
  pbound := h'.pbound.trans h.pbound
  dbound := h'.dbound.trans h.dbound
  initRegs := h'.initRegs.trans h.initRegs
  initFlags := h'.initFlags.trans h.initFlags
  run := h'.run.trans h.run
  haltCause := h'.haltCause.trans h.haltCause
  faultPc := h'.faultPc.trans h.faultPc
  store := by rw [h'.store, h.store, Store.setData_setData]
  mem := h.mem.trans (h.dbound ▸ h'.mem)

/-- An update of registers and flags keeps everything `Kept` speaks of. -/
theorem Kept.of_regs_flags {s t : State}
    (h : ∃ regs flags, t = { s with regs := regs, flags := flags }) : Kept s t := by
  obtain ⟨regs, flags, rfl⟩ := h
  exact ⟨rfl, rfl, rfl, rfl, rfl, rfl, rfl, rfl, (Store.setData_self s.store).symm, .refl _ _⟩

theorem Kept.setReg (s : State) (i : RegIx) (v : Word) : Kept s (s.setReg i v) := .of_regs_flags ⟨_, _, rfl⟩
theorem Kept.setPc (s : State) (v : Word) : Kept s (s.setPc v) := .of_regs_flags ⟨_, _, rfl⟩
theorem Kept.setFlags (s : State) (f : Flags) : Kept s (s.setFlags f) := .of_regs_flags ⟨_, _, rfl⟩
theorem Kept.advance (s : State) : Kept s s.advance := .of_regs_flags ⟨_, _, rfl⟩
theorem Kept.setRegIf (s : State) (on : Bool) (i : RegIx) (v : Word) : Kept s (s.setRegIf on i v) := by
  cases on
  · exact .refl s
  · exact .setReg s i v

theorem Kept.setDataMem {s : State} {m : Memory} (h : MemKept s.dbound s.dataMem m) : Kept s (s.setDataMem m) := by
  refine ⟨rfl, rfl, rfl, rfl, rfl, rfl, rfl, rfl, ?_, ?_⟩ <;> simp [h]

/-! ## The writes -/

/-- A write that answers a state, or raises in one, keeps everything but data memory inside the window, and no register. -/
abbrev KeptWrite (s : State) (r : Except Raised State) : Prop :=
  match r with
  | .ok t => Kept s t ∧ t.regs = s.regs ∧ t.flags = s.flags
  | .error (_, t) => Kept s t ∧ t.regs = s.regs ∧ t.flags = s.flags

theorem keptWrite_memWrite4 (s : State) (addr v : Word) : KeptWrite s (s.memWrite4 addr v) := by
  by_cases ha : addr.toNat % 4 = 0
  · by_cases h : s.wordAccessible addr
    · rw [State.memWrite4_ok v h]
      exact ⟨.setDataMem (.setWord v ha h.2.1 h.2.2), rfl, rfl⟩
    · rw [State.memWrite4_outOfBounds v ha h]
      exact ⟨.refl s, rfl, rfl⟩
  · rw [State.memWrite4_misaligned v ha]
    exact ⟨.refl s, rfl, rfl⟩

theorem keptWrite_memWrite1 (s : State) (addr : Word) (v : Byte) : KeptWrite s (s.memWrite1 addr v) := by
  by_cases h : s.byteAccessible addr
  · rw [State.memWrite1_ok v h]
    exact ⟨.setDataMem (.setByte v h.1 h.2), rfl, rfl⟩
  · rw [State.memWrite1_outOfBounds v h]
    exact ⟨.refl s, rfl, rfl⟩

theorem KeptWrite.trans {s t : State} {r : Except Raised State} (h : Kept s t ∧ t.regs = s.regs ∧ t.flags = s.flags)
    (h' : KeptWrite t r) : KeptWrite s r := by
  unfold KeptWrite at h' ⊢
  split <;> simp_all
  · exact h.1.trans h'.1
  · exact h.1.trans h'.1

theorem keptWrite_memWrite2 (s : State) (addr : Word) (v : Half) : KeptWrite s (s.memWrite2 addr v) := by
  unfold State.memWrite2
  have h := keptWrite_memWrite1 s addr (v.extractLsb' 0 8)
  split
  · next r heq => rw [heq] at h; exact h
  · next t heq =>
    rw [heq] at h
    exact .trans h (keptWrite_memWrite1 t _ _)

/-! ## The bodies -/

/-- What a body leaves as it was; at a raise the pc is still the instruction's own (R284). -/
abbrev KeptBody (s : State) (b : Body) : Prop :=
  match b with
  | .done t => Kept s t
  | .branched t => Kept s t
  | .raised _ t => Kept s t ∧ t.pc = s.pc

theorem keptBody_dataWrite (alu : Word → Word → Flags → AluOut) (upd : Bool) (rn rd : RegIx) (op2 : State → Word)
    (s : State) : KeptBody s (dataWrite alu upd rn rd op2 s) := by
  cases upd
  · exact .setReg s rd _
  · exact (Kept.setReg s rd _).trans (.setFlags _ _)

theorem keptBody_dataTest (alu : Word → Word → Flags → AluOut) (rn : RegIx) (op2 : State → Word) (s : State) :
    KeptBody s (dataTest alu rn op2 s) := .setFlags s _

theorem keptBody_loadBody (read : State → Word → Except FaultInfo Word) (p u w : Bool) (rn rd : RegIx)
    (off : State → Word) (s : State) : KeptBody s (loadBody read p u w rn rd off s) := by
  simp only [loadBody]
  split
  · exact ⟨.refl s, rfl⟩
  · exact (Kept.setRegIf s _ _ _).trans (.setReg _ _ _)

/-- Registers that are unchanged leave the pc unchanged. -/
theorem pc_eq_of_regs {s t : State} (h : t.regs = s.regs) : t.pc = s.pc := by simp [State.pc, State.reg, h]

theorem keptBody_storeBody (write : State → Word → Word → Except Raised State)
    (hw : ∀ s addr v, KeptWrite s (write s addr v)) (p u w : Bool) (rn rd : RegIx) (off : State → Word) (s : State) :
    KeptBody s (storeBody write p u w rn rd off s) := by
  simp only [storeBody]
  have h := hw s (resolve p u w (s.reg rn) (off s)).addr (s.reg rd)
  split <;> next heq => rw [heq] at h; first | exact ⟨h.1, pc_eq_of_regs h.2.1⟩ | exact h.1.trans (.setRegIf _ _ _ _)

/-- What the walk keeps: everything `Kept` speaks of, and at a raise the pc, because `x[15]` is the last register. -/
abbrev KeptWalk (s : State) (r : Except Raised (Word × State)) : Prop :=
  match r with
  | .ok (_, t) => Kept s t
  | .error (_, t) => Kept s t ∧ t.pc = s.pc

/-- A transfer keeps everything; unless it is `x[15]`'s it keeps the pc, and a raise always does. -/
abbrev KeptTransfer (s : State) (k : RegIx) (r : Except Raised State) : Prop :=
  match r with
  | .ok t => Kept s t ∧ (k ≠ pcIx → t.pc = s.pc)
  | .error (_, t) => Kept s t ∧ t.pc = s.pc

theorem keptTransfer_load (s : State) (k : RegIx) (addr : Word) : KeptTransfer s k (loadTransfer s k addr) := by
  simp only [loadTransfer]
  split
  · exact ⟨.refl s, rfl⟩
  · exact ⟨.setReg s k _, fun hk => by simp [Ne.symm hk]⟩

theorem keptTransfer_store (s : State) (k : RegIx) (addr : Word) : KeptTransfer s k (storeTransfer s k addr) := by
  have h := keptWrite_memWrite4 s addr (s.reg k)
  simp only [storeTransfer]
  unfold KeptTransfer
  split <;> next heq => rw [heq] at h; first | exact ⟨h.1, pc_eq_of_regs h.2.1⟩ | exact ⟨h.1, fun _ => pc_eq_of_regs h.2.1⟩

theorem keptWalk_walk (transfer : State → RegIx → Word → Except Raised State)
    (ht : ∀ s k addr, KeptTransfer s k (transfer s k addr)) (p u : Bool) (reglist : BitVec 16) (ks : List RegIx)
    (hks : pcIx ∉ ks.dropLast) (addr : Word) (s : State) : KeptWalk s (walk transfer p u reglist ks addr s) := by
  induction ks generalizing addr s with
  | nil => exact Kept.refl s
  | cons k rest ih =>
    have hrest : pcIx ∉ rest.dropLast := by
      cases rest with
      | nil => simp
      | cons _ _ => exact fun h => hks (by simp_all [List.dropLast])
    simp only [walk]
    split
    · have h := ht s k (if p then stepAddr u addr else addr)
      split
      · next heq => rw [heq] at h; exact h
      · next t heq =>
        rw [heq] at h
        cases rest with
        | nil => exact h.1
        | cons k' rest' =>
          have hk : k ≠ pcIx := fun hk => hks (by simp [List.dropLast, hk])
          have h2 := ih hrest (stepAddr u addr) t
          unfold KeptWalk at h2 ⊢
          split <;> next heq2 =>
            rw [heq2] at h2
            first | exact ⟨h.1.trans h2.1, h2.2.trans (h.2 hk)⟩ | exact h.1.trans h2
    · exact ih hrest addr s

theorem keptBody_multiple (transfer : State → RegIx → Word → Except Raised State)
    (ht : ∀ s k addr, KeptTransfer s k (transfer s k addr)) (f : LSM) (s : State) :
    KeptBody s (multipleBody transfer f s) := by
  have h := keptWalk_walk transfer ht f.p f.u f.reglist allRegs (by decide) (s.reg f.rn) s
  simp only [multipleBody]
  split <;> next heq => rw [heq] at h; first | exact h | exact Kept.trans h (.setRegIf _ _ _ _)

theorem keptBody_mulWrite (upd : Bool) (rd : RegIx) (r : Word) (s : State) : KeptBody s (mulWrite upd rd r s) := by
  cases upd
  · exact .setReg s rd _
  · exact (Kept.setReg s rd _).trans (.setFlags _ _)

theorem keptBody_longWrite (upd : Bool) (hi lo : RegIx) (r : DWord) (s : State) : KeptBody s (longWrite upd hi lo r s) := by
  cases upd
  · exact (Kept.setReg s lo _).trans (.setReg _ hi _)
  · exact ((Kept.setReg s lo _).trans (.setReg _ hi _)).trans (.setFlags _ _)

theorem keptBody_swapWord (f : SWPF) (s : State) : KeptBody s (swapWord f s) := by
  have h := keptWrite_memWrite4 s (s.reg f.rn) (s.reg f.rm)
  simp only [swapWord]
  split
  · exact ⟨.refl s, rfl⟩
  · split <;> next heq => rw [heq] at h; first | exact ⟨h.1, pc_eq_of_regs h.2.1⟩ | exact h.1.trans (.setReg _ _ _)

theorem keptBody_swapByte (f : SWPF) (s : State) : KeptBody s (swapByte f s) := by
  have h := keptWrite_memWrite1 s (s.reg f.rn) ((s.reg f.rm).extractLsb' 0 8)
  simp only [swapByte]
  split
  · exact ⟨.refl s, rfl⟩
  · split <;> next heq => rw [heq] at h; first | exact ⟨h.1, pc_eq_of_regs h.2.1⟩ | exact h.1.trans (.setReg _ _ _)

theorem keptBody_unimplemented (n : UnimplName) (s : State) : KeptBody s (unimplementedBody n s) := ⟨.refl s, rfl⟩

/-! ## The instruction -/

/-- How an instruction ends: an advance of the pc, a branch, or a raise at its own pc, in a state that keeps what `Kept`
says. -/
inductive Ended (s : State) : Result → Prop
  | advanced (t : State) (h : Kept s t) : Ended s (.next t.advance)
  | branched (t : State) (h : Kept s t) : Ended s (.next t)
  | raised (f : FaultInfo) (t : State) (h : Kept s t) (hpc : t.pc = s.pc) : Ended s (.next (t.raise f s.pc))

theorem ended_finish {s : State} {b : Body} (h : KeptBody s b) : Ended s (b.finish s.pc) := by
  cases b with
  | done t => exact .advanced t h
  | branched t => exact .branched t h
  | raised f t => exact .raised f t h.1 h.2

theorem ended_execute {c : Cond} {body : State → Body} {s : State} (h : KeptBody s (body s)) :
    Ended s (execute c body s) := by
  unfold execute
  split
  · exact ended_finish h
  · exact .advanced s (.refl s)

/-- Everything an instruction can do, whichever it is. -/
theorem exec_ended (i : Instr) (s : State) : Ended s (exec i s) := by
  cases i
  case andDPI | andDPR | andDPRS | eorDPI | eorDPR | eorDPRS | subDPI | subDPR | subDPRS | rsbDPI | rsbDPR |
      rsbDPRS | addDPI | addDPR | addDPRS | adcDPI | adcDPR | adcDPRS | sbcDPI | sbcDPR | sbcDPRS | rscDPI |
      rscDPR | rscDPRS | orrDPI | orrDPR | orrDPRS | movDPI | movDPR | movDPRS | bicDPI | bicDPR | bicDPRS |
      mvnDPI | mvnDPR | mvnDPRS =>
    exact ended_execute (keptBody_dataWrite _ _ _ _ _ _)
  case tstDPI | tstDPR | tstDPRS | teqDPI | teqDPR | teqDPRS | cmpDPI | cmpDPR | cmpDPRS | cmnDPI | cmnDPR |
      cmnDPRS =>
    exact ended_execute (keptBody_dataTest _ _ _ _)
  case b =>
    exact ended_execute (Kept.setPc _ _)
  case bl | bx =>
    exact ended_execute ((Kept.setReg _ _ _).trans (.setPc _ _))
  case ldrLSI | ldrLSR | ldrbLSI | ldrbLSR | ldrhXLI | ldrhXLR | ldrsbXLI | ldrsbXLR | ldrshXLI | ldrshXLR =>
    exact ended_execute (keptBody_loadBody _ _ _ _ _ _ _ _)
  case strLSI | strLSR =>
    exact ended_execute (keptBody_storeBody _ (fun s a v => keptWrite_memWrite4 s a v) _ _ _ _ _ _ _)
  case strbLSI | strbLSR =>
    exact ended_execute (keptBody_storeBody _ (fun s a _ => keptWrite_memWrite1 s a _) _ _ _ _ _ _ _)
  case strhXLI | strhXLR =>
    exact ended_execute (keptBody_storeBody _ (fun s a _ => keptWrite_memWrite2 s a _) _ _ _ _ _ _ _)
  case ldm =>
    exact ended_execute (keptBody_multiple _ keptTransfer_load _ _)
  case stm =>
    exact ended_execute (keptBody_multiple _ keptTransfer_store _ _)
  case mul | mla =>
    exact ended_execute (keptBody_mulWrite _ _ _ _)
  case umull | umlal | smull | smlal =>
    exact ended_execute (keptBody_longWrite _ _ _ _ _)
  case swp =>
    exact ended_execute (keptBody_swapWord _ _)
  case swpb =>
    exact ended_execute (keptBody_swapByte _ _)
  case mrs | msrReg | msrImm | blxReg | bkpt | qadd | qsub | qdadd | qdsub | cdp | mcr | mrc | ldc | stc | swi
      =>
    exact ended_execute (keptBody_unimplemented _ _)
  case blxImm =>
    exact ended_finish (keptBody_unimplemented _ _)

end Sys2Proof.Machine
end

