-- ==== Sys2Proof/Laws/PerInstr.lean ====
section
/-! SUPPORT. Statements for all instructions, one lemma per constructor. `CondField`: the condition field of the encoded word is
the instruction's condition, and `1111` exactly for BLX immediate, which has none (spec 30_encoding.md R91, R93, R94). -/

namespace Sys2Proof.Laws

/-- The word's `i[31:28]` names the condition of the instruction. -/
def CondField.Statement (i : Instr) : Prop := Cond.ofBits ((encode i).extractLsb' 28 4) = i.cond?

/-- The statement, from the word's condition code. -/
theorem condField_of_bits {i : Instr} {w : Word} {c : Cond} (hw : encode i = w) (hc : i.cond? = some c)
    (h : w.extractLsb' 28 4 = c.bits) : CondField.Statement i := by
  rw [CondField.Statement, hw, hc, h, Cond.ofBits_bits]

theorem CondField.andDPI (f : DPI) : CondField.Statement (.andDPI f) :=
  condField_of_bits rfl rfl (cond_encodeDPI .and f)
theorem CondField.andDPR (f : DPR) : CondField.Statement (.andDPR f) :=
  condField_of_bits rfl rfl (cond_encodeDPR .and f)
theorem CondField.andDPRS (f : DPRS) : CondField.Statement (.andDPRS f) :=
  condField_of_bits rfl rfl (cond_encodeDPRS .and f)
theorem CondField.eorDPI (f : DPI) : CondField.Statement (.eorDPI f) :=
  condField_of_bits rfl rfl (cond_encodeDPI .eor f)
theorem CondField.eorDPR (f : DPR) : CondField.Statement (.eorDPR f) :=
  condField_of_bits rfl rfl (cond_encodeDPR .eor f)
theorem CondField.eorDPRS (f : DPRS) : CondField.Statement (.eorDPRS f) :=
  condField_of_bits rfl rfl (cond_encodeDPRS .eor f)
theorem CondField.subDPI (f : DPI) : CondField.Statement (.subDPI f) :=
  condField_of_bits rfl rfl (cond_encodeDPI .sub f)
theorem CondField.subDPR (f : DPR) : CondField.Statement (.subDPR f) :=
  condField_of_bits rfl rfl (cond_encodeDPR .sub f)
theorem CondField.subDPRS (f : DPRS) : CondField.Statement (.subDPRS f) :=
  condField_of_bits rfl rfl (cond_encodeDPRS .sub f)
theorem CondField.rsbDPI (f : DPI) : CondField.Statement (.rsbDPI f) :=
  condField_of_bits rfl rfl (cond_encodeDPI .rsb f)
theorem CondField.rsbDPR (f : DPR) : CondField.Statement (.rsbDPR f) :=
  condField_of_bits rfl rfl (cond_encodeDPR .rsb f)
theorem CondField.rsbDPRS (f : DPRS) : CondField.Statement (.rsbDPRS f) :=
  condField_of_bits rfl rfl (cond_encodeDPRS .rsb f)
theorem CondField.addDPI (f : DPI) : CondField.Statement (.addDPI f) :=
  condField_of_bits rfl rfl (cond_encodeDPI .add f)
theorem CondField.addDPR (f : DPR) : CondField.Statement (.addDPR f) :=
  condField_of_bits rfl rfl (cond_encodeDPR .add f)
theorem CondField.addDPRS (f : DPRS) : CondField.Statement (.addDPRS f) :=
  condField_of_bits rfl rfl (cond_encodeDPRS .add f)
theorem CondField.adcDPI (f : DPI) : CondField.Statement (.adcDPI f) :=
  condField_of_bits rfl rfl (cond_encodeDPI .adc f)
theorem CondField.adcDPR (f : DPR) : CondField.Statement (.adcDPR f) :=
  condField_of_bits rfl rfl (cond_encodeDPR .adc f)
theorem CondField.adcDPRS (f : DPRS) : CondField.Statement (.adcDPRS f) :=
  condField_of_bits rfl rfl (cond_encodeDPRS .adc f)
theorem CondField.sbcDPI (f : DPI) : CondField.Statement (.sbcDPI f) :=
  condField_of_bits rfl rfl (cond_encodeDPI .sbc f)
theorem CondField.sbcDPR (f : DPR) : CondField.Statement (.sbcDPR f) :=
  condField_of_bits rfl rfl (cond_encodeDPR .sbc f)
theorem CondField.sbcDPRS (f : DPRS) : CondField.Statement (.sbcDPRS f) :=
  condField_of_bits rfl rfl (cond_encodeDPRS .sbc f)
theorem CondField.rscDPI (f : DPI) : CondField.Statement (.rscDPI f) :=
  condField_of_bits rfl rfl (cond_encodeDPI .rsc f)
theorem CondField.rscDPR (f : DPR) : CondField.Statement (.rscDPR f) :=
  condField_of_bits rfl rfl (cond_encodeDPR .rsc f)
theorem CondField.rscDPRS (f : DPRS) : CondField.Statement (.rscDPRS f) :=
  condField_of_bits rfl rfl (cond_encodeDPRS .rsc f)
theorem CondField.tstDPI (f : DPI) : CondField.Statement (.tstDPI f) :=
  condField_of_bits rfl rfl (cond_encodeDPI .tst f)
theorem CondField.tstDPR (f : DPR) : CondField.Statement (.tstDPR f) :=
  condField_of_bits rfl rfl (cond_encodeDPR .tst f)
theorem CondField.tstDPRS (f : DPRS) : CondField.Statement (.tstDPRS f) :=
  condField_of_bits rfl rfl (cond_encodeDPRS .tst f)
theorem CondField.teqDPI (f : DPI) : CondField.Statement (.teqDPI f) :=
  condField_of_bits rfl rfl (cond_encodeDPI .teq f)
theorem CondField.teqDPR (f : DPR) : CondField.Statement (.teqDPR f) :=
  condField_of_bits rfl rfl (cond_encodeDPR .teq f)
theorem CondField.teqDPRS (f : DPRS) : CondField.Statement (.teqDPRS f) :=
  condField_of_bits rfl rfl (cond_encodeDPRS .teq f)
theorem CondField.cmpDPI (f : DPI) : CondField.Statement (.cmpDPI f) :=
  condField_of_bits rfl rfl (cond_encodeDPI .cmp f)
theorem CondField.cmpDPR (f : DPR) : CondField.Statement (.cmpDPR f) :=
  condField_of_bits rfl rfl (cond_encodeDPR .cmp f)
theorem CondField.cmpDPRS (f : DPRS) : CondField.Statement (.cmpDPRS f) :=
  condField_of_bits rfl rfl (cond_encodeDPRS .cmp f)
theorem CondField.cmnDPI (f : DPI) : CondField.Statement (.cmnDPI f) :=
  condField_of_bits rfl rfl (cond_encodeDPI .cmn f)
theorem CondField.cmnDPR (f : DPR) : CondField.Statement (.cmnDPR f) :=
  condField_of_bits rfl rfl (cond_encodeDPR .cmn f)
theorem CondField.cmnDPRS (f : DPRS) : CondField.Statement (.cmnDPRS f) :=
  condField_of_bits rfl rfl (cond_encodeDPRS .cmn f)
theorem CondField.orrDPI (f : DPI) : CondField.Statement (.orrDPI f) :=
  condField_of_bits rfl rfl (cond_encodeDPI .orr f)
theorem CondField.orrDPR (f : DPR) : CondField.Statement (.orrDPR f) :=
  condField_of_bits rfl rfl (cond_encodeDPR .orr f)
theorem CondField.orrDPRS (f : DPRS) : CondField.Statement (.orrDPRS f) :=
  condField_of_bits rfl rfl (cond_encodeDPRS .orr f)
theorem CondField.movDPI (f : DPI) : CondField.Statement (.movDPI f) :=
  condField_of_bits rfl rfl (cond_encodeDPI .mov f)
theorem CondField.movDPR (f : DPR) : CondField.Statement (.movDPR f) :=
  condField_of_bits rfl rfl (cond_encodeDPR .mov f)
theorem CondField.movDPRS (f : DPRS) : CondField.Statement (.movDPRS f) :=
  condField_of_bits rfl rfl (cond_encodeDPRS .mov f)
theorem CondField.bicDPI (f : DPI) : CondField.Statement (.bicDPI f) :=
  condField_of_bits rfl rfl (cond_encodeDPI .bic f)
theorem CondField.bicDPR (f : DPR) : CondField.Statement (.bicDPR f) :=
  condField_of_bits rfl rfl (cond_encodeDPR .bic f)
theorem CondField.bicDPRS (f : DPRS) : CondField.Statement (.bicDPRS f) :=
  condField_of_bits rfl rfl (cond_encodeDPRS .bic f)
theorem CondField.mvnDPI (f : DPI) : CondField.Statement (.mvnDPI f) :=
  condField_of_bits rfl rfl (cond_encodeDPI .mvn f)
theorem CondField.mvnDPR (f : DPR) : CondField.Statement (.mvnDPR f) :=
  condField_of_bits rfl rfl (cond_encodeDPR .mvn f)
theorem CondField.mvnDPRS (f : DPRS) : CondField.Statement (.mvnDPRS f) :=
  condField_of_bits rfl rfl (cond_encodeDPRS .mvn f)
theorem CondField.b (f : BR) : CondField.Statement (.b f) :=
  condField_of_bits rfl rfl (cond_encodeBR false f)
theorem CondField.bl (f : BR) : CondField.Statement (.bl f) :=
  condField_of_bits rfl rfl (cond_encodeBR true f)
theorem CondField.bx (f : BXR) : CondField.Statement (.bx f) :=
  condField_of_bits rfl rfl (cond_encodeBXR f)
theorem CondField.ldrLSI (f : LSI) : CondField.Statement (.ldrLSI f) :=
  condField_of_bits rfl rfl (cond_encodeLSI false true f)
theorem CondField.ldrLSR (f : LSR) : CondField.Statement (.ldrLSR f) :=
  condField_of_bits rfl rfl (cond_encodeLSR false true f)
theorem CondField.strLSI (f : LSI) : CondField.Statement (.strLSI f) :=
  condField_of_bits rfl rfl (cond_encodeLSI false false f)
theorem CondField.strLSR (f : LSR) : CondField.Statement (.strLSR f) :=
  condField_of_bits rfl rfl (cond_encodeLSR false false f)
theorem CondField.ldrbLSI (f : LSI) : CondField.Statement (.ldrbLSI f) :=
  condField_of_bits rfl rfl (cond_encodeLSI true true f)
theorem CondField.ldrbLSR (f : LSR) : CondField.Statement (.ldrbLSR f) :=
  condField_of_bits rfl rfl (cond_encodeLSR true true f)
theorem CondField.strbLSI (f : LSI) : CondField.Statement (.strbLSI f) :=
  condField_of_bits rfl rfl (cond_encodeLSI true false f)
theorem CondField.strbLSR (f : LSR) : CondField.Statement (.strbLSR f) :=
  condField_of_bits rfl rfl (cond_encodeLSR true false f)
theorem CondField.ldm (f : LSM) : CondField.Statement (.ldm f) :=
  condField_of_bits rfl rfl (cond_encodeLSM true f)
theorem CondField.stm (f : LSM) : CondField.Statement (.stm f) :=
  condField_of_bits rfl rfl (cond_encodeLSM false f)
theorem CondField.ldrhXLI (f : XLI) : CondField.Statement (.ldrhXLI f) :=
  condField_of_bits rfl rfl (cond_encodeXLI true 0b01#2 f)
theorem CondField.ldrhXLR (f : XLR) : CondField.Statement (.ldrhXLR f) :=
  condField_of_bits rfl rfl (cond_encodeXLR true 0b01#2 f)
theorem CondField.strhXLI (f : XLI) : CondField.Statement (.strhXLI f) :=
  condField_of_bits rfl rfl (cond_encodeXLI false 0b01#2 f)
theorem CondField.strhXLR (f : XLR) : CondField.Statement (.strhXLR f) :=
  condField_of_bits rfl rfl (cond_encodeXLR false 0b01#2 f)
theorem CondField.ldrsbXLI (f : XLI) : CondField.Statement (.ldrsbXLI f) :=
  condField_of_bits rfl rfl (cond_encodeXLI true 0b10#2 f)
theorem CondField.ldrsbXLR (f : XLR) : CondField.Statement (.ldrsbXLR f) :=
  condField_of_bits rfl rfl (cond_encodeXLR true 0b10#2 f)
theorem CondField.ldrshXLI (f : XLI) : CondField.Statement (.ldrshXLI f) :=
  condField_of_bits rfl rfl (cond_encodeXLI true 0b11#2 f)
theorem CondField.ldrshXLR (f : XLR) : CondField.Statement (.ldrshXLR f) :=
  condField_of_bits rfl rfl (cond_encodeXLR true 0b11#2 f)
theorem CondField.mul (f : MULF) : CondField.Statement (.mul f) :=
  condField_of_bits rfl rfl (cond_encodeMULF false f)
theorem CondField.mla (f : MULF) : CondField.Statement (.mla f) :=
  condField_of_bits rfl rfl (cond_encodeMULF true f)
theorem CondField.umull (f : MULL) : CondField.Statement (.umull f) :=
  condField_of_bits rfl rfl (cond_encodeMULL false false f)
theorem CondField.umlal (f : MULL) : CondField.Statement (.umlal f) :=
  condField_of_bits rfl rfl (cond_encodeMULL false true f)
theorem CondField.smull (f : MULL) : CondField.Statement (.smull f) :=
  condField_of_bits rfl rfl (cond_encodeMULL true false f)
theorem CondField.smlal (f : MULL) : CondField.Statement (.smlal f) :=
  condField_of_bits rfl rfl (cond_encodeMULL true true f)
theorem CondField.swp (f : SWPF) : CondField.Statement (.swp f) :=
  condField_of_bits rfl rfl (cond_encodeSWPF false f)
theorem CondField.swpb (f : SWPF) : CondField.Statement (.swpb f) :=
  condField_of_bits rfl rfl (cond_encodeSWPF true f)
theorem CondField.mrs (c : Cond) : CondField.Statement (.mrs c) :=
  condField_of_bits rfl rfl (cond_encodeRefused c 0x1000000#28)
theorem CondField.msrReg (c : Cond) : CondField.Statement (.msrReg c) :=
  condField_of_bits rfl rfl (cond_encodeRefused c 0x1200000#28)
theorem CondField.msrImm (c : Cond) : CondField.Statement (.msrImm c) :=
  condField_of_bits rfl rfl (cond_encodeRefused c 0x3200000#28)
theorem CondField.blxReg (c : Cond) : CondField.Statement (.blxReg c) :=
  condField_of_bits rfl rfl (cond_encodeRefused c 0x1200030#28)
theorem CondField.blxImm : CondField.Statement .blxImm := rfl
theorem CondField.bkpt (c : Cond) : CondField.Statement (.bkpt c) :=
  condField_of_bits rfl rfl (cond_encodeRefused c 0x1200070#28)
theorem CondField.qadd (c : Cond) : CondField.Statement (.qadd c) :=
  condField_of_bits rfl rfl (cond_encodeRefused c 0x1000050#28)
theorem CondField.qsub (c : Cond) : CondField.Statement (.qsub c) :=
  condField_of_bits rfl rfl (cond_encodeRefused c 0x1200050#28)
theorem CondField.qdadd (c : Cond) : CondField.Statement (.qdadd c) :=
  condField_of_bits rfl rfl (cond_encodeRefused c 0x1400050#28)
theorem CondField.qdsub (c : Cond) : CondField.Statement (.qdsub c) :=
  condField_of_bits rfl rfl (cond_encodeRefused c 0x1600050#28)
theorem CondField.cdp (c : Cond) : CondField.Statement (.cdp c) :=
  condField_of_bits rfl rfl (cond_encodeRefused c 0xE000000#28)
theorem CondField.mcr (c : Cond) : CondField.Statement (.mcr c) :=
  condField_of_bits rfl rfl (cond_encodeRefused c 0xE000010#28)
theorem CondField.mrc (c : Cond) : CondField.Statement (.mrc c) :=
  condField_of_bits rfl rfl (cond_encodeRefused c 0xE100010#28)
theorem CondField.ldc (c : Cond) : CondField.Statement (.ldc c) :=
  condField_of_bits rfl rfl (cond_encodeRefused c 0xC100000#28)
theorem CondField.stc (c : Cond) : CondField.Statement (.stc c) :=
  condField_of_bits rfl rfl (cond_encodeRefused c 0xC000000#28)
theorem CondField.swi (c : Cond) : CondField.Statement (.swi c) :=
  condField_of_bits rfl rfl (cond_encodeRefused c 0xF000000#28)

end Sys2Proof.Laws
end

