-- ==== Sys2Proof/Laws/Processor.lean ====
section
/-! SUPPORT. What configuring a Processor and one step of one of its Cores can do, said once (spec 00_scope.md R6,
20_memory.md R66, 60_exceptions.md R293, R298). -/

namespace Sys2Proof.Machine

@[simp] theorem vonNeumann_length (m : Memory) (n : Nat) : (Processor.vonNeumann m n).cores.length = n := by
  simp [Processor.vonNeumann]

@[simp] theorem harvard_length (ms : List (Memory × Memory)) : (Processor.harvard ms).cores.length = ms.length := by
  simp [Processor.harvard]

/-- Either topology makes as many Cores as asked for (R298). -/
@[simp] theorem arrange_length (t : Topology) (m : Memory) (n : Nat) : (Processor.arrange t m n).cores.length = n := by
  cases t <;> simp [Processor.arrange]

/-- A configuration answers a Processor exactly when its core count and its Memory size are valid, and then it is the
topology's (R293). -/
theorem configure_eq_ok {t : Topology} {m : Memory} {n : Nat} {p : Processor} :
    Processor.configure t m n = .ok p ↔ coreCountOk n ∧ capacityOk m.capacity ∧ p = Processor.arrange t m n := by
  unfold Processor.configure
  constructor
  · intro h
    split at h
    next hc => cases h; exact ⟨hc.1, hc.2, rfl⟩
    · cases h
  · rintro ⟨hn, hc, rfl⟩
    rw [if_pos ⟨hn, hc⟩]

/-- A configured Processor has at least one Core (R5, R298). -/
theorem populated_of_configure {t : Topology} {m : Memory} {n : Nat} {p : Processor}
    (h : Processor.configure t m n = .ok p) : p.populated := by
  obtain ⟨hn, _, rfl⟩ := configure_eq_ok.1 h
  simpa [Processor.populated] using hn

/-- A Core's step that answers a next state was the step of that Core's own view, put back, in a Processor with Cores whose
Bounds are disjoint (R77, R298). -/
theorem stepCore_cases {p q : Processor} {k : Nat} (h : p.stepCore k = .next q) :
    p.populated ∧ p.disjoint ∧
      ∃ c s t, p.cores[k]? = some c ∧ p.view k = some s ∧ step s = .next t ∧ q = p.putBack k c t := by
  unfold Processor.stepCore at h
  split at h
  · cases h
  next hp =>
  split at h
  · cases h
  next hd =>
  refine ⟨not_not.1 hp, not_not.1 hd, ?_⟩
  split at h
  next c s hc hs =>
    split at h
    next t ht => cases h; exact ⟨c, s, t, hc, hs, ht, rfl⟩
    · cases h
    · cases h
  · cases h

end Sys2Proof.Machine
end

