-- ==== Sys2Proof/Laws/Step.lean ====
section
/-! SUPPORT. What a step can do, said once: `step_cases`, with the lemmas that say which of its cases holds. -/

namespace Sys2Proof.Machine

/-! ## Executing an instruction -/

theorem execute_pass {c : Cond} {s : State} (body : State → Body) (h : conditionPassed c s.flags = true) :
    execute c body s = (body s).finish s.pc := by simp [execute, h]

theorem execute_skip {c : Cond} {s : State} (body : State → Body) (h : conditionPassed c s.flags = false) :
    execute c body s = .next s.advance := by simp [execute, h]

/-! ## Before the instruction -/

/-- The premises are exactly what lets a step go on. -/
theorem outsidePremises_eq_none {s : State} : s.outsidePremises = none ↔ s.configOk := by
  unfold State.outsidePremises
  constructor
  · intro h
    by_cases h1 : capacityOk s.progMem.capacity ∧ capacityOk s.dataMem.capacity ∧ s.pbound.ordered ∧ s.dbound.ordered
    · by_cases h2 : s.pbound.aligned ∧ s.dbound.aligned
      · exact ⟨h1.1, h1.2.1, h1.2.2.1, h1.2.2.2, h2.1, h2.2⟩
      · rw [if_neg (not_not.2 h1), if_pos h2] at h; cases h
    · rw [if_pos h1] at h; cases h
  · rintro ⟨a, b, c, d, e, f⟩
    rw [if_neg (not_not.2 ⟨a, b, c, d⟩), if_neg (not_not.2 ⟨e, f⟩)]

theorem select_halted {s : State} (h : s.run = .halted) : select s = .stay := by simp [select, h]

theorem select_stopped {s : State} (hr : s.run = .running) (hc : s.configOk) (h : s.stopReq = true) :
    select s = .halt .stopped := by simp [select, hr, outsidePremises_eq_none.2 hc, h]

theorem select_pastEnd {s : State} (hr : s.run = .running) (hc : s.configOk) (hs : s.stopReq = false)
    (h : s.pbound.low + s.pc.toNat > s.pbound.high) : select s = .halt .endOfProgram := by
  simp [select, hr, outsidePremises_eq_none.2 hc, hs, State.pastEnd, h]

theorem select_canFetch {s : State} (h : s.canFetch) :
    select s = match s.fetch s.pc with
      | .error f => .raise f
      | .ok i => issue i s.flags := by
  obtain ⟨hr, hc, hs, hp⟩ := h
  cases hf : s.fetch s.pc <;>
    simp [select, hr, outsidePremises_eq_none.2 hc, hs, State.pastEnd, Nat.not_lt.2 hp, hf]

/-- The fetch that passes its checks reads the word whose bytes stand at the pc. -/
theorem fetch_fetchable {s : State} (h : s.fetchable) :
    s.fetch s.pc = .ok (s.progMem.word (s.pbound.low + s.pc.toNat)) := by
  obtain ⟨⟨_, _, _, hp⟩, ha, hc⟩ := h
  simp [State.fetch, Memory.readWord, checkWord_eq_none.2 ⟨ha, hp, hc⟩, resolveWord]

/-! ## The cases of a step -/

/-- A step that answers a next state did one of five things: nothing (Halted), a halt without a fault, a raise before any
instruction, a skip, or an instruction executed in the same state. -/
theorem step_cases {s t : State} (h : step s = .next t) :
    (s.run = .halted ∧ t = s) ∨
    (s.run = .running ∧ s.configOk ∧
      ((∃ cause, (cause = .stopped ∨ cause = .endOfProgram) ∧ t = s.halt cause) ∨
       (∃ f, t = s.raise f s.pc) ∨ t = s.advance ∨ ∃ i, exec i s = .next t)) := by
  unfold step at h
  cases hr : s.run with
  | halted => rw [select_halted hr] at h; cases h; exact .inl ⟨rfl, rfl⟩
  | running =>
    right
    by_cases hc : s.configOk
    · refine ⟨rfl, hc, ?_⟩
      by_cases hs : s.stopReq = true
      · rw [select_stopped hr hc hs] at h; cases h; exact .inl ⟨_, .inl rfl, rfl⟩
      · by_cases hp : s.pbound.low + s.pc.toNat > s.pbound.high
        · rw [select_pastEnd hr hc (by simpa using hs) hp] at h; cases h; exact .inl ⟨_, .inr rfl, rfl⟩
        · rw [select_canFetch ⟨hr, hc, by simpa using hs, by omega⟩] at h
          cases hf : s.fetch s.pc with
          | error f => rw [hf] at h; cases h; exact .inr (.inl ⟨_, rfl⟩)
          | ok w =>
            simp only [hf, issue] at h
            have hd : (match decoded w with
                | .stay => .next s
                | .outside (.inl r) => .fault r
                | .outside (.inr r) => .refused r
                | .halt cause => .next (s.halt cause)
                | .raise f => .next (s.raise f s.pc)
                | .skip => .next s.advance
                | .run i => exec i s : Result) = .next t →
                (∃ f, t = s.raise f s.pc) ∨ ∃ i, exec i s = .next t := by
              unfold decoded
              cases decode w with
              | ok i => exact fun h => .inr ⟨i, h⟩
              | error e => intro h; cases h; exact .inl ⟨_, rfl⟩
            cases hcond : Cond.ofBits (w.extractLsb' 28 4) with
            | none =>
              rw [hcond] at h
              rcases hd h with h | h
              · exact .inr (.inl h)
              · exact .inr (.inr (.inr h))
            | some c =>
              simp only [hcond] at h
              cases hpass : conditionPassed c s.flags with
              | true =>
                rw [hpass] at h
                rcases hd h with h | h
                · exact .inr (.inl h)
                · exact .inr (.inr (.inr h))
              | false => rw [hpass] at h; cases h; exact .inr (.inr (.inl rfl))
    · cases ho : s.outsidePremises with
      | none => exact absurd (outsidePremises_eq_none.1 ho) hc
      | some r => simp only [select, hr, ho] at h; cases r <;> cases h

end Sys2Proof.Machine
end

