-- ==== Sys2Proof/Tests/Slice0.lean ====
section
/-! SUPPORT. The model's own tests: the WellFormed smoke test, one word per constructor written out from the format tables of
spec/30_encoding.md (R98 to R111), single steps with the results of spec/95_test_vectors.md (each test names its vector),
and for every obligation that has hypotheses a state and operands that meet them. -/

open Sys2Proof Sys2Proof.Machine

namespace Sys2Proof.Tests

/-! ## WellFormed -/

/-- R116: TST, TEQ, CMP and CMN with `S = 0` are no instructions. -/
theorem test_wellFormed_refuses :
    Instr.wf (.tstDPI ⟨.al, false, 1, 2, 3, 4⟩) = false ∧
    Instr.wf (.tstDPR ⟨.al, false, 1, 2, 3, .lsr, 4⟩) = false ∧
    Instr.wf (.tstDPRS ⟨.al, false, 1, 2, 3, .asr, 4⟩) = false ∧
    Instr.wf (.teqDPI ⟨.al, false, 1, 2, 3, 4⟩) = false ∧
    Instr.wf (.teqDPR ⟨.al, false, 1, 2, 3, .lsr, 4⟩) = false ∧
    Instr.wf (.teqDPRS ⟨.al, false, 1, 2, 3, .asr, 4⟩) = false ∧
    Instr.wf (.cmpDPI ⟨.al, false, 1, 2, 3, 4⟩) = false ∧
    Instr.wf (.cmpDPR ⟨.al, false, 1, 2, 3, .lsr, 4⟩) = false ∧
    Instr.wf (.cmpDPRS ⟨.al, false, 1, 2, 3, .asr, 4⟩) = false ∧
    Instr.wf (.cmnDPI ⟨.al, false, 1, 2, 3, 4⟩) = false ∧
    Instr.wf (.cmnDPR ⟨.al, false, 1, 2, 3, .lsr, 4⟩) = false ∧
    Instr.wf (.cmnDPRS ⟨.al, false, 1, 2, 3, .asr, 4⟩) = false := by decide

theorem test_wellFormed_accepts :
    Instr.wf (.tstDPI ⟨.al, true, 1, 2, 3, 4⟩) = true ∧
    Instr.wf (.tstDPR ⟨.al, true, 1, 2, 3, .lsr, 4⟩) = true ∧
    Instr.wf (.tstDPRS ⟨.al, true, 1, 2, 3, .asr, 4⟩) = true ∧
    Instr.wf (.teqDPI ⟨.al, true, 1, 2, 3, 4⟩) = true ∧
    Instr.wf (.teqDPR ⟨.al, true, 1, 2, 3, .lsr, 4⟩) = true ∧
    Instr.wf (.teqDPRS ⟨.al, true, 1, 2, 3, .asr, 4⟩) = true ∧
    Instr.wf (.cmpDPI ⟨.al, true, 1, 2, 3, 4⟩) = true ∧
    Instr.wf (.cmpDPR ⟨.al, true, 1, 2, 3, .lsr, 4⟩) = true ∧
    Instr.wf (.cmpDPRS ⟨.al, true, 1, 2, 3, .asr, 4⟩) = true ∧
    Instr.wf (.cmnDPI ⟨.al, true, 1, 2, 3, 4⟩) = true ∧
    Instr.wf (.cmnDPR ⟨.al, true, 1, 2, 3, .lsr, 4⟩) = true ∧
    Instr.wf (.cmnDPRS ⟨.al, true, 1, 2, 3, .asr, 4⟩) = true := by decide

/-! ## Decoding: a word per constructor, bit by bit from the formats -/

/-- Format DPI (R98), opcodes by R116. -/
theorem test_decode_DPI :
    decode 0b0000_001_0000_0_0000_1111_0000_00000101#32 = .ok (.andDPI ⟨.eq, false, 0, 15, 0, 5⟩) ∧
    decode 0b0100_001_0001_1_0001_1110_0111_00101010#32 = .ok (.eorDPI ⟨.mi, true, 1, 14, 7, 42⟩) ∧
    decode 0b1000_001_0010_0_0010_1101_1110_01001111#32 = .ok (.subDPI ⟨.hi, false, 2, 13, 14, 79⟩) ∧
    decode 0b1100_001_0011_1_0011_1100_0101_01110100#32 = .ok (.rsbDPI ⟨.gt, true, 3, 12, 5, 116⟩) ∧
    decode 0b0001_001_0100_0_0100_1011_1100_10011001#32 = .ok (.addDPI ⟨.ne, false, 4, 11, 12, 153⟩) ∧
    decode 0b0101_001_0101_1_0101_1010_0011_10111110#32 = .ok (.adcDPI ⟨.pl, true, 5, 10, 3, 190⟩) ∧
    decode 0b1001_001_0110_0_0110_1001_1010_11100011#32 = .ok (.sbcDPI ⟨.ls, false, 6, 9, 10, 227⟩) ∧
    decode 0b1101_001_0111_1_0111_1000_0001_00001000#32 = .ok (.rscDPI ⟨.le, true, 7, 8, 1, 8⟩) ∧
    decode 0b0010_001_1000_1_1000_0111_1000_00101101#32 = .ok (.tstDPI ⟨.cs, true, 8, 7, 8, 45⟩) ∧
    decode 0b0110_001_1001_1_1001_0110_1111_01010010#32 = .ok (.teqDPI ⟨.vs, true, 9, 6, 15, 82⟩) ∧
    decode 0b1010_001_1010_1_1010_0101_0110_01110111#32 = .ok (.cmpDPI ⟨.ge, true, 10, 5, 6, 119⟩) ∧
    decode 0b1110_001_1011_1_1011_0100_1101_10011100#32 = .ok (.cmnDPI ⟨.al, true, 11, 4, 13, 156⟩) ∧
    decode 0b0011_001_1100_0_1100_0011_0100_11000001#32 = .ok (.orrDPI ⟨.cc, false, 12, 3, 4, 193⟩) ∧
    decode 0b0111_001_1101_1_1101_0010_1011_11100110#32 = .ok (.movDPI ⟨.vc, true, 13, 2, 11, 230⟩) ∧
    decode 0b1011_001_1110_0_1110_0001_0010_00001011#32 = .ok (.bicDPI ⟨.lt, false, 14, 1, 2, 11⟩) ∧
    decode 0b0000_001_1111_1_1111_0000_1001_00110000#32 = .ok (.mvnDPI ⟨.eq, true, 15, 0, 9, 48⟩) := by decide

/-- Format DPR (R99). -/
theorem test_decode_DPR :
    decode 0b0001_000_0000_1_0011_0001_00001_00_0_1111#32 = .ok (.andDPR ⟨.ne, true, 3, 1, 1, .lsl, 15⟩) ∧
    decode 0b0101_000_0001_0_0100_0011_00110_01_0_1110#32 = .ok (.eorDPR ⟨.pl, false, 4, 3, 6, .lsr, 14⟩) ∧
    decode 0b1001_000_0010_0_0101_0101_01011_10_0_1101#32 = .ok (.subDPR ⟨.ls, false, 5, 5, 11, .asr, 13⟩) ∧
    decode 0b1101_000_0011_1_0110_0111_10000_11_0_1100#32 = .ok (.rsbDPR ⟨.le, true, 6, 7, 16, .ror, 12⟩) ∧
    decode 0b0010_000_0100_0_0111_1001_10101_00_0_1011#32 = .ok (.addDPR ⟨.cs, false, 7, 9, 21, .lsl, 11⟩) ∧
    decode 0b0110_000_0101_0_1000_1011_11010_01_0_1010#32 = .ok (.adcDPR ⟨.vs, false, 8, 11, 26, .lsr, 10⟩) ∧
    decode 0b1010_000_0110_1_1001_1101_11111_10_0_1001#32 = .ok (.sbcDPR ⟨.ge, true, 9, 13, 31, .asr, 9⟩) ∧
    decode 0b1110_000_0111_0_1010_1111_00100_11_0_1000#32 = .ok (.rscDPR ⟨.al, false, 10, 15, 4, .ror, 8⟩) ∧
    decode 0b0011_000_1000_1_1011_0001_01001_00_0_0111#32 = .ok (.tstDPR ⟨.cc, true, 11, 1, 9, .lsl, 7⟩) ∧
    decode 0b0111_000_1001_1_1100_0011_01110_01_0_0110#32 = .ok (.teqDPR ⟨.vc, true, 12, 3, 14, .lsr, 6⟩) ∧
    decode 0b1011_000_1010_1_1101_0101_10011_10_0_0101#32 = .ok (.cmpDPR ⟨.lt, true, 13, 5, 19, .asr, 5⟩) ∧
    decode 0b0000_000_1011_1_1110_0111_11000_11_0_0100#32 = .ok (.cmnDPR ⟨.eq, true, 14, 7, 24, .ror, 4⟩) ∧
    decode 0b0100_000_1100_1_1111_1001_11101_00_0_0011#32 = .ok (.orrDPR ⟨.mi, true, 15, 9, 29, .lsl, 3⟩) ∧
    decode 0b1000_000_1101_0_0000_1011_00010_01_0_0010#32 = .ok (.movDPR ⟨.hi, false, 0, 11, 2, .lsr, 2⟩) ∧
    decode 0b1100_000_1110_0_0001_1101_00111_10_0_0001#32 = .ok (.bicDPR ⟨.gt, false, 1, 13, 7, .asr, 1⟩) ∧
    decode 0b0001_000_1111_1_0010_1111_01100_11_0_0000#32 = .ok (.mvnDPR ⟨.ne, true, 2, 15, 12, .ror, 0⟩) := by decide

/-- Format DPRS (R100). -/
theorem test_decode_DPRS :
    decode 0b0010_000_0000_0_0101_0010_0000_0_01_1_1001#32 = .ok (.andDPRS ⟨.cs, false, 5, 2, 0, .lsr, 9⟩) ∧
    decode 0b0110_000_0001_1_0110_0101_1011_0_10_1_1010#32 = .ok (.eorDPRS ⟨.vs, true, 6, 5, 11, .asr, 10⟩) ∧
    decode 0b1010_000_0010_0_0111_1000_0110_0_11_1_1011#32 = .ok (.subDPRS ⟨.ge, false, 7, 8, 6, .ror, 11⟩) ∧
    decode 0b1110_000_0011_0_1000_1011_0001_0_00_1_1100#32 = .ok (.rsbDPRS ⟨.al, false, 8, 11, 1, .lsl, 12⟩) ∧
    decode 0b0011_000_0100_1_1001_1110_1100_0_01_1_1101#32 = .ok (.addDPRS ⟨.cc, true, 9, 14, 12, .lsr, 13⟩) ∧
    decode 0b0111_000_0101_0_1010_0001_0111_0_10_1_1110#32 = .ok (.adcDPRS ⟨.vc, false, 10, 1, 7, .asr, 14⟩) ∧
    decode 0b1011_000_0110_0_1011_0100_0010_0_11_1_1111#32 = .ok (.sbcDPRS ⟨.lt, false, 11, 4, 2, .ror, 15⟩) ∧
    decode 0b0000_000_0111_1_1100_0111_1101_0_00_1_0000#32 = .ok (.rscDPRS ⟨.eq, true, 12, 7, 13, .lsl, 0⟩) ∧
    decode 0b0100_000_1000_1_1101_1010_1000_0_01_1_0001#32 = .ok (.tstDPRS ⟨.mi, true, 13, 10, 8, .lsr, 1⟩) ∧
    decode 0b1000_000_1001_1_1110_1101_0011_0_10_1_0010#32 = .ok (.teqDPRS ⟨.hi, true, 14, 13, 3, .asr, 2⟩) ∧
    decode 0b1100_000_1010_1_1111_0000_1110_0_11_1_0011#32 = .ok (.cmpDPRS ⟨.gt, true, 15, 0, 14, .ror, 3⟩) ∧
    decode 0b0001_000_1011_1_0000_0011_1001_0_00_1_0100#32 = .ok (.cmnDPRS ⟨.ne, true, 0, 3, 9, .lsl, 4⟩) ∧
    decode 0b0101_000_1100_0_0001_0110_0100_0_01_1_0101#32 = .ok (.orrDPRS ⟨.pl, false, 1, 6, 4, .lsr, 5⟩) ∧
    decode 0b1001_000_1101_1_0010_1001_1111_0_10_1_0110#32 = .ok (.movDPRS ⟨.ls, true, 2, 9, 15, .asr, 6⟩) ∧
    decode 0b1101_000_1110_0_0011_1100_1010_0_11_1_0111#32 = .ok (.bicDPRS ⟨.le, false, 3, 12, 10, .ror, 7⟩) ∧
    decode 0b0010_000_1111_0_0100_1111_0101_0_00_1_1000#32 = .ok (.mvnDPRS ⟨.cs, false, 4, 15, 5, .lsl, 8⟩) := by decide

/-- Formats BR and BXR (R101, R102); the don't-care field of BX at ones and at another value (R97). -/
theorem test_decode_branch :
    decode 0b1110_101_0_111111111111111111111110#32 = .ok (.b ⟨.al, 0xFFFFFE⟩) ∧
    decode 0b0001_101_1_100000000000000000000011#32 = .ok (.bl ⟨.ne, 0x800003⟩) ∧
    decode 0b1110_0001_0010_1111_1111_1111_0001_1110#32 = .ok (.bx ⟨.al, 14⟩) ∧
    decode 0b1110_0001_0010_0000_1010_0101_0001_0011#32 = .ok (.bx ⟨.al, 3⟩) := by decide

/-- Formats LSI and LSR (R103, R104). -/
theorem test_decode_single :
    decode 0b1110_010_1_0_0_1_1_0001_1110_111111111111#32 = .ok (.ldrLSI ⟨.al, true, false, true, 1, 14, 4095⟩) ∧
    decode 0b1110_011_0_1_0_1_1_0001_1110_00010_00_0_1000#32 = .ok (.ldrLSR ⟨.al, false, true, true, 1, 14, 2, .lsl, 8⟩) ∧
    decode 0b1101_010_0_1_0_0_0_0010_1101_000000000100#32 = .ok (.strLSI ⟨.le, false, true, false, 2, 13, 4⟩) ∧
    decode 0b1101_011_1_0_0_0_0_0010_1101_11111_01_0_1001#32 = .ok (.strLSR ⟨.le, true, false, false, 2, 13, 31, .lsr, 9⟩) ∧
    decode 0b1100_010_1_1_1_0_1_0011_1100_000000000001#32 = .ok (.ldrbLSI ⟨.gt, true, true, false, 3, 12, 1⟩) ∧
    decode 0b1100_011_1_1_1_0_1_0011_1100_00000_10_0_1010#32 = .ok (.ldrbLSR ⟨.gt, true, true, false, 3, 12, 0, .asr, 10⟩) ∧
    decode 0b1011_010_0_0_1_1_0_0100_1011_100000000001#32 = .ok (.strbLSI ⟨.lt, false, false, true, 4, 11, 2049⟩) ∧
    decode 0b1011_011_0_0_1_1_0_0100_1011_10001_11_0_1011#32 = .ok (.strbLSR ⟨.lt, false, false, true, 4, 11, 17, .ror, 11⟩) := by decide

/-- Format LSM (R105); bit 22 is don't-care (R97). -/
theorem test_decode_multiple :
    decode 0b1110_100_0_1_0_1_1_1101_0000000000001100#32 = .ok (.ldm ⟨.al, false, true, true, 13, 0x000C⟩) ∧
    decode 0b1110_100_0_1_1_1_1_1101_0000000000001100#32 = .ok (.ldm ⟨.al, false, true, true, 13, 0x000C⟩) ∧
    decode 0b0101_100_1_0_0_0_0_0001_1000000000000001#32 = .ok (.stm ⟨.pl, true, false, false, 1, 0x8001⟩) := by decide

/-- Formats XLI and XLR (R106, R107); `i[11:8]` of XLR is don't-care. -/
theorem test_decode_extended :
    decode 0b1101_000_1_0_1_1_1_0100_1011_1111_1_01_1_0001#32 = .ok (.ldrhXLI ⟨.le, true, false, true, 4, 11, 15, 1⟩) ∧
    decode 0b1101_000_1_0_0_1_1_0100_1011_0000_1_01_1_1100#32 = .ok (.ldrhXLR ⟨.le, true, false, true, 4, 11, 12⟩) ∧
    decode 0b1100_000_0_1_1_0_0_0101_1010_0000_1_01_1_0010#32 = .ok (.strhXLI ⟨.gt, false, true, false, 5, 10, 0, 2⟩) ∧
    decode 0b1100_000_0_1_0_0_0_0101_1010_0101_1_01_1_1101#32 = .ok (.strhXLR ⟨.gt, false, true, false, 5, 10, 13⟩) ∧
    decode 0b1011_000_1_1_1_0_1_0110_1001_1001_1_10_1_0110#32 = .ok (.ldrsbXLI ⟨.lt, true, true, false, 6, 9, 9, 6⟩) ∧
    decode 0b1011_000_1_1_0_0_1_0110_1001_1010_1_10_1_1110#32 = .ok (.ldrsbXLR ⟨.lt, true, true, false, 6, 9, 14⟩) ∧
    decode 0b1010_000_0_0_1_1_1_0111_1000_1000_1_11_1_1000#32 = .ok (.ldrshXLI ⟨.ge, false, false, true, 7, 8, 8, 8⟩) ∧
    decode 0b1010_000_0_0_0_1_1_0111_1000_1111_1_11_1_1111#32 = .ok (.ldrshXLR ⟨.ge, false, false, true, 7, 8, 15⟩) := by decide

/-- Formats MUL, MULL and SWP (R108 to R110). -/
theorem test_decode_multiply_swap :
    decode 0b1110_000000_0_1_0010_0101_0001_1001_0000#32 = .ok (.mul ⟨.al, true, 2, 5, 1, 0⟩) ∧
    decode 0b1110_000000_1_0_0011_0010_0001_1001_0000#32 = .ok (.mla ⟨.al, false, 3, 2, 1, 0⟩) ∧
    decode 0b1110_00001_0_0_0_0001_0000_0011_1001_0010#32 = .ok (.umull ⟨.al, false, 1, 0, 3, 2⟩) ∧
    decode 0b1110_00001_0_1_1_0001_0000_0011_1001_0010#32 = .ok (.umlal ⟨.al, true, 1, 0, 3, 2⟩) ∧
    decode 0b1110_00001_1_0_1_0001_0000_0011_1001_0010#32 = .ok (.smull ⟨.al, true, 1, 0, 3, 2⟩) ∧
    decode 0b1110_00001_1_1_0_0001_0000_0011_1001_0010#32 = .ok (.smlal ⟨.al, false, 1, 0, 3, 2⟩) ∧
    decode 0b1110_00010_0_00_0001_0000_0000_1001_0010#32 = .ok (.swp ⟨.al, 1, 0, 2⟩) ∧
    decode 0b1110_00010_1_00_0001_0000_1111_1001_0010#32 = .ok (.swpb ⟨.al, 1, 0, 2⟩) := by decide

/-- The recognised-and-refused instructions (R111). -/
theorem test_decode_refused :
    decode 0b1110_00010_0_00_1111_0000_0000_0000_0000#32 = .ok (.mrs .al) ∧
    decode 0b1110_00010_1_00_1111_0000_0000_0000_0000#32 = .ok (.mrs .al) ∧
    decode 0b1110_00010_0_10_1001_1111_0000_0000_0000#32 = .ok (.msrReg .al) ∧
    decode 0b1110_00110_0_10_1000_1111_0010_00001111#32 = .ok (.msrImm .al) ∧
    decode 0b1110_0001_0010_1111_1111_1111_0011_0000#32 = .ok (.blxReg .al) ∧
    decode 0b1111_101_1_000000000000000000000000#32 = .ok (.blxImm) ∧
    decode 0b1110_0001_0010_0000_0000_0000_0111_0000#32 = .ok (.bkpt .al) ∧
    decode 0b1110_00010_00_0_0001_0000_0000_0101_0010#32 = .ok (.qadd .al) ∧
    decode 0b1110_00010_01_0_0001_0000_0000_0101_0010#32 = .ok (.qsub .al) ∧
    decode 0b1110_00010_10_0_0001_0000_0000_0101_0010#32 = .ok (.qdadd .al) ∧
    decode 0b1110_00010_11_0_0001_0000_0000_0101_0010#32 = .ok (.qdsub .al) ∧
    decode 0b1110_1110_0000_0000_0000_0000_000_0_0000#32 = .ok (.cdp .al) ∧
    decode 0b1110_1110_000_0_0000_0000_0000_000_1_0000#32 = .ok (.mcr .al) ∧
    decode 0b1110_1110_000_1_0000_0000_0000_000_1_0000#32 = .ok (.mrc .al) ∧
    decode 0b1110_110_1100_1_0000_0000_0000_00000000#32 = .ok (.ldc .al) ∧
    decode 0b1110_110_1100_0_0000_0000_0000_00000000#32 = .ok (.stc .al) ∧
    decode 0b0000_1111_000000000000000000000000#32 = .ok (.swi .eq) := by decide

/-- Vectors F14 to F22: words of the regions of R117 reach no row. -/
theorem test_decode_unknown :
    ([0xE7F000F0, 0xE16F0F11, 0xF57FF05F, 0xE0400090, 0xE1200090, 0xE1800090, 0xE04000D0, 0xE3000000, 0xE1000080] : List Word).all
      (fun w => decide (decode w = .error (.unknownFormat w))) = true := by decide

/-- The table's numbering of a word is the decoder's word (R63). -/
theorem test_decodeTableWord :
    decodeTableWord 32 0xE3A00005 = some (.movDPI ⟨.al, false, 0, 0, 0, 5⟩) ∧ decodeTableWord 32 0xE7F000F0 = none := by
  decide

/-! ## One step on a small state -/

/-- A StatusRegister written `NZCV`, as the vectors write it. -/
def nzcv (b : BitVec 4) : Flags := ⟨b.getLsbD 3, b.getLsbD 2, b.getLsbD 1, b.getLsbD 0⟩

/-- The conventions of 95_test_vectors.md: one Memory of 128 bytes, both Bounds `(0, 127)`, the instruction at `0x10`, the
two data words at `0x40` and `0x44`, flags `0000`; `regs` are the registers a vector states. -/
def bench (regs : List (RegIx × Word)) (flags : BitVec 4 := 0) (at_ : Word := 0x10) : State :=
  let s : State :=
    { State.reset with
      flags := nzcv flags
      pbound := ⟨0, 127⟩
      dbound := ⟨0, 127⟩
      store := .coincident ((({ capacity := 128, cells := [] } : Memory).setWord 0x40 0x12345678).setWord 0x44 0x9ABCDEF0) }
  (regs.foldl (fun t r => t.setReg r.1 r.2) s).setPc at_

/-- The state after one step that runs the word `w`. -/
def after (w : Nat) (s : State) : Option State :=
  match step (s.withFetchWord 32 w) with
  | .next t => some t
  | _ => none

/-- What a test looks at after the step. -/
def sees {α : Type} (w : Nat) (s : State) (f : State → α) : Option α := (after w s).map f

/-- The word of data memory at `a` (storage address). -/
def wordAt (a : Nat) (t : State) : Word := t.dataMem.word a

/-- Vector A1. -/
theorem test_and : sees 0xE20010FF (bench [(0, 0x12345678)]) (fun t => t.reg 1) = some 0x78 := by decide
/-- Vector A2. -/
theorem test_eor :
    sees 0xE0202001 (bench [(0, 0xFF00FF00), (1, 0x0FF00FF0)]) (fun t => t.reg 2) =
      some 0xF0F0F0F0 := by decide
/-- Vector A4. -/
theorem test_sub_borrow :
    sees 0xE2511001 (bench [(1, 0)]) (fun t => (t.reg 1, t.flags)) =
      some (0xFFFFFFFF, nzcv 0b1000) := by decide
/-- Vector A5. -/
theorem test_sub_overflow :
    sees 0xE2511001 (bench [(1, 0x80000000)]) (fun t => (t.reg 1, t.flags)) =
      some (0x7FFFFFFF, nzcv 0b0011) := by decide
/-- Vector A6. -/
theorem test_rsb_minimum :
    sees 0xE2701000 (bench [(0, 0x80000000)]) (fun t => (t.reg 1, t.flags)) =
      some (0x80000000, nzcv 0b1001) := by decide
/-- Vector A8. -/
theorem test_rsb_no_flags :
    sees 0xE2601000 (bench [(0, 5)]) (fun t => (t.reg 1, t.flags)) =
      some (0xFFFFFFFB, nzcv 0b0000) := by decide
/-- Vector A10. -/
theorem test_add_overflow :
    sees 0xE2900001 (bench [(0, 0x7FFFFFFF)]) (fun t => (t.reg 0, t.flags)) =
      some (0x80000000, nzcv 0b1001) := by decide
/-- Vector A12. -/
theorem test_add_both :
    sees 0xE0900000 (bench [(0, 0x80000000)]) (fun t => (t.reg 0, t.flags)) =
      some (0, nzcv 0b0111) := by decide
/-- Vector A13. -/
theorem test_adc_wraps :
    sees 0xE2B00000 (bench [(0, 0xFFFFFFFF)] 0b0010) (fun t => (t.reg 0, t.flags)) =
      some (0, nzcv 0b0110) := by decide
/-- Vector A14. -/
theorem test_adc_carry :
    sees 0xE0A32001 (bench [(3, 1), (1, 2)] 0b0010) (fun t => (t.reg 2, t.flags)) =
      some (4, nzcv 0b0010) := by decide
/-- Vector A15. -/
theorem test_sbc :
    sees 0xE0D02001 (bench [(0, 5), (1, 3)]) (fun t => (t.reg 2, t.flags)) =
      some (1, nzcv 0b0010) := by decide
/-- Vector A16. -/
theorem test_sbc_borrow :
    sees 0xE0D02001 (bench [(0, 0), (1, 0)]) (fun t => (t.reg 2, t.flags)) =
      some (0xFFFFFFFF, nzcv 0b1000) := by decide
/-- Vector A18. -/
theorem test_rsc_carry : sees 0xE2E01000 (bench [(0, 1)] 0b0010) (fun t => t.reg 1) = some 0xFFFFFFFF := by decide
/-- Vector A19. -/
theorem test_rsc_no_carry : sees 0xE2E01000 (bench [(0, 1)]) (fun t => t.reg 1) = some 0xFFFFFFFE := by decide
/-- Vector A20. -/
theorem test_tst : sees 0xE3100001 (bench [(0, 6)]) (fun t => (t.reg 0, t.flags)) = some (6, nzcv 0b0100) := by decide
/-- Vector A21. -/
theorem test_teq :
    sees 0xE1300001 (bench [(0, 9), (1, 9)] 0b0011) (fun t => (t.flags, t.reg 0)) =
      some (nzcv 0b0111, 9) := by decide
/-- Vector A22. -/
theorem test_cmp : sees 0xE3500005 (bench [(0, 3)]) (fun t => (t.reg 0, t.flags)) = some (3, nzcv 0b1000) := by decide
/-- Vector A23. -/
theorem test_cmp_equal : sees 0xE3500005 (bench [(0, 5)]) (fun t => (t.reg 0, t.flags)) = some (5, nzcv 0b0110) := by decide
/-- Vector A24. -/
theorem test_cmn :
    sees 0xE3700001 (bench [(0, 0xFFFFFFFF)]) (fun t => (t.reg 0, t.flags)) =
      some (0xFFFFFFFF, nzcv 0b0110) := by decide
/-- Vector A25. -/
theorem test_orr : sees 0xE3800834 (bench [(0, 0x12000000)]) (fun t => t.reg 0) = some 0x12340000 := by decide
/-- Vector D3. -/
theorem test_mov_rotated : sees 0xE3A00FFF (bench []) (fun t => (t.reg 0, t.pc)) = some (0x3FC, 0x14) := by decide
/-- Vector D20: the value written, then 4 more. -/
theorem test_mov_pc : sees 0xE3A0F040 (bench []) (fun t => t.pc) = some 0x44 := by decide
/-- Vector D7: amount 0 is no shift and C is not read. -/
theorem test_mov_no_rrx : sees 0xE1A00061 (bench [(1, 0x80000001)] 0b0010) (fun t => t.reg 0) = some 0x80000001 := by decide
/-- Vector D17. -/
theorem test_mov_no_shifter_carry :
    sees 0xE1B00081 (bench [(1, 0x80000001)]) (fun t => (t.reg 0, t.flags)) =
      some (2, nzcv 0b0000) := by decide
/-- Vector D13. -/
theorem test_mov_asr_beyond :
    sees 0xE1A00251 (bench [(1, 0x80000001), (2, 40)]) (fun t => t.reg 0) =
      some 0xFFFFFFFF := by decide
/-- Vector D16. -/
theorem test_mov_low_byte : sees 0xE1A00211 (bench [(1, 0x80000001), (2, 0x104)]) (fun t => t.reg 0) = some 0x10 := by decide
/-- Vector A26. -/
theorem test_bic : sees 0xE3C010FF (bench [(0, 0x12345678)]) (fun t => t.reg 1) = some 0x12345600 := by decide
/-- Vector A28. -/
theorem test_mvn :
    sees 0xE3F00000 (bench [] 0b0011) (fun t => (t.reg 0, t.flags)) =
      some (0xFFFFFFFF, nzcv 0b1011) := by decide
/-- Vector S10, B1. -/
theorem test_b : sees 0xEAFFFFFE (bench [] 0b0000 8) (fun t => t.pc) = some 0 := by decide
/-- Vector B8. -/
theorem test_b_skipped : sees 0x1AFFFFFE (bench [] 0b0100 8) (fun t => t.pc) = some 0xC := by decide
/-- Vector B3. -/
theorem test_bl : sees 0xEB000003 (bench [] 0b0000 8) (fun t => (t.reg 14, t.pc)) = some (8, 0x14) := by decide
/-- Vector B5. -/
theorem test_bx_lr :
    sees 0xE12FFF1E (bench [(14, 0x40)] 0b0000 0x20) (fun t => (t.reg 14, t.pc)) =
      some (0x24, 0x40) := by decide
/-- Vector B6. -/
theorem test_bx_pc : sees 0xE12FFF1F (bench [] 0b0000 0x20) (fun t => (t.reg 14, t.pc)) = some (0x24, 0x20) := by decide
/-- Vector L1. -/
theorem test_ldr_post :
    sees 0xE4914004 (bench [(1, 0x40)]) (fun t => (t.reg 4, t.reg 1)) =
      some (0x12345678, 0x44) := by decide
/-- Vector L10: the load wins over the writeback. -/
theorem test_ldr_base : sees 0xE4900004 (bench [(0, 0x40)]) (fun t => t.reg 0) = some 0x12345678 := by decide
/-- Vector L5. -/
theorem test_ldr_shifted :
    sees 0xE7110102 (bench [(1, 0x50), (2, 4)]) (fun t => (t.reg 0, t.reg 1)) =
      some (0x12345678, 0x50) := by decide
/-- Vector L2. -/
theorem test_str :
    sees 0xE5810000 (bench [(0, 0x12345678), (1, 0x40)]) (fun t => (t.dataMem.byte 0x40, t.dataMem.byte 0x43)) =
      some (0x12, 0x78) := by decide
/-- Vector L13. -/
theorem test_str_pc : sees 0xE581F000 (bench [(1, 0x40)]) (fun t => wordAt 0x40 t) = some 0x10 := by decide
/-- Vector L3. -/
theorem test_ldrb : sees 0xE5D12001 (bench [(1, 0x40)]) (fun t => t.reg 2) = some 0x34 := by decide
/-- Vector L4. -/
theorem test_strb :
    sees 0xE5C10003 (bench [(0, 0xAABBCCDD), (1, 0x40)]) (fun t => wordAt 0x40 t) =
      some 0x123456DD := by decide
/-- Vector N7. -/
theorem test_ldm_down :
    sees 0xE831000C (bench [(1, 0x44)]) (fun t => (t.reg 2, t.reg 3, t.reg 1)) =
      some (0x9ABCDEF0, 0x12345678, 0x3C) := by decide
/-- Vector N5. -/
theorem test_ldm_base_in_list :
    sees 0xE8B10006 (bench [(1, 0x40)]) (fun t => (t.reg 2, t.reg 1)) =
      some (0x9ABCDEF0, 0x48) := by decide
/-- Vector N1. -/
theorem test_stm_down :
    sees 0xE92D0003 (bench [(13, 0x60), (0, 1), (1, 2)]) (fun t => (wordAt 0x5C t, wordAt 0x58 t, t.reg 13)) =
      some (1, 2, 0x58) := by decide
/-- Vector N3. -/
theorem test_stm_pc :
    sees 0xE8818005 (bench [(1, 0x40), (0, 0xA), (2, 0xB)]) (fun t => (wordAt 0x44 t, wordAt 0x48 t, t.reg 1)) =
      some (0xB, 0x10, 0x40) := by decide
/-- Vector H2. -/
theorem test_ldrh_straddles : sees 0xE1D130B0 (bench [(1, 0x43)]) (fun t => t.reg 3) = some 0x9A78 := by decide
/-- Vector H3. -/
theorem test_ldrh_register : sees 0xE19100B2 (bench [(1, 0x40), (2, 2)]) (fun t => t.reg 0) = some 0x7856 := by decide
/-- Vector H5. -/
theorem test_strh :
    sees 0xE1C100B2 (bench [(0, 0xAABBCCDD), (1, 0x40)]) (fun t => wordAt 0x40 t) =
      some 0x1234DDCC := by decide
/-- Vector H9. -/
theorem test_strh_second_byte_faults :
    sees 0xE1C100B0 (bench [(0, 0xAABB), (1, 0x7F)]) (fun t => (t.dataMem.byte 0x7F, t.haltCause)) =
      some (0xBB, some (.faulted (.memoryAccess .outOfBounds 0x80))) := by decide
/-- Vector H6, at the byte `9A`. -/
theorem test_ldrsb : sees 0xE1D120D0 (bench [(1, 0x44)]) (fun t => t.reg 2) = some 0xFFFFFF9A := by decide
/-- Vector H8, at the bytes `9A BC`. -/
theorem test_ldrsh : sees 0xE1D120F0 (bench [(1, 0x44)]) (fun t => t.reg 2) = some 0xFFFFBC9A := by decide
/-- Vector M1. -/
theorem test_mul :
    sees 0xE0120190 (bench [(0, 0xFFFFFFFF), (1, 0xFFFFFFFF)] 0b1111) (fun t => (t.reg 2, t.flags)) =
      some (1, nzcv 0b0011) := by decide
/-- Vector M4. -/
theorem test_mla :
    sees 0xE0332190 (bench [(0, 0xFFFFFFFF), (1, 0xFFFFFFFF), (2, 0xFFFFFFFF)]) (fun t => (t.reg 3, t.flags)) =
      some (0, nzcv 0b0100) := by decide
/-- Vector M5. -/
theorem test_umull :
    sees 0xE0810392 (bench [(2, 0xFFFFFFFF), (3, 0xFFFFFFFF)]) (fun t => (t.reg 1, t.reg 0)) =
      some (0xFFFFFFFE, 1) := by decide
/-- Vector M11. -/
theorem test_umull_same_register :
    sees 0xE0800392 (bench [(2, 0xFFFFFFFF), (3, 0xFFFFFFFF)]) (fun t => t.reg 0) =
      some 0xFFFFFFFE := by decide
/-- Vector M6. -/
theorem test_umlal :
    sees 0xE0B10392 (bench [(2, 0xFFFFFFFF), (3, 0xFFFFFFFF), (1, 1), (0, 0xFFFFFFFF)]) (fun t => (t.reg 1, t.reg 0, t.flags)) =
      some (0, 0, nzcv 0b0100) := by decide
/-- Vector M8. -/
theorem test_smull :
    sees 0xE0D10392 (bench [(2, 0xFFFFFFFF), (3, 2)]) (fun t => (t.reg 1, t.reg 0, t.flags)) =
      some (0xFFFFFFFF, 0xFFFFFFFE, nzcv 0b1000) := by decide
/-- Vector M10. -/
theorem test_smlal :
    sees 0xE0E10392 (bench [(2, 0xFFFFFFFF), (3, 1), (1, 0), (0, 1)]) (fun t => (t.reg 1, t.reg 0)) =
      some (0, 0) := by decide
/-- Vector W4. -/
theorem test_swp :
    sees 0xE1010090 (bench [(0, 7), (1, 0x40)]) (fun t => (t.reg 0, wordAt 0x40 t)) =
      some (0x12345678, 7) := by decide
/-- Vector W2. -/
theorem test_swpb :
    sees 0xE1410092 (bench [(1, 0x41), (2, 0xCAFEF0AB)]) (fun t => (t.reg 0, wordAt 0x40 t)) =
      some (0x34, 0x12AB5678) := by decide
/-- Vector L9. -/
theorem test_ldr_misaligned_first :
    sees 0xE5910000 (bench [(1, 0x82)]) (fun t => (t.haltCause, t.faultPc, t.pc)) =
      some (some (.faulted (.memoryAccess .misaligned 0x82)), some 0x10, 0x10) := by decide
/-- Vector N9 with W[0x7C] unwritten. -/
theorem test_ldm_faults_midway :
    sees 0xE8B1000C (bench [(1, 0x7C), (2, 9), (3, 8)]) (fun t => (t.reg 2, t.reg 3, t.reg 1, t.haltCause)) =
      some (0, 8, 0x7C, some (.faulted (.memoryAccess .outOfBounds 0x80))) := by decide

/-- The halt record after a step. -/
def record (w : Nat) : Option (Option HaltCause × Option Word × Word) :=
  sees w (bench []) (fun t => (t.haltCause, t.faultPc, t.pc))

/-- Vectors F1 to F13, and the other three of the DSP group: the record names the tag, at the instruction's own pc. -/
theorem test_refused :
    ([(0xE10F0000, .mrs), (0xE129F000, .msr), (0xE328F20F, .msr), (0xE12FFF30, .blx), (0xFA000000, .blx), (0xE1200070, .bkpt),
      (0xE1010052, .dspAddSub), (0xE1210052, .dspAddSub), (0xE1410052, .dspAddSub), (0xE1610052, .dspAddSub),
      (0xEE000000, .cdp), (0xEE000010, .mcr), (0xEE100010, .mrc), (0xED900000, .ldc), (0xED800000, .stc),
      (0xEF000000, .swi)] : List (Nat × UnimplName)).all
      (fun x => decide (record x.1 = some (some (.faulted (.unimplemented x.2)), some 0x10, 0x10))) = true := by decide

/-- Vectors F14 and F16; B12, a failed condition raises nothing. -/
theorem test_unknown :
    record 0xE7F000F0 = some (some (.faulted (.unknownFormat 0xE7F000F0)), some 0x10, 0x10) ∧
    record 0xF57FF05F = some (some (.faulted (.unknownFormat 0xF57FF05F)), some 0x10, 0x10) ∧
    record 0x0F000000 = some (none, none, 0x14) := by decide

/-- How a step that fetches nothing, or cannot fetch, ends. -/
def endOf (s : State) : Option (RunState × Option HaltCause × Option Word) :=
  match step s with
  | .next t => some (t.run, t.haltCause, t.faultPc)
  | _ => none

/-- Vector T1. -/
theorem test_end_of_program : endOf { bench [] 0 0x14 with pbound := ⟨0, 0x13⟩ } = some (.halted, some .endOfProgram, none) := by
  decide
/-- Vector T2. -/
theorem test_fetch_misaligned : endOf { bench [] 0 0x12 with pbound := ⟨0, 0x13⟩ } =
    some (.halted, some (.faulted (.memoryAccess .misaligned 0x12)), some 0x12) := by decide
/-- Vector T3: the end of the program is tested before the fetch's alignment. -/
theorem test_end_first : endOf { bench [] 0 0x15 with pbound := ⟨0, 0x13⟩ } = some (.halted, some .endOfProgram, none) := by
  decide
/-- Vector T4: the stop request is tested before the end of the program. -/
theorem test_stop_first : endOf { bench [] 0 0x200 with stopReq := true } = some (.halted, some .stopped, none) := by decide
/-- Vector T6. -/
theorem test_fetch_past_capacity : endOf { bench [] 0 0x80 with pbound := ⟨0, 255⟩ } =
    some (.halted, some (.faulted (.memoryAccess .outOfBounds 0x80)), some 0x80) := by decide

/-- Vector L16: the bound test is on the containing word; S8: a Bound may reach past the capacity. -/
theorem test_bounds :
    (({ bench [] with dbound := ⟨0, 125⟩ }).memRead1 0x7F = .ok 0) ∧
    ((Memory.mk 128 []).writeWord ⟨0, 128⟩ 0 0x12345678).toOption.map (fun m => m.readWord ⟨0, 128⟩ 0) = some (.ok 0x12345678) ∧
    ((Memory.mk 128 []).readWord ⟨0, 128⟩ 128) = .error (.memoryAccess .outOfBounds 128) := by decide

/-- R70: a partial last group is completed with zero low-order bytes. -/
theorem test_image : ((Memory.mk 128 []).loadImage [0xE3, 0xA0, 0x00, 0x05, 0x12]).word 4 = 0x12000000 := by decide

/-- R66, vector X1's windows: 1024 bytes for two Cores. -/
theorem test_slices : Config.slice 1024 2 0 = ⟨0, 511⟩ ∧ Config.slice 1024 2 1 = ⟨512, 1023⟩ := by decide

/-! ## Witnesses: what meets the hypotheses of each obligation, at a boundary where there is one -/

/-- `bench` with separate Memories: the program in one, the data words in the other. -/
def bench2 (regs : List (RegIx × Word)) : State :=
  { bench regs with store := .separate { capacity := 128, cells := [] } (bench regs).dataMem }

theorem test_witness_DecodeEncodeAgree :
    Instr.wf (.cmnDPRS ⟨.al, true, 15, 15, 15, .ror, 15⟩) = true ∧ Instr.wf (.bl ⟨.eq, 0xFFFFFF⟩) = true ∧ Instr.wf .blxImm = true := by
  decide

theorem test_witness_DecodedIsWellFormed : decode 0xE3100001#32 = .ok (.tstDPI ⟨.al, true, 0, 0, 0, 1⟩) := by decide

theorem test_witness_OpcodeTableDecides :
    (⟨.dpi .mov, 0x03A00000#32, 0x0FE00000#32⟩ : Row) ∈ opcodeRows ∧ 0xE3A00005#32 &&& 0x0FE00000#32 = 0x03A00000#32 ∧
    Cond.ofBits ((0xE3A00005#32).extractLsb' 28 4) = some .al ∧
    (Cond.ofBits ((0xE7F000F0#32).extractLsb' 28 4) = some .al ∧
      ∀ r ∈ opcodeRows, 0xE7F000F0#32 &&& r.mask ≠ r.pattern) ∧
    (0xF57FF05F#32).extractLsb' 28 4 = 0b1111#4 ∧ (0xFA000000#32).extractLsb' 28 4 = 0b1111#4 := by decide

theorem test_witness_OpcodeNumbers :
    (decode 0xE1100001#32 = .ok (.tstDPR ⟨.al, true, 0, 0, 0, .lsl, 1⟩) ∧
      dataOp? (.tstDPR ⟨.al, true, 0, 0, 0, .lsl, 1⟩) = some ⟨.tst, .al, true, 0, 0, .reg 1 .lsl 0⟩ ∧
      ((0xE1100001#32).extractLsb' 21 4).toNat = 8) ∧
    (decode 0xE3700001#32 = .ok (.cmnDPI ⟨.al, true, 0, 0, 0, 1⟩) ∧
      dataOp? (.cmnDPI ⟨.al, true, 0, 0, 0, 1⟩) = some ⟨.cmn, .al, true, 0, 0, .imm 0 1⟩ ∧
      ((0xE3700001#32).extractLsb' 21 4).toNat = 11) := by decide

theorem test_witness_DontCareBits :
    (decode 0xE12FFF10#32 = .ok (.bx ⟨.al, 0⟩) ∧
      0xE12FFF10#32 &&& caredBits (.bx ⟨.al, 0⟩) = 0xE1200010#32 &&& caredBits (.bx ⟨.al, 0⟩)) ∧
    (decode 0xE0D100B2#32 = .ok (.ldrhXLI ⟨.al, false, true, false, 1, 0, 0, 2⟩) ∧
      0xE0D100B2#32 &&& caredBits (.ldrhXLI ⟨.al, false, true, false, 1, 0, 0, 2⟩) =
        0xE0F100B2#32 &&& caredBits (.ldrhXLI ⟨.al, false, true, false, 1, 0, 0, 2⟩)) ∧
    (decode 0xE8910006#32 = .ok (.ldm ⟨.al, false, true, false, 1, 6⟩) ∧
      0xE8910006#32 &&& caredBits (.ldm ⟨.al, false, true, false, 1, 6⟩) =
        0xE8D10006#32 &&& caredBits (.ldm ⟨.al, false, true, false, 1, 6⟩)) ∧
    (decode 0xEF000000#32 = .ok (.swi .al) ∧ 0xEF000000#32 &&& caredBits (.swi .al) = 0xEFFFFFFF#32 &&& caredBits (.swi .al)) := by
  decide

/-- The first and the last word of the window. -/
theorem test_witness_StepRunsDecodedInstruction :
    ((bench [] 0 0).fetchable ∧ decodeBytes (bench [] 0 0).bytesAtPc = .ok (.andDPR ⟨.eq, false, 0, 0, 0, .lsl, 0⟩, [])) ∧
    ((bench [] 0 0x7C).fetchable ∧
      decodeBytes (bench [] 0 0x7C).bytesAtPc = .ok (.andDPR ⟨.eq, false, 0, 0, 0, .lsl, 0⟩, [])) := by decide

theorem test_witness_PlacedInstructionRuns :
    (bench []).fetchable ∧ (bench []).progMem.wf ∧ Instr.wf (.movDPI ⟨.al, false, 0, 0, 0, 5⟩) = true := by decide

theorem test_witness_FailedConditionSkips :
    ((bench []).canFetch ∧ (bench []).fetch (bench []).pc = .ok 0#32 ∧ Cond.ofBits ((0#32).extractLsb' 28 4) = some .eq ∧
      conditionPassed .eq (bench []).flags = false) ∧
    passes (.swi .eq) (bench []).flags = false := by decide

theorem test_witness_Condition1111Raises :
    let s := (bench []).withFetchWord 32 0xFA000000
    let s' := (bench []).withFetchWord 32 0xF57FF05F
    (s.canFetch ∧ s.fetch s.pc = .ok 0xFA000000#32 ∧ (0xFA000000#32).extractLsb' 28 4 = 0b1111#4 ∧
      (0xFA000000#32).extractLsb' 25 3 = 0b101#3) ∧
    (s'.canFetch ∧ s'.fetch s'.pc = .ok 0xF57FF05F#32 ∧ (0xF57FF05F#32).extractLsb' 28 4 = 0b1111#4 ∧
      (0xF57FF05F#32).extractLsb' 25 3 ≠ 0b101#3) := by decide

theorem test_witness_UnknownWordRaises :
    let s := (bench []).withFetchWord 32 0xE16F0F11
    s.canFetch ∧ s.fetch s.pc = .ok 0xE16F0F11#32 ∧ Cond.ofBits ((0xE16F0F11#32).extractLsb' 28 4) = some .al ∧
      conditionPassed .al s.flags = true ∧ ∀ r ∈ opcodeRows, 0xE16F0F11#32 &&& r.mask ≠ r.pattern := by decide

theorem test_witness_HaltedCoreStays : ((bench []).halt .stopped).run = .halted := by decide

theorem test_witness_StopRequestHalts :
    let s := { bench [] with stopReq := true }
    s.run = .running ∧ s.configOk ∧ s.stopReq = true := by decide

/-- The first pc past the Bound, and the first pc past the capacity. -/
theorem test_witness_EndOfProgramHalts :
    (let s := { bench [] 0 0x14 with pbound := ⟨0, 0x13⟩ }
     s.run = .running ∧ s.configOk ∧ s.stopReq = false ∧ s.pbound.low + s.pc.toNat > s.pbound.high) ∧
    (let s := { bench [] 0 0x80 with pbound := ⟨0, 255⟩ }
     s.canFetch ∧ s.pc.toNat % 4 = 0 ∧ s.progMem.capacity ≤ s.pbound.low + s.pc.toNat) := by decide

theorem test_witness_FetchFaults :
    (let s := { bench [] 0 0x12 with pbound := ⟨0, 0x13⟩ }
     s.canFetch ∧ s.pc.toNat % 4 ≠ 0) ∧
    (let s := { bench [] 0 0x80 with pbound := ⟨0, 255⟩ }
     s.canFetch ∧ s.progMem.capacity ≤ s.pbound.low + s.pc.toNat) := by decide

theorem test_witness_StepAnswersInsidePremises :
    (bench []).configOk ∧
    (let s := { bench [] with pbound := ⟨5, 4⟩ }
     s.run = .running ∧ ¬s.configOk) ∧
    (let s := { bench [] with dbound := ⟨2, 127⟩ }
     s.run = .running ∧ ¬s.configOk) := by decide

theorem test_witness_RaiseRecordsThePc :
    (bench [(1, 0x42)]).run = .running ∧ (bench [(1, 0x42)]).haltCause = none ∧
    sees 0xE5910000 (bench [(1, 0x42)]) (fun t => t.haltCause) = some (some (.faulted (.memoryAccess .misaligned 0x42))) := by
  decide

theorem test_witness_StepKeepsTheInvariant :
    ((bench [(1, 0x40)]).withFetchWord 32 0xE5810000).Inv ∧ (after 0xE5810000 (bench [(1, 0x40)])).isSome := by decide

theorem test_witness_StepKeepsTheConfiguration : (after 0xE5810000 (bench [(1, 0x7C)])).isSome := by decide

theorem test_witness_SeparateProgramIsNeverWritten :
    (bench2 [(1, 0x40)]).store = .separate { capacity := 128, cells := [] } (bench []).dataMem ∧
    (after 0xE5810000 (bench2 [(1, 0x40)])).isSome := by decide

theorem test_witness_FlagsChangeOnlyWhenAsked :
    (updatesFlags (.movDPI ⟨.al, false, 0, 0, 0, 5⟩) = false ∧ (after 0xE3A00005 (bench [])).isSome) ∧
    (dataOp? (.mul ⟨.al, true, 2, 0, 1, 0⟩) = none ∧ (after 0xE0120190 (bench [])).isSome) := by decide

theorem test_witness_ShifterValues : 32 ≤ (32 : Nat) ∧ (0 : Nat) % 32 = 0 ∧ (224 : Nat) % 32 = 0 := by decide

theorem test_witness_LogicalOperations :
    dataOp? (.mvnDPRS ⟨.al, true, 0, 15, 2, .ror, 15⟩) = some ⟨.mvn, .al, true, 0, 15, .regShift 15 .ror 2⟩ ∧
    AluOp.mvn ∈ [AluOp.and, .eor, .orr, .mov, .bic, .mvn] ∧ conditionPassed .al (bench []).flags = true := by decide

theorem test_witness_AddSubtractOperations :
    dataOp? (.subDPI ⟨.ne, true, 1, 1, 0, 1⟩) = some ⟨.sub, .ne, true, 1, 1, .imm 0 1⟩ ∧
    AluOp.sub ∈ [AluOp.sub, .rsb, .add] ∧ conditionPassed .ne (bench []).flags = true := by decide

theorem test_witness_CarryOperations :
    dataOp? (.rscDPR ⟨.cs, false, 1, 2, 31, .asr, 3⟩) = some ⟨.rsc, .cs, false, 1, 2, .reg 3 .asr 31⟩ ∧
    AluOp.rsc ∈ [AluOp.adc, .sbc, .rsc] ∧ conditionPassed .cs (bench [] 0b0010).flags = true := by decide

theorem test_witness_CompareOperations :
    dataOp? (.cmpDPI ⟨.al, true, 0, 0, 0, 5⟩) = some ⟨.cmp, .al, true, 0, 0, .imm 0 5⟩ ∧
    AluOp.cmp ∈ [AluOp.tst, .teq, .cmp, .cmn] ∧ conditionPassed .al (bench []).flags = true := by decide

theorem test_witness_BranchResult :
    Cond.ofBits ((0xEAFFFFFE#32).extractLsb' 28 4) = some .al ∧ 0xEAFFFFFE#32 &&& 0x0F000000#32 = 0x0A000000#32 ∧
    conditionPassed .al (bench []).flags = true ∧ (bench []).pc.toNat % 4 = 0 ∧
    sees 0xEA00001C (bench []) (fun t => decide (t.run = .running ∧ t.configOk ∧ t.stopReq = false ∧
      t.pbound.low + t.pc.toNat > t.pbound.high)) = some true := by decide

theorem test_witness_BranchLinkResult :
    Cond.ofBits ((0xEB000003#32).extractLsb' 28 4) = some .al ∧ 0xEB000003#32 &&& 0x0F000000#32 = 0x0B000000#32 ∧
    conditionPassed .al (bench []).flags = true := by decide

/-- B7: a target of `0x41`, inside the program Bound, so that the next step fetches there. -/
theorem test_witness_BranchExchangeResult :
    Cond.ofBits ((0xE12FFF10#32).extractLsb' 28 4) = some .al ∧ 0xE12FFF10#32 &&& 0x0FF000F0#32 = 0x01200010#32 ∧
    conditionPassed .al (bench [(0, 0x41)]).flags = true ∧ ((bench [(0, 0x41)]).reg 0).toNat % 4 ≠ 0 ∧
    sees 0xE12FFF10 (bench [(0, 0x41)]) (fun t => decide t.canFetch) = some true := by decide

theorem test_witness_CallAndReturn :
    let g : DPR := ⟨.al, false, 0, 15, 0, .lsl, 14⟩
    g.cond = .al ∧ g.rd = 15#4 ∧ g.rm = 14#4 ∧ g.shamt = 0 ∧ g.stype = .lsl ∧ conditionPassed .al (bench []).flags = true ∧
      (after 0xEB000003 (bench [])).isSome ∧ (after 0xE12FFF10 (bench [])).isSome := by decide

/-- A word, a byte and a halfword load, each at the last address its access passes. -/
theorem test_witness_LoadResults :
    conditionPassed .al (bench []).flags = true ∧
    (let s := bench [(1, 0x70), (2, 3)]
     let d : LoadOp := ⟨.word, .al, 0, ⟨true, true, false, 1, .reg 2 .lsl 2⟩⟩
     loadOp? (.ldrLSR ⟨.al, true, true, false, 1, 0, 2, .lsl, 2⟩) = some d ∧ d.mem.addr s = 0x7C ∧
       s.wordAccessible (d.mem.addr s)) ∧
    (let s := bench [(1, 0x7F)]
     let d : LoadOp := ⟨.signedByte, .al, 1, ⟨false, false, true, 1, .reg 2 .lsl 0⟩⟩
     loadOp? (.ldrsbXLR ⟨.al, false, false, true, 1, 1, 2⟩) = some d ∧ d.mem.addr s = 0x7F ∧
       s.byteAccessible (d.mem.addr s)) ∧
    (let s := bench [(1, 0x40)]
     let d : LoadOp := ⟨.half, .al, 1, ⟨true, true, true, 1, .imm 62⟩⟩
     loadOp? (.ldrhXLI ⟨.al, true, true, true, 1, 1, 3, 14⟩) = some d ∧ d.mem.addr s = 0x7E ∧
       s.byteAccessible (d.mem.addr s) ∧ s.byteAccessible (d.mem.addr s + 1)) := by decide

/-- A word misaligned, a word past the Bound, a byte past the Bound, a halfword whose second byte is. -/
theorem test_witness_LoadFaults :
    conditionPassed .al (bench []).flags = true ∧
    (let d : LoadOp := ⟨.word, .al, 0, ⟨true, true, false, 1, .imm 0⟩⟩
     loadOp? (.ldrLSI ⟨.al, true, true, false, 1, 0, 0⟩) = some d ∧
       ¬(bench [(1, 0x42)]).wordAccessible (d.mem.addr (bench [(1, 0x42)])) ∧
       ¬(bench [(1, 0x80)]).wordAccessible (d.mem.addr (bench [(1, 0x80)]))) ∧
    (let d : LoadOp := ⟨.byte, .al, 0, ⟨true, true, false, 1, .imm 0⟩⟩
     loadOp? (.ldrbLSI ⟨.al, true, true, false, 1, 0, 0⟩) = some d ∧
       ¬(bench [(1, 0x80)]).byteAccessible (d.mem.addr (bench [(1, 0x80)]))) ∧
    (let s := bench [(1, 0x7F)]
     let d : LoadOp := ⟨.half, .al, 3, ⟨true, true, false, 1, .imm 0⟩⟩
     loadOp? (.ldrhXLI ⟨.al, true, true, false, 1, 3, 0, 0⟩) = some d ∧ s.byteAccessible (d.mem.addr s) ∧
       ¬s.byteAccessible (d.mem.addr s + 1)) := by decide

/-- A word, a byte and a halfword store, each at the last address its access passes. -/
theorem test_witness_StoreResults :
    conditionPassed .al (bench []).flags = true ∧ (bench []).dataMem.wf ∧
    (let s := bench [(1, 0x80)]
     let d : StoreOp := ⟨.word, .al, 1, ⟨true, false, true, 1, .imm 4⟩⟩
     storeOp? (.strLSI ⟨.al, true, false, true, 1, 1, 4⟩) = some d ∧ d.mem.addr s = 0x7C ∧
       s.wordAccessible (d.mem.addr s)) ∧
    (let s := bench [(1, 0x7F)]
     let d : StoreOp := ⟨.byte, .al, 1, ⟨false, true, false, 1, .imm 4095⟩⟩
     storeOp? (.strbLSI ⟨.al, false, true, false, 1, 1, 4095⟩) = some d ∧ d.mem.addr s = 0x7F ∧
       s.byteAccessible (d.mem.addr s)) ∧
    (let s := bench [(1, 0x40), (2, 62)]
     let d : StoreOp := ⟨.half, .al, 0, ⟨true, true, false, 1, .reg 2 .lsl 0⟩⟩
     storeOp? (.strhXLR ⟨.al, true, true, false, 1, 0, 2⟩) = some d ∧ d.mem.addr s = 0x7E ∧
       s.byteAccessible (d.mem.addr s) ∧ s.byteAccessible (d.mem.addr s + 1)) := by decide

theorem test_witness_StoreFaults :
    conditionPassed .al (bench []).flags = true ∧
    (let s := bench [(1, 0x41)]
     let d : StoreOp := ⟨.word, .al, 0, ⟨true, true, false, 1, .imm 0⟩⟩
     storeOp? (.strLSI ⟨.al, true, true, false, 1, 0, 0⟩) = some d ∧ d.kind = .word ∧ ¬s.wordAccessible (d.mem.addr s)) ∧
    (let s := bench [(1, 0x80)]
     let d : StoreOp := ⟨.half, .al, 0, ⟨true, true, false, 1, .imm 0⟩⟩
     storeOp? (.strhXLI ⟨.al, true, true, false, 1, 0, 0, 0⟩) = some d ∧ d.kind ≠ .word ∧
       ¬s.byteAccessible (d.mem.addr s)) := by decide

/-- H9 and H10. -/
theorem test_witness_StoreHalfSecondByteFaults :
    let d : StoreOp := ⟨.half, .al, 0, ⟨true, true, false, 1, .imm 0⟩⟩
    storeOp? (.strhXLI ⟨.al, true, true, false, 1, 0, 0, 0⟩) = some d ∧ d.kind = .half ∧
    conditionPassed .al (bench []).flags = true ∧ (bench []).dataMem.wf ∧
    (let s := bench [(1, 0x7F)]
     s.byteAccessible (d.mem.addr s) ∧ ¬s.byteAccessible (d.mem.addr s + 1)) ∧
    (let s := { bench [(1, 0x7B)] with dbound := ⟨0, 0x7B⟩ }
     s.byteAccessible (d.mem.addr s) ∧ ¬s.byteAccessible (d.mem.addr s + 1)) := by decide

/-- N7 (down, base and its lower neighbour), and the empty list. -/
theorem test_witness_LoadMultipleResult :
    conditionPassed .al (bench []).flags = true ∧
    (∀ k : RegIx, lsmSelects ⟨.al, false, false, true, 1, 0x000C⟩ k →
      (bench [(1, 0x44)]).wordAccessible (lsmAddr ⟨.al, false, false, true, 1, 0x000C⟩ (bench [(1, 0x44)]) k)) ∧
    (∀ k : RegIx, lsmSelects ⟨.al, true, true, true, 1, 0⟩ k →
      (bench [(1, 0x7C)]).wordAccessible (lsmAddr ⟨.al, true, true, true, 1, 0⟩ (bench [(1, 0x7C)]) k)) := by decide

/-- N9: the second of two transfers is past the Bound; N10: the first is misaligned. -/
theorem test_witness_LoadMultipleFault :
    conditionPassed .al (bench []).flags = true ∧
    (let f : LSM := ⟨.al, false, true, true, 1, 0x000C⟩
     let s := bench [(1, 0x7C)]
     lsmSelects f 3 ∧ ¬s.wordAccessible (lsmAddr f s 3) ∧
       ∀ j : RegIx, lsmSelects f j → j.toNat < (3 : RegIx).toNat → s.wordAccessible (lsmAddr f s j)) ∧
    (let f : LSM := ⟨.al, false, true, false, 1, 0x0001⟩
     let s := bench [(1, 0x41)]
     lsmSelects f 0 ∧ ¬s.wordAccessible (lsmAddr f s 0) ∧
       ∀ j : RegIx, lsmSelects f j → j.toNat < (0 : RegIx).toNat → s.wordAccessible (lsmAddr f s j)) := by decide

/-- N1. -/
theorem test_witness_StoreMultipleResult :
    conditionPassed .al (bench []).flags = true ∧ (bench [(13, 0x60)]).dataMem.wf ∧
    ∀ k : RegIx, lsmSelects ⟨.al, true, false, true, 13, 0x0003⟩ k →
      (bench [(13, 0x60)]).wordAccessible (lsmAddr ⟨.al, true, false, true, 13, 0x0003⟩ (bench [(13, 0x60)]) k) := by decide

theorem test_witness_StoreMultipleFault :
    conditionPassed .al (bench []).flags = true ∧ (bench []).dataMem.wf ∧
    (let f : LSM := ⟨.al, true, true, true, 1, 0x8001⟩
     let s := bench [(1, 0x78)]
     lsmSelects f 15 ∧ ¬s.wordAccessible (lsmAddr f s 15) ∧
       ∀ j : RegIx, lsmSelects f j → j.toNat < (15 : RegIx).toNat → s.wordAccessible (lsmAddr f s j)) := by decide

theorem test_witness_MultiplyResult :
    Cond.ofBits ((0xE0120190#32).extractLsb' 28 4) = some .al ∧ 0xE0120190#32 &&& 0x0FE000F0#32 = 0x00000090#32 ∧
    0xE0232190#32 &&& 0x0FE000F0#32 = 0x00200090#32 ∧ conditionPassed .al (bench []).flags = true := by decide

theorem test_witness_LongMultiplyResult :
    Cond.ofBits ((0xE0810392#32).extractLsb' 28 4) = some .al ∧ 0xE0810392#32 &&& 0x0FE000F0#32 = 0x00800090#32 ∧
    0xE0B10392#32 &&& 0x0FE000F0#32 = 0x00A00090#32 ∧ 0xE0C10392#32 &&& 0x0FE000F0#32 = 0x00C00090#32 ∧
    0xE0E10392#32 &&& 0x0FE000F0#32 = 0x00E00090#32 ∧ conditionPassed .al (bench []).flags = true := by decide

theorem test_witness_SwapResults :
    Cond.ofBits ((0xE1010092#32).extractLsb' 28 4) = some .al ∧ 0xE1010092#32 &&& 0x0FF000F0#32 = 0x01000090#32 ∧
    0xE1410092#32 &&& 0x0FF000F0#32 = 0x01400090#32 ∧ conditionPassed .al (bench []).flags = true ∧ (bench []).dataMem.wf ∧
    (bench [(1, 0x7C)]).wordAccessible ((bench [(1, 0x7C)]).reg 1) ∧
    (bench [(1, 0x7F)]).byteAccessible ((bench [(1, 0x7F)]).reg 1) ∧
    ¬(bench [(1, 0x42)]).wordAccessible ((bench [(1, 0x42)]).reg 1) ∧
    ¬(bench [(1, 0x80)]).byteAccessible ((bench [(1, 0x80)]).reg 1) := by decide

theorem test_witness_RefusedInstructionsRaise :
    (unimplName? (.swi .eq) = some .swi ∧ passes (.swi .eq) (nzcv 0b0100) = true ∧ passes (.swi .eq) (nzcv 0) = false) ∧
    (unimplName? .blxImm = some .blx ∧ passes .blxImm (nzcv 0) = true) := by decide

/-- Each clause, at addresses where clauses meet: aligned or not, the last inside and the first outside. -/
theorem test_witness_AccessChecks :
    let m : Memory := ⟨128, []⟩
    let b : Bound := ⟨0, 125⟩
    (0x81#32).toNat % 4 ≠ 0 ∧ ((0x80#32).toNat % 4 = 0 ∧ b.low + (0x80#32).toNat > b.high) ∧
    ((0x7C#32).toNat % 4 = 0 ∧ b.low + (0x7C#32).toNat ≤ b.high ∧ b.low + (0x7C#32).toNat < m.capacity) ∧
    b.low + ((0x80#32).toNat - (0x80#32).toNat % 4) > b.high ∧
    (b.low + ((0x7F#32).toNat - (0x7F#32).toNat % 4) ≤ b.high ∧
      b.low + ((0x7F#32).toNat - (0x7F#32).toNat % 4) < m.capacity) := by decide

theorem test_witness_WordWriteThenRead :
    (Memory.mk 128 []).wf ∧ (0x7E#32).toNat % 4 ≠ 0 ∧ ((0x80#32).toNat % 4 = 0 ∧ 0 + (0x80#32).toNat ≥ 128) ∧
    ((0x7C#32).toNat % 4 = 0 ∧ 0 + (0x7C#32).toNat ≤ 127 ∧ 0 + (0x7C#32).toNat < 128) := by decide

theorem test_witness_ByteWriteKeepsTheOthers :
    (Memory.mk 128 []).wf ∧ 0 + ((0x80#32).toNat - (0x80#32).toNat % 4) ≥ 128 ∧
    (0 + ((0x7F#32).toNat - (0x7F#32).toNat % 4) ≤ 127 ∧ 0 + ((0x7F#32).toNat - (0x7F#32).toNat % 4) < 128) := by decide

theorem test_witness_MixedWidthReads :
    (bench []).dataMem.wf ∧ ((bench []).memWrite4 0x7C 0x12345678).toOption.isSome := by decide

/-- A program that overwrites its own next word. -/
theorem test_witness_StoreIsSeenByTheFetch :
    let s := (bench [(1, 0x14)]).withFetchWord 32 0xE5810000
    let d : StoreOp := ⟨.word, .al, 0, ⟨true, true, false, 1, .imm 0⟩⟩
    s.store = .coincident s.dataMem ∧ s.dataMem.wf ∧ s.pbound = s.dbound ∧
    storeOp? (.strLSI ⟨.al, true, true, false, 1, 0, 0⟩) = some d ∧ d.kind = .word ∧ conditionPassed .al s.flags = true ∧
    s.wordAccessible (d.mem.addr s) ∧ (after 0xE5810000 (bench [(1, 0x14)])).isSome := by decide

/-- An image of five bytes: three bytes of padding. -/
theorem test_witness_ImageLoads :
    (Memory.mk 128 []).wf ∧ ([1, 2, 3, 4, 5] : List Byte).length ≤ 7 ∧ 7 < (5 + 3) / 4 * 4 ∧ (5 + 3) / 4 * 4 ≤ 8 := by decide

/-- The first byte past a window whose `high` is inside a word. -/
theorem test_witness_WritesStayInTheWindow :
    ¬windowReaches ⟨0, 125⟩ 128 ∧ (after 0xE5810000 { bench [(1, 0x7C)] with dbound := ⟨0, 125⟩ }).isSome := by
  unfold windowReaches; decide

/-- Two machines whose Memories differ at storage address 0, outside the window `[64, 127]`. -/
theorem test_witness_NothingOutsideIsSeen :
    let s : State := { bench [] with pbound := ⟨64, 127⟩, dbound := ⟨64, 127⟩ }
    let s' : State := { s with store := .coincident (s.dataMem.setByte 0 0xFF) }
    AgreeInWindows s s' ∧ s' ≠ s ∧ (endOf s).isSome := by
  refine ⟨⟨rfl, rfl, by decide, fun a h => ?_, fun a h => ?_⟩, by decide, by decide⟩
  · exact Memory.byte_setByte_ne _ _ (by have := h.1; intro he; subst he; simp at this)
  · exact Memory.byte_setByte_ne _ _ (by have := h.1; intro he; subst he; simp at this)

/-- Vector X1's Processor: two Cores, each with half of one Memory of 1024 bytes. -/
def twoCores : Processor := Processor.vonNeumann { capacity := 1024, cells := [] } 2

/-- R5, R6, R293: no Core is an invalid core count. -/
theorem test_no_cores :
    Processor.configure .vonNeumann { capacity := 1024, cells := [] } 0 = .error .configurationError ∧
    Processor.configure .harvard { capacity := 128, cells := [] } 0 = .error .configurationError ∧
    ¬(Processor.mk [] []).finished := by decide

/-- R5, R6, R293: a capacity that is no power of two is an invalid Memory size; one Core in 128 bytes is valid. -/
theorem test_configure :
    Processor.configure .vonNeumann { capacity := 192, cells := [] } 1 = .error .configurationError ∧
    (Processor.configure .harvard { capacity := 128, cells := [] } 1).toOption.isSome := by decide

theorem test_no_cores_no_step : (Processor.mk [] []).stepCore 0 = .fault .configurationError := rfl

theorem twoCores_sound : twoCores.sound := by
  refine ⟨by decide, by decide, by decide, fun k hk => ?_⟩
  have h : k = 0 ∨ k = 1 := by
    have : twoCores.cores.length = 2 := by decide
    omega
  rcases h with rfl | rfl
  · exact ⟨_, rfl, by decide⟩
  · exact ⟨_, rfl, by decide⟩

theorem test_witness_OtherCoresAreUntouched :
    (0 : Nat) ≠ 1 ∧ twoCores.sound ∧ (∃ q, twoCores.stepCore 0 = .next q) ∧
      (twoCores.view 1).isSome := ⟨by decide, twoCores_sound, ⟨_, rfl⟩, by decide⟩

theorem test_witness_CoresCommute :
    (0 : Nat) ≠ 1 ∧ 0 < twoCores.cores.length ∧ 1 < twoCores.cores.length ∧ twoCores.sound :=
  ⟨by decide, by decide, by decide, twoCores_sound⟩

theorem test_witness_SlicesAreDisjoint : 0 < (Memory.mk 1024 []).capacity / 2 ∧ 0 < (Memory.mk 128 []).capacity / 128 := by decide

end Sys2Proof.Tests
end

