-- ==== Sys2Proof/Proofs/HaltedCore.lean ====
section
/-! PROOFS. The run state of a Core (spec 10_state.md R35): where it starts, why Halted is terminal, and what the reset
input makes of it. -/

namespace Sys2Proof.Machine

/-! ## Reset -/

/-- The reset values put the pc after the fifteen registers of `INIT_REG`, so `x[15]` is 0 whatever those are (R39). -/
@[simp] theorem State.applyReset_pc (s : State) : s.applyReset.pc = 0 := by
  simp [State.pc, State.reg, resetRegs]

/-- The machine right after reset is a fixed point of the reset input, so what holds of `applyReset` holds of it. -/
theorem State.reset_applyReset : State.reset.applyReset = State.reset := rfl

theorem State.reset_run : State.reset.run = .running := rfl

theorem State.reset_pc : State.reset.pc = 0 := by
  rw [← State.reset_applyReset, State.applyReset_pc]

/-! ## A Halted Core -/

theorem step_halted {s : State} (h : s.run = .halted) : step s = .next s := by
  simp [step, select_halted h]

/-- A state that one step leaves as it is, is left as it is by any number of steps. -/
theorem run_of_step_self (M : Host.Core) {s : M.State} (h : M.step s = .next s) (n : Nat) : M.run n s = .next s := by
  induction n with
  | zero => rfl
  | succ n ih => simp only [Host.Core.run, h, ih]

/-- Settles O13: a Halted Core is a fixed point of `step`, hence of every run (R35). -/
theorem haltedCoreStays : Obligations.HaltedCoreStays := by
  unfold Obligations.HaltedCoreStays
  refine ⟨⟨State.reset_run, State.reset_pc⟩, ?_, State.applyReset_run⟩
  intro s n hs
  exact run_of_step_self Sys2Proof.core (step_halted hs) n

end Sys2Proof.Machine
end

