-- ==== Sys2Proof/Proofs/MemoryAccess.lean ====
section
/-! PROOFS. One access to a Memory through a Bound (spec 20_memory.md R53 to R59, R68): the checks decide alone whether it
is made, and a write that is made reads back and changes nothing outside the word or byte addressed. -/

namespace Sys2Proof.Machine

section
variable {m : Memory} {b : Bound} {addr : Word} {f : FaultInfo}

/-! ## An access that its check refuses -/

theorem Memory.readWord_of_check_some (h : checkWord m b addr = some f) : m.readWord b addr = .error f := by
  simp [Memory.readWord, h]

theorem Memory.writeWord_of_check_some (h : checkWord m b addr = some f) (v : Word) :
    m.writeWord b addr v = .error f := by
  simp [Memory.writeWord, h]

theorem Memory.readByte_of_check_some (h : checkByte m b addr = some f) : m.readByte b addr = .error f := by
  simp [Memory.readByte, h]

theorem Memory.writeByte_of_check_some (h : checkByte m b addr = some f) (x : Byte) :
    m.writeByte b addr x = .error f := by
  simp [Memory.writeByte, h]

/-! ## An access that passes its check -/

theorem Memory.readWord_of_check_none (h : checkWord m b addr = none) :
    m.readWord b addr = .ok (m.word (resolveWord b addr)) := by
  simp [Memory.readWord, h]

theorem Memory.writeWord_of_check_none (h : checkWord m b addr = none) (v : Word) :
    m.writeWord b addr v = .ok (m.setWord (resolveWord b addr) v) := by
  simp [Memory.writeWord, h]

theorem Memory.readByte_of_check_none (h : checkByte m b addr = none) :
    m.readByte b addr = .ok (m.byte (storageByte b addr)) := by
  simp [Memory.readByte, h]

theorem Memory.writeByte_of_check_none (h : checkByte m b addr = none) (x : Byte) :
    m.writeByte b addr x = .ok (m.setByte (storageByte b addr) x) := by
  simp [Memory.writeByte, h]

/-! ## The checks and a write

A check looks at the capacity and not at the contents, so no write changes what a later check answers. -/

@[simp] theorem checkWord_setWord (m : Memory) (b : Bound) (addr : Word) (a : Nat) (v : Word) :
    checkWord (m.setWord a v) b addr = checkWord m b addr := rfl

@[simp] theorem checkByte_setByte (m : Memory) (b : Bound) (addr : Word) (a : Nat) (x : Byte) :
    checkByte (m.setByte a x) b addr = checkByte m b addr := rfl

/-- `writeWord(addr, v); readWord(addr) == v` (R57). -/
theorem Memory.readWord_setWord (hm : m.wf) (h : checkWord m b addr = none) (v : Word) :
    (m.setWord (resolveWord b addr) v).readWord b addr = .ok v := by
  have hcheck : checkWord (m.setWord (resolveWord b addr) v) b addr = none := by simpa using h
  rw [Memory.readWord_of_check_none hcheck, Memory.word_setWord hm.1]

/-- A written byte reads back (R59). -/
theorem Memory.readByte_setByte (hm : m.wf) (h : checkByte m b addr = none) (x : Byte) :
    (m.setByte (storageByte b addr) x).readByte b addr = .ok x := by
  have hcheck : checkByte (m.setByte (storageByte b addr) x) b addr = none := by simpa using h
  rw [Memory.readByte_of_check_none hcheck, Memory.byte_setByte_eq hm.1]

end

/-! ## The obligations -/

/-- Settles O50: each access answers what its check says, and each clause is one answer of the check. -/
theorem accessChecks : Obligations.AccessChecks := by
  unfold Obligations.AccessChecks
  intro m b addr v x
  refine ⟨fun hmis => ?_, fun hal hout => ?_, fun hal hhigh hcap => ?_, fun hout => ?_, fun hhigh hcap => ?_⟩
  · have h := checkWord_misaligned (m := m) (b := b) hmis
    exact ⟨Memory.readWord_of_check_some h, Memory.writeWord_of_check_some h v⟩
  · have h := checkWord_outOfBounds (m := m) (b := b) hal (by omega)
    exact ⟨Memory.readWord_of_check_some h, Memory.writeWord_of_check_some h v⟩
  · have h : checkWord m b addr = none := checkWord_eq_none.2 ⟨hal, hhigh, hcap⟩
    exact ⟨⟨_, Memory.readWord_of_check_none h⟩, _, Memory.writeWord_of_check_none h v⟩
  · have h := checkByte_outOfBounds (m := m) (b := b) (addr := addr) (by omega)
    exact ⟨Memory.readByte_of_check_some h, Memory.writeByte_of_check_some h x⟩
  · have h : checkByte m b addr = none := checkByte_eq_none.2 ⟨hhigh, hcap⟩
    exact ⟨⟨_, Memory.readByte_of_check_none h⟩, _, Memory.writeByte_of_check_none h x⟩

/-- Settles O51: a write that passes its check is `setWord` at the resolved address, which the word's read-back and frame
are lemmas about. -/
theorem wordWriteThenRead : Obligations.WordWriteThenRead := by
  unfold Obligations.WordWriteThenRead
  intro m b addr v hm
  refine ⟨fun hmis => ?_, fun hal hout => ?_, fun hal hhigh hcap => ?_⟩
  · exact Memory.writeWord_of_check_some (checkWord_misaligned hmis) v
  · exact Memory.writeWord_of_check_some (checkWord_outOfBounds hal (by omega)) v
  · have h : checkWord m b addr = none := checkWord_eq_none.2 ⟨hal, hhigh, hcap⟩
    exact ⟨_, Memory.writeWord_of_check_none h v, Memory.readWord_setWord hm h v, Memory.setWord_capacity ..,
      fun _ ha => m.byte_setWord_ne v ha⟩

/-- Settles O52: a write that passes its check is `setByte` at the addressed byte itself, so the other three bytes of the
containing word are among those the frame keeps. -/
theorem byteWriteKeepsTheOthers : Obligations.ByteWriteKeepsTheOthers := by
  unfold Obligations.ByteWriteKeepsTheOthers
  intro m b addr x hm
  refine ⟨fun hout => ?_, fun hhigh hcap => ?_⟩
  · exact Memory.writeByte_of_check_some (checkByte_outOfBounds (by omega)) x
  · have h : checkByte m b addr = none := checkByte_eq_none.2 ⟨hhigh, hcap⟩
    exact ⟨_, Memory.writeByte_of_check_none h x, Memory.readByte_setByte hm h x, Memory.setByte_capacity ..,
      fun _ ha => m.byte_setByte_ne x ha⟩

end Sys2Proof.Machine
end

