-- ==== Sys2Proof/Proofs/OpcodeTable.lean ====
section
/-! PROOFS. The opcode table and the decoder (spec 30_encoding.md R96, R116, R122). The one fact is `leaf_eq_some_iff`: the
tree of R96 ends at a leaf exactly for the words that the leaf's row selects. One direction follows the tree and collects
the bits it tested; the other reads the tested fields off the row. -/

namespace Sys2Proof

open Machine

/-! ## Words under a mask -/

section
variable {w w' m m' p p' : Word}

theorem and_or_of_and (h : w &&& m = p) (h' : w &&& m' = p') : w &&& (m ||| m') = p ||| p' := by
  rw [← h, ← h']
  ext i
  simp [Bool.and_or_distrib_left]

theorem and_of_subset (h : w &&& m = p) (hm : m' &&& m = m') : w &&& m' = p &&& m' := by
  rw [← h, BitVec.and_assoc, BitVec.and_comm m, hm]

/-- A field that the mask covers is the pattern's. -/
theorem field_of_and {lo len : Nat} (h : w &&& m = p) (hm : m.extractLsb' lo len = BitVec.allOnes len) :
    w.extractLsb' lo len = p.extractLsb' lo len := by
  rw [← h, BitVec.extractLsb'_and, hm, BitVec.and_allOnes]

theorem bit_of_and {k : Nat} (h : w &&& m = p) (hm : m.getLsbD k = true) : w.getLsbD k = p.getLsbD k := by
  rw [← h, BitVec.getLsbD_and, hm, Bool.and_true]

theorem and_place (w : Word) (lo len : Nat) :
    w &&& place lo (BitVec.allOnes len) = place lo (w.extractLsb' lo len) := by
  apply BitVec.eq_of_getLsbD_eq
  intro i hi
  simp only [BitVec.getLsbD_and, getLsbD_place, BitVec.getLsbD_allOnes, BitVec.getLsbD_extractLsb']
  by_cases h : lo ≤ i
  · simp [hi, h, Bool.and_comm]
  · simp [h]

/-- A field with a known value, as a mask and a pattern. -/
theorem and_of_field {lo len n : Nat} (h : (w.extractLsb' lo len).toNat = n) :
    w &&& place lo (BitVec.allOnes len) = place lo (BitVec.ofNat len n) := by
  rw [and_place, ← h, BitVec.ofNat_toNat, BitVec.setWidth_eq]

theorem extractLsb'_one (w : Word) (k : Nat) : w.extractLsb' k 1 = BitVec.ofBool (w.getLsbD k) := by
  ext i hi
  obtain rfl : i = 0 := by omega
  simp

theorem and_of_bit {k : Nat} {b : Bool} (h : w.getLsbD k = b) : w &&& placeBit k true = placeBit k b := by
  rw [← h, placeBit, placeBit, ← extractLsb'_one]
  exact and_place w k 1

end

theorem toNat_eq_three {x : BitVec 2} (h0 : x.toNat ≠ 0) (h1 : x.toNat ≠ 1) (h2 : x.toNat ≠ 2) : x.toNat = 3 := by
  omega

theorem toNat_eq_seven {x : BitVec 3} (h0 : x.toNat ≠ 0) (h1 : x.toNat ≠ 1) (h2 : x.toNat ≠ 2) (h3 : x.toNat ≠ 3)
    (h4 : x.toNat ≠ 4) (h5 : x.toNat ≠ 5) (h6 : x.toNat ≠ 6) : x.toNat = 7 := by
  omega

/-! ## The row of a leaf -/

/-- The word is one the row stands for (R122). -/
abbrev Row.selects (r : Row) (w : Word) : Prop := w &&& r.mask = r.pattern

/-- The row of a leaf, as the table lists it; the default is never taken (`rowOf_mem`). -/
def rowOf (l : Leaf) : Row := (opcodeRows.find? (·.leaf = l)).getD ⟨l, 0, 0⟩

/-- The table lists one row for each leaf. -/
theorem rowOf_leaf : ∀ r ∈ opcodeRows, rowOf r.leaf = r := by decide

theorem rowOf_mem (l : Leaf) : rowOf l ∈ opcodeRows := by
  cases l
  case dpi a | dpr a | dprs a => cases a <;> decide
  all_goals decide

/-- What the table tests of `i[24:20]` for an operation: its number, and `S` for TST, TEQ, CMP and CMN (R116). -/
def aluMask (a : AluOp) : Word := place 21 (BitVec.allOnes 4) ||| if writesRd a then 0 else placeBit 20 true

/-- The value of the bits of `aluMask`. -/
def aluPattern (a : AluOp) : Word := place 21 a.bits ||| if writesRd a then 0 else placeBit 20 true

theorem rowOf_dpi (a : AluOp) :
    rowOf (.dpi a) = ⟨.dpi a, 0x02000000#32 ||| aluPattern a, 0x0E000000#32 ||| aluMask a⟩ := by cases a <;> rfl

theorem rowOf_dpr (a : AluOp) :
    rowOf (.dpr a) = ⟨.dpr a, 0x00000000#32 ||| aluPattern a, 0x0E000010#32 ||| aluMask a⟩ := by cases a <;> rfl

theorem rowOf_dprs (a : AluOp) :
    rowOf (.dprs a) = ⟨.dprs a, 0x00000010#32 ||| aluPattern a, 0x0E000090#32 ||| aluMask a⟩ := by cases a <;> rfl

section
variable {w m m' p p' : Word} {l l' : Leaf}

/-- A row selects a word when two tested parts of the word cover the row's mask and hold its pattern. -/
theorem selects_of_parts (h : w &&& m = p) (h' : w &&& m' = p')
    (hr : (rowOf l).mask &&& (m ||| m') = (rowOf l).mask ∧ (p ||| p') &&& (rowOf l).mask = (rowOf l).pattern) :
    (rowOf l).selects w :=
  (and_of_subset (and_or_of_and h h') hr.1).trans hr.2

/-- A test of one bit that chooses between two leaves. -/
theorem selects_of_bit {k : Nat} (h : w &&& m = p)
    (hl : (rowOf l).mask &&& (m ||| placeBit k true) = (rowOf l).mask ∧
      (p ||| placeBit k true) &&& (rowOf l).mask = (rowOf l).pattern)
    (hl' : (rowOf l').mask &&& (m ||| placeBit k true) = (rowOf l').mask ∧
      (p ||| placeBit k false) &&& (rowOf l').mask = (rowOf l').pattern) :
    (rowOf (if w.getLsbD k then l else l')).selects w := by
  split
  next hb => exact selects_of_parts h (and_of_bit hb) hl
  next hb => exact selects_of_parts h (and_of_bit (eq_false_of_ne_true hb)) hl'

/-- What a selected word holds under a part of the row's mask. -/
theorem and_of_selects (h : (rowOf l).selects w)
    (hr : m &&& (rowOf l).mask = m ∧ (rowOf l).pattern &&& m = p) : w &&& m = p :=
  (and_of_subset h hr.1).trans hr.2

end

/-! ## The operation field of a data-processing word (R116) -/

theorem AluOp.bits_ofBits (x : BitVec 4) : (AluOp.ofBits x).bits = x := by
  revert x
  decide

/-- TST, TEQ, CMP and CMN are the opcodes with `i[24:23] = 10`. -/
theorem writesRd_iff_bits (a : AluOp) : writesRd a = true ↔ a.bits.extractLsb' 2 2 ≠ 0b10#2 := by
  cases a <;> decide

section
variable {w : Word} {a : AluOp}

theorem and_aluMask (ha : w.extractLsb' 21 4 = a.bits) (hs : writesRd a = false → w.getLsbD 20 = true) :
    w &&& aluMask a = aluPattern a := by
  refine and_or_of_and ((and_place w 21 4).trans (by rw [ha])) ?_
  cases hw : writesRd a
  · exact and_of_bit (hs hw)
  · simp

/-- A word outside the control space is one whose S is 1 if its opcode is a compare's (R96, R116). -/
theorem not_control_iff (ha : w.extractLsb' 21 4 = a.bits) :
    ¬(decide (w.extractLsb' 23 2 = 0b10#2) && !w.getLsbD 20) = true ↔ (writesRd a = false → w.getLsbD 20 = true) := by
  have h23 : w.extractLsb' 23 2 = a.bits.extractLsb' 2 2 := by
    rw [← ha]
    ext i
    simp [← Nat.add_assoc]
    omega
  rw [h23, ← Bool.not_eq_true, writesRd_iff_bits]
  simp

end
/-! ## From the tree to the row -/

section
variable {w : Word} {l : Leaf}

theorem selects_of_multiplyLeaf (hg : w &&& 0x0E0000F0#32 = 0x00000090#32) (h : multiplyLeaf w = some l) :
    (rowOf l).selects w := by
  unfold multiplyLeaf at h
  split at h
  case h_1 h21 | h_2 h21 | h_3 h21 | h_4 h21 | h_5 h21 | h_6 h21 =>
    cases h
    exact selects_of_parts hg (and_of_field h21) (by decide)
  case h_7 h21 | h_8 h21 =>
    split at h
    · cases h
    next h20 =>
      cases h
      exact selects_of_parts hg (and_or_of_and (and_of_field h21) (and_of_bit (eq_false_of_ne_true h20))) (by decide)
  case h_9 => cases h

theorem selects_of_extendedLeaf (hg : w &&& 0x0E000090#32 = 0x00000090#32) (hne : w.extractLsb' 5 2 ≠ 0b00#2)
    (h : extendedLeaf w = some l) : (rowOf l).selects w := by
  unfold extendedLeaf at h
  split at h
  case h_1 h20 h5 | h_2 h20 h5 | h_4 h20 h5 =>
    cases h
    exact selects_of_bit (and_or_of_and hg (and_or_of_and (and_of_bit h20) (and_of_field h5))) (by decide) (by decide)
  case h_3 h20 h1 h2 =>
    have h5 := toNat_eq_three (fun h0 => hne (BitVec.eq_of_toNat_eq h0)) h1 h2
    cases h
    exact selects_of_bit (and_or_of_and hg (and_or_of_and (and_of_bit h20) (and_of_field h5))) (by decide) (by decide)
  case h_5 => cases h

theorem selects_of_controlLeaf (hg : w &&& 0x0F900000#32 = 0x01000000#32) (h : controlLeaf w = some l) :
    (rowOf l).selects w := by
  unfold controlLeaf at h
  split at h
  case h_1 h4 h21 | h_2 h4 h21 | h_3 h4 h21 | h_5 h4 h21 | h_6 h4 h21 | h_7 h4 h21 | h_8 h4 h21 | h_9 h4 h21 |
      h_11 h4 h21 =>
    cases h
    exact selects_of_parts hg (and_or_of_and (and_of_field h4) (and_of_field h21)) (by decide)
  case h_4 h4 h0 h1 h2 | h_10 h4 h0 h1 h2 =>
    have h21 := toNat_eq_three h0 h1 h2
    cases h
    exact selects_of_parts hg (and_or_of_and (and_of_field h4) (and_of_field h21)) (by decide)
  case h_12 => cases h

theorem selects_singleLeaf_imm (hg : w &&& 0x0E000000#32 = 0x04000000#32) : (rowOf (singleLeaf false w)).selects w := by
  unfold singleLeaf
  split
  case h_1 h20 h22 | h_2 h20 h22 | h_3 h20 h22 | h_4 h20 h22 =>
    exact selects_of_parts hg (and_or_of_and (and_of_bit h20) (and_of_bit h22)) (by decide)
  all_goals contradiction

theorem selects_singleLeaf_reg (hg : w &&& 0x0E000010#32 = 0x06000000#32) : (rowOf (singleLeaf true w)).selects w := by
  unfold singleLeaf
  split
  case h_5 h20 h22 | h_6 h20 h22 | h_7 h20 h22 | h_8 h20 h22 =>
    exact selects_of_parts hg (and_or_of_and (and_of_bit h20) (and_of_bit h22)) (by decide)
  all_goals contradiction

/-- The bits the tree of R96 tested on its way to a leaf are those of the leaf's row. -/
theorem selects_of_leaf (h : leaf w = some l) : (rowOf l).selects w := by
  unfold leaf at h
  split at h
  case h_1 h25 =>
    have hg : w &&& 0x0E000000#32 = 0x00000000#32 := and_of_field h25
    split at h
    next h74 =>
      obtain ⟨h7, h4⟩ := Bool.and_eq_true_iff.1 h74
      have hg : w &&& 0x0E000090#32 = 0x00000090#32 :=
        and_or_of_and hg (and_or_of_and (and_of_bit h7) (and_of_bit h4))
      split at h
      next h5 => exact selects_of_multiplyLeaf (and_or_of_and hg (and_of_field (congrArg BitVec.toNat h5))) h
      next h5 => exact selects_of_extendedLeaf hg h5 h
    next h74 =>
      split at h
      next hc =>
        obtain ⟨h23, h20⟩ : w.extractLsb' 23 2 = 0b10#2 ∧ w.getLsbD 20 = false := by simpa using hc
        exact selects_of_controlLeaf
          (and_or_of_and hg (and_or_of_and (and_of_field (congrArg BitVec.toNat h23)) (and_of_bit h20))) h
      next hc =>
        have halu := and_aluMask (AluOp.bits_ofBits _).symm ((not_control_iff (AluOp.bits_ofBits _).symm).1 hc)
        split at h
        next h4 =>
          have h7 : w.getLsbD 7 = false := by simpa [h4] using h74
          cases h
          rw [rowOf_dprs]
          exact and_or_of_and (and_or_of_and hg (and_or_of_and (and_of_bit h7) (and_of_bit h4))) halu
        next h4 =>
          cases h
          rw [rowOf_dpr]
          exact and_or_of_and (and_or_of_and hg (and_of_bit (eq_false_of_ne_true h4))) halu
  case h_2 h25 =>
    split at h
    next hc =>
      obtain ⟨h23, h20⟩ : w.extractLsb' 23 2 = 0b10#2 ∧ w.getLsbD 20 = false := by simpa using hc
      split at h
      next h21 =>
        cases h
        exact selects_of_parts (and_or_of_and (and_of_field h25) (and_of_field (congrArg BitVec.toNat h23)))
          (and_or_of_and (and_of_bit h21) (and_of_bit h20)) (by decide)
      · cases h
    next hc =>
      cases h
      rw [rowOf_dpi]
      exact and_or_of_and (and_of_field h25)
        (and_aluMask (AluOp.bits_ofBits _).symm ((not_control_iff (AluOp.bits_ofBits _).symm).1 hc))
  case h_3 h25 =>
    cases h
    exact selects_singleLeaf_imm (and_of_field h25)
  case h_4 h25 =>
    split at h
    · cases h
    next h4 =>
      cases h
      exact selects_singleLeaf_reg (and_or_of_and (and_of_field h25) (and_of_bit (eq_false_of_ne_true h4)))
  case h_5 h25 | h_6 h25 | h_7 h25 =>
    cases h
    exact selects_of_bit (and_of_field h25) (by decide) (by decide)
  case h_8 h0 h1 h2 h3 h4 h5 h6 =>
    have h25 := and_of_field (toNat_eq_seven h0 h1 h2 h3 h4 h5 h6)
    split at h
    next h24 =>
      cases h
      exact selects_of_parts h25 (and_of_bit h24) (by decide)
    next h24 =>
      have hg := and_or_of_and h25 (and_of_bit (eq_false_of_ne_true h24))
      split at h
      next h4 =>
        cases h
        exact selects_of_bit (and_or_of_and hg (and_of_bit h4)) (by decide) (by decide)
      next h4 =>
        cases h
        exact selects_of_parts hg (and_of_bit (eq_false_of_ne_true h4)) (by decide)

end

/-! ## From the row to the tree -/

section
variable {w : Word}

theorem leaf_of_multiply (h : w &&& 0x0E0000F0#32 = 0x00000090#32) : leaf w = multiplyLeaf w := by
  unfold leaf
  rw [field_of_and h (lo := 25) (by decide), bit_of_and h (k := 7) (by decide), bit_of_and h (k := 4) (by decide),
    field_of_and h (lo := 5) (by decide)]
  rfl

theorem leaf_of_extended (h : w &&& 0x0E000090#32 = 0x00000090#32) (h5 : w.extractLsb' 5 2 ≠ 0b00#2) :
    leaf w = extendedLeaf w := by
  unfold leaf
  rw [field_of_and h (lo := 25) (by decide), bit_of_and h (k := 7) (by decide), bit_of_and h (k := 4) (by decide),
    if_neg h5]
  rfl

theorem leaf_of_control (h : w &&& 0x0F900080#32 = 0x01000000#32) : leaf w = controlLeaf w := by
  unfold leaf
  rw [field_of_and h (lo := 25) (by decide), bit_of_and h (k := 7) (by decide),
    field_of_and h (lo := 23) (by decide), bit_of_and h (k := 20) (by decide)]
  rfl

theorem leaf_of_single_imm (h : w &&& 0x0E000000#32 = 0x04000000#32) : leaf w = some (singleLeaf false w) := by
  unfold leaf
  rw [field_of_and h (lo := 25) (by decide)]
  rfl

theorem leaf_of_single_reg (h : w &&& 0x0E000010#32 = 0x06000000#32) : leaf w = some (singleLeaf true w) := by
  unfold leaf
  rw [field_of_and h (lo := 25) (by decide), bit_of_and h (k := 4) (by decide)]
  rfl

/-- The operation of a data-processing leaf. -/
def Leaf.aluOp? : Leaf → Option AluOp
  | .dpi a | .dpr a | .dprs a => some a
  | _ => none

/-- What a data-processing row tests of `i[24:20]`. -/
theorem aluFields_of_selects {l : Leaf} {a : AluOp} (ha : l.aluOp? = some a) (h : (rowOf l).selects w) :
    w.extractLsb' 21 4 = a.bits ∧ (writesRd a = false → w.getLsbD 20 = true) := by
  cases l
  case dpi b | dpr b | dprs b =>
    obtain rfl : b = a := Option.some.inj ha
    constructor
    · exact (field_of_and h (by cases b <;> decide)).trans (by cases b <;> decide)
    · intro ht
      refine (bit_of_and h (k := 20) ?_).trans ?_
      all_goals
        revert ht
        cases b <;> decide
  all_goals cases ha

/-- The tree ends at the leaf of the row that selects the word: the row covers every bit tested on the way. -/
theorem leaf_of_selects {l : Leaf} (h : (rowOf l).selects w) : leaf w = some l := by
  cases l
  case dpi a =>
    obtain ⟨h21, hs⟩ := aluFields_of_selects rfl h
    have h25 : w.extractLsb' 25 3 = 0b001#3 := (field_of_and h (by cases a <;> decide)).trans (by cases a <;> decide)
    unfold leaf
    rw [h25]
    refine (if_neg ((not_control_iff h21).2 hs)).trans ?_
    rw [h21, AluOp.ofBits_bits]
  case dpr a =>
    obtain ⟨h21, hs⟩ := aluFields_of_selects rfl h
    have h25 : w.extractLsb' 25 3 = 0b000#3 := (field_of_and h (by cases a <;> decide)).trans (by cases a <;> decide)
    have h4 : w.getLsbD 4 = false := (bit_of_and h (by cases a <;> decide)).trans (by cases a <;> decide)
    unfold leaf
    rw [h25, h4, Bool.and_false]
    refine (if_neg ((not_control_iff h21).2 hs)).trans ?_
    rw [h21, AluOp.ofBits_bits]
    rfl
  case dprs a =>
    obtain ⟨h21, hs⟩ := aluFields_of_selects rfl h
    have h25 : w.extractLsb' 25 3 = 0b000#3 := (field_of_and h (by cases a <;> decide)).trans (by cases a <;> decide)
    have h4 : w.getLsbD 4 = true := (bit_of_and h (by cases a <;> decide)).trans (by cases a <;> decide)
    have h7 : w.getLsbD 7 = false := (bit_of_and h (by cases a <;> decide)).trans (by cases a <;> decide)
    unfold leaf
    rw [h25, h4, h7]
    refine (if_neg ((not_control_iff h21).2 hs)).trans ?_
    rw [h21, AluOp.ofBits_bits]
    rfl
  case b | bl =>
    unfold leaf
    rw [field_of_and h (lo := 25) (by decide), bit_of_and h (k := 24) (by decide)]
    rfl
  case ldm | stm | ldc | stc =>
    unfold leaf
    rw [field_of_and h (lo := 25) (by decide), bit_of_and h (k := 20) (by decide)]
    rfl
  case swi =>
    unfold leaf
    rw [field_of_and h (lo := 25) (by decide), bit_of_and h (k := 24) (by decide)]
    rfl
  case cdp =>
    unfold leaf
    rw [field_of_and h (lo := 25) (by decide), bit_of_and h (k := 24) (by decide), bit_of_and h (k := 4) (by decide)]
    rfl
  case mcr | mrc =>
    unfold leaf
    rw [field_of_and h (lo := 25) (by decide), bit_of_and h (k := 24) (by decide), bit_of_and h (k := 4) (by decide),
      bit_of_and h (k := 20) (by decide)]
    rfl
  case ldrLSI | strLSI | ldrbLSI | strbLSI =>
    rw [leaf_of_single_imm (and_of_selects h (by decide))]
    unfold singleLeaf
    rw [bit_of_and h (k := 20) (by decide), bit_of_and h (k := 22) (by decide)]
    rfl
  case ldrLSR | strLSR | ldrbLSR | strbLSR =>
    rw [leaf_of_single_reg (and_of_selects h (by decide))]
    unfold singleLeaf
    rw [bit_of_and h (k := 20) (by decide), bit_of_and h (k := 22) (by decide)]
    rfl
  case mul | mla | umull | umlal | smull | smlal =>
    rw [leaf_of_multiply (and_of_selects h (by decide)), multiplyLeaf, field_of_and h (lo := 21) (by decide)]
    rfl
  case swp | swpb =>
    rw [leaf_of_multiply (and_of_selects h (by decide)), multiplyLeaf, field_of_and h (lo := 21) (by decide),
      bit_of_and h (k := 20) (by decide)]
    rfl
  case ldrhXLI | ldrhXLR | strhXLI | strhXLR | ldrsbXLI | ldrsbXLR | ldrshXLI | ldrshXLR =>
    have h5 := field_of_and h (lo := 5) (len := 2) (by decide)
    rw [leaf_of_extended (and_of_selects h (by decide)) (h5.trans_ne (by decide)), extendedLeaf, h5,
      bit_of_and h (k := 20) (by decide), bit_of_and h (k := 22) (by decide)]
    rfl
  case mrs | msrReg =>
    rw [leaf_of_control (and_of_selects h (by decide)), controlLeaf, field_of_and h (lo := 4) (by decide)]
    cases h22 : w.getLsbD 22
    all_goals
      rw [field_of_and (and_or_of_and h (and_of_bit h22)) (lo := 21) (by decide)]
      rfl
  case msrImm =>
    unfold leaf
    rw [field_of_and h (lo := 25) (by decide), field_of_and h (lo := 23) (by decide), bit_of_and h (k := 20) (by decide),
      bit_of_and h (k := 21) (by decide)]
    rfl
  case bx | blxReg | bkpt | qadd | qsub | qdadd | qdsub =>
    rw [leaf_of_control (and_of_selects h (by decide)), controlLeaf, field_of_and h (lo := 4) (by decide),
      field_of_and h (lo := 21) (by decide)]
    rfl

end

/-- The table restates the tree (R122). -/
theorem leaf_eq_some_iff {w : Word} {l : Leaf} : leaf w = some l ↔ (rowOf l).selects w :=
  ⟨selects_of_leaf, leaf_of_selects⟩

theorem leaf_of_mem_opcodeRows {w : Word} {r : Row} (hr : r ∈ opcodeRows) (h : r.selects w) : leaf w = some r.leaf :=
  leaf_eq_some_iff.2 (by rwa [rowOf_leaf r hr])

/-! ## The decoder's answers (R94, R96) -/

section
variable {w : Word} {c : Cond}

theorem decode_of_leaf {l : Leaf} (hc : Cond.ofBits (w.extractLsb' 28 4) = some c) (hl : leaf w = some l) :
    decode w = .ok (build l c w) := by
  simp only [decode, hc, hl]

theorem decode_of_no_leaf (hc : Cond.ofBits (w.extractLsb' 28 4) = some c) (hl : leaf w = none) :
    decode w = .error (.unknownFormat w) := by
  simp only [decode, hc, hl]

theorem decode_of_cond1111 (hc : w.extractLsb' 28 4 = 0b1111#4) :
    decode w = if w.extractLsb' 25 3 = 0b101#3 then .ok .blxImm else .error (.unknownFormat w) := by
  rw [decode, hc]
  rfl

theorem Cond.eq_of_ofBits_none {b : BitVec 4} (h : Cond.ofBits b = none) : b = 0b1111#4 := by
  revert b
  decide

/-- A decoded word has a condition and a leaf, or it is BLX immediate's. -/
theorem decode_eq_ok {i : Instr} (h : decode w = .ok i) :
    (∃ c l, Cond.ofBits (w.extractLsb' 28 4) = some c ∧ leaf w = some l ∧ i = build l c w) ∨
      (w.extractLsb' 28 4 = 0b1111#4 ∧ w.extractLsb' 25 3 = 0b101#3 ∧ i = .blxImm) := by
  cases hc : Cond.ofBits (w.extractLsb' 28 4) with
  | none =>
    have hc := Cond.eq_of_ofBits_none hc
    rw [decode_of_cond1111 hc] at h
    split at h
    next h5 => cases h; exact .inr ⟨hc, h5, rfl⟩
    · cases h
  | some c =>
    cases hl : leaf w with
    | none => rw [decode_of_no_leaf hc hl] at h; cases h
    | some l => rw [decode_of_leaf hc hl] at h; cases h; exact .inl ⟨c, l, rfl, rfl, rfl⟩

/-- The mask and pattern of BLX immediate, the row with `cond = 1111`. -/
theorem selects_blxImm_iff (hc : w.extractLsb' 28 4 = 0b1111#4) :
    w &&& 0xFE000000#32 = 0xFA000000#32 ↔ w.extractLsb' 25 3 = 0b101#3 := by
  constructor
  · intro h
    exact field_of_and h (by decide)
  · intro h
    exact and_or_of_and (and_of_field (congrArg BitVec.toNat hc)) (and_of_field (congrArg BitVec.toNat h))

end

/-! ## The obligations -/

/-- Settles O4: two rows that select one word are rows of one leaf, and the words no row selects are those the tree
rejects. -/
theorem opcodeTableDecides : Obligations.OpcodeTableDecides := by
  unfold Obligations.OpcodeTableDecides
  refine ⟨by decide, ?_, ?_, ?_⟩
  · intro r hr r' hr' w h h'
    have hleaf : r.leaf = r'.leaf :=
      Option.some.inj ((leaf_of_mem_opcodeRows hr h).symm.trans (leaf_of_mem_opcodeRows hr' h'))
    rw [← rowOf_leaf r hr, hleaf, rowOf_leaf r' hr']
  · intro w c hc
    refine ⟨fun r hr h => decode_of_leaf hc (leaf_of_mem_opcodeRows hr h), fun hnone => decode_of_no_leaf hc ?_⟩
    cases hl : leaf w with
    | none => rfl
    | some l => exact absurd (leaf_eq_some_iff.1 hl) (hnone _ (rowOf_mem l))
  · intro w hc
    simp only [decode_of_cond1111 hc, selects_blxImm_iff hc]

/-- A data-processing instruction comes from a leaf of its operation, and its S is `i[20]`. -/
theorem dataOp?_build {l : Leaf} {c : Cond} {w : Word} {d : DataOp} (h : dataOp? (build l c w) = some d) :
    l.aluOp? = some d.op ∧ d.s = w.getLsbD 20 := by
  cases l
  case dpi a | dpr a | dprs a => cases a <;> cases h <;> exact ⟨rfl, rfl⟩
  all_goals cases h

/-- Settles O5: the row of a data-processing leaf tests the operation's number, and S where the operation is a compare. -/
theorem opcodeNumbers : Obligations.OpcodeNumbers := by
  unfold Obligations.OpcodeNumbers
  intro w i d hi hd
  obtain ⟨c, l, -, hl, rfl⟩ | ⟨-, -, rfl⟩ := decode_eq_ok hi
  · obtain ⟨ha, hs⟩ := dataOp?_build hd
    obtain ⟨h21, h20⟩ := aluFields_of_selects ha (leaf_eq_some_iff.1 hl)
    rw [h21]
    refine ⟨?_, hs, fun h8 h11 => h20 ?_⟩
    · cases d.op <;> rfl
    · revert h8 h11
      cases d.op <;> decide
  · cases hd

end Sys2Proof
end

