-- ==== Sys2Proof/Proofs/DontCareBits.lean ====
section
/-! PROOFS. The don't-care bits (spec 30_encoding.md R97, R111). The cared bits of a decoded instruction include its row's mask
and its condition, so a word that agrees on them decodes to the same leaf under the same condition; what then may differ is
a field that the instruction's meaning does not use. -/

namespace Sys2Proof

open Machine

/-! ## Words that agree under a mask -/

section
variable {w w' m m' : Word}

theorem agree_of_subset (h : w &&& m = w' &&& m) (hm : m' &&& m = m') : w &&& m' = w' &&& m' := by
  rw [and_of_subset h hm, BitVec.and_assoc, BitVec.and_comm m, hm]

theorem eq_of_agree_allOnes (h : w &&& 0xFFFFFFFF#32 = w' &&& 0xFFFFFFFF#32) : w' = w := by
  have h1 : 0xFFFFFFFF#32 = BitVec.allOnes 32 := by decide
  rw [h1, BitVec.and_allOnes, BitVec.and_allOnes] at h
  exact h.symm

theorem field_of_agree {lo len : Nat} (h : w &&& m = w' &&& m) (hm : m.extractLsb' lo len = BitVec.allOnes len) :
    w'.extractLsb' lo len = w.extractLsb' lo len := by
  rw [field_of_and h hm, BitVec.extractLsb'_and, hm, BitVec.and_allOnes]

theorem bit_of_agree {k : Nat} (h : w &&& m = w' &&& m) (hm : m.getLsbD k = true) : w'.getLsbD k = w.getLsbD k := by
  rw [bit_of_and h hm, BitVec.getLsbD_and, hm, Bool.and_true]

end

/-! ## The cared bits include what the decoder tests -/

/-- Every cared mask includes the condition. -/
theorem caredBits_cond (i : Instr) : (caredBits i).extractLsb' 28 4 = BitVec.allOnes 4 := by
  cases i
  case ldrLSI | ldrLSR | strLSI | strLSR | ldrbLSI | ldrbLSR | strbLSI | strbLSR | ldrhXLI | ldrhXLR |
      strhXLI | strhXLR | ldrsbXLI | ldrsbXLR | ldrshXLI | ldrshXLR =>
    simp only [caredBits]
    split <;> decide
  all_goals
    simp only [caredBits]
    decide

/-- Every cared mask includes the mask of the instruction's row. -/
theorem rowMask_subset_caredBits (l : Leaf) (c : Cond) (w : Word) :
    (rowOf l).mask &&& caredBits (build l c w) = (rowOf l).mask := by
  cases l
  case dpi a | dpr a | dprs a =>
    cases a
    all_goals
      simp only [build, buildDPI, buildDPR, buildDPRS, caredBits]
      decide
  case ldrLSI | ldrLSR | strLSI | strLSR | ldrbLSI | ldrbLSR | strbLSI | strbLSR | ldrhXLI | ldrhXLR |
      strhXLI | strhXLR | ldrsbXLI | ldrsbXLR | ldrshXLI | ldrshXLR =>
    simp only [build, caredBits]
    split <;> decide
  all_goals
    simp only [build, caredBits]
    decide

theorem leaf_of_agree {w w' : Word} {l : Leaf} {c : Cond} (hl : leaf w = some l)
    (h : w &&& caredBits (build l c w) = w' &&& caredBits (build l c w)) : leaf w' = some l :=
  leaf_eq_some_iff.2 ((agree_of_subset h (rowMask_subset_caredBits l c w)).symm.trans (leaf_eq_some_iff.1 hl))

/-! ## The fields, when some of their bits are don't-care -/

section
variable {w w' : Word} (c : Cond)

theorem fieldsDPI_of_agree_rn (h : w &&& 0xFFF0FFFF#32 = w' &&& 0xFFF0FFFF#32) :
    fieldsDPI c w' = { fieldsDPI c w with rn := w'.extractLsb' 16 4 } := by
  simp (disch := decide) only [fieldsDPI, field_of_agree h, bit_of_agree h]

theorem fieldsDPI_of_agree_rd (h : w &&& 0xFFFF0FFF#32 = w' &&& 0xFFFF0FFF#32) :
    fieldsDPI c w' = { fieldsDPI c w with rd := w'.extractLsb' 12 4 } := by
  simp (disch := decide) only [fieldsDPI, field_of_agree h, bit_of_agree h]

theorem fieldsDPR_of_agree_rn (h : w &&& 0xFFF0FFFF#32 = w' &&& 0xFFF0FFFF#32) :
    fieldsDPR c w' = { fieldsDPR c w with rn := w'.extractLsb' 16 4 } := by
  simp (disch := decide) only [fieldsDPR, field_of_agree h, bit_of_agree h]

theorem fieldsDPR_of_agree_rd (h : w &&& 0xFFFF0FFF#32 = w' &&& 0xFFFF0FFF#32) :
    fieldsDPR c w' = { fieldsDPR c w with rd := w'.extractLsb' 12 4 } := by
  simp (disch := decide) only [fieldsDPR, field_of_agree h, bit_of_agree h]

theorem fieldsDPRS_of_agree_rn (h : w &&& 0xFFF0FFFF#32 = w' &&& 0xFFF0FFFF#32) :
    fieldsDPRS c w' = { fieldsDPRS c w with rn := w'.extractLsb' 16 4 } := by
  simp (disch := decide) only [fieldsDPRS, field_of_agree h, bit_of_agree h]

theorem fieldsDPRS_of_agree_rd (h : w &&& 0xFFFF0FFF#32 = w' &&& 0xFFFF0FFF#32) :
    fieldsDPRS c w' = { fieldsDPRS c w with rd := w'.extractLsb' 12 4 } := by
  simp (disch := decide) only [fieldsDPRS, field_of_agree h, bit_of_agree h]

theorem fieldsBXR_of_agree (h : w &&& 0xFFF000FF#32 = w' &&& 0xFFF000FF#32) : fieldsBXR c w' = fieldsBXR c w := by
  simp (disch := decide) only [fieldsBXR, field_of_agree h]

theorem fieldsLSM_of_agree (h : w &&& 0xFFBFFFFF#32 = w' &&& 0xFFBFFFFF#32) : fieldsLSM c w' = fieldsLSM c w := by
  simp (disch := decide) only [fieldsLSM, field_of_agree h, bit_of_agree h]

theorem fieldsSWPF_of_agree (h : w &&& 0xFFFFF0FF#32 = w' &&& 0xFFFFF0FF#32) : fieldsSWPF c w' = fieldsSWPF c w := by
  simp (disch := decide) only [fieldsSWPF, field_of_agree h]

theorem fieldsMULF_of_agree_rn (h : w &&& 0xFFFF0FFF#32 = w' &&& 0xFFFF0FFF#32) :
    fieldsMULF c w' = { fieldsMULF c w with rn := w'.extractLsb' 12 4 } := by
  simp (disch := decide) only [fieldsMULF, field_of_agree h, bit_of_agree h]

theorem fieldsLSI_of_agree_w (h : w &&& 0xFFDFFFFF#32 = w' &&& 0xFFDFFFFF#32) :
    fieldsLSI c w' = { fieldsLSI c w with w := w'.getLsbD 21 } := by
  simp (disch := decide) only [fieldsLSI, field_of_agree h, bit_of_agree h]

theorem fieldsLSR_of_agree_w (h : w &&& 0xFFDFFFFF#32 = w' &&& 0xFFDFFFFF#32) :
    fieldsLSR c w' = { fieldsLSR c w with w := w'.getLsbD 21 } := by
  simp (disch := decide) only [fieldsLSR, field_of_agree h, bit_of_agree h]

theorem fieldsXLI_of_agree_w (h : w &&& 0xFFDFFFFF#32 = w' &&& 0xFFDFFFFF#32) :
    fieldsXLI c w' = { fieldsXLI c w with w := w'.getLsbD 21 } := by
  simp (disch := decide) only [fieldsXLI, field_of_agree h, bit_of_agree h]

theorem fieldsXLR_of_agree_w (h : w &&& 0xFFDFF0FF#32 = w' &&& 0xFFDFF0FF#32) :
    fieldsXLR c w' = { fieldsXLR c w with w := w'.getLsbD 21 } := by
  simp (disch := decide) only [fieldsXLR, field_of_agree h, bit_of_agree h]

/-- `W` is cared for when pre-indexed and no further (R103, R106): the rest of the word agrees in any case. -/
theorem agree_indexed {m m' : Word} (h : w &&& (if w.getLsbD 24 then m else m') = w' &&& (if w.getLsbD 24 then m else m'))
    (hm : m' &&& m = m' ∧ m.getLsbD 21 = true) :
    w &&& m' = w' &&& m' ∧ (w.getLsbD 24 = true → w'.getLsbD 21 = w.getLsbD 21) := by
  cases hp : w.getLsbD 24
  · rw [hp] at h
    exact ⟨h, nofun⟩
  · rw [hp] at h
    exact ⟨agree_of_subset h hm.1, fun _ => bit_of_agree h hm.2⟩

end

/-! ## The fields that a meaning does not use -/

section
variable {p w w' : Bool} (hw : p = true → w' = w)
include hw

/-- A post-indexed access writes its base back whatever `W` is (R182). -/
theorem resolve_w_congr (u : Bool) (base off : Word) : resolve p u w' base off = resolve p u w base off := by
  cases p
  · rfl
  · rw [hw rfl]

theorem loadBody_w_congr (read : State → Word → Except FaultInfo Word) (u : Bool) (rn rd : RegIx) (off : State → Word) :
    loadBody read p u w' rn rd off = loadBody read p u w rn rd off := by
  funext s
  simp only [loadBody, resolve_w_congr hw]

theorem storeBody_w_congr (write : State → Word → Word → Except Raised State) (u : Bool) (rn rd : RegIx)
    (off : State → Word) : storeBody write p u w' rn rd off = storeBody write p u w rn rd off := by
  funext s
  simp only [storeBody, resolve_w_congr hw]

end

/-- A word that agrees on an instruction's cared bits gives, at the same leaf, an instruction that does the same: its
fields are equal but for one that the meaning does not use. -/
theorem exec_build_of_agree {l : Leaf} {c : Cond} {w w' : Word}
    (h : w &&& caredBits (build l c w) = w' &&& caredBits (build l c w)) (s : State) :
    exec (build l c w') s = exec (build l c w) s := by
  cases l
  case dpi a =>
    cases a
    case mov | mvn => simp only [build, buildDPI, fieldsDPI_of_agree_rn c h]; rfl
    case tst | teq | cmp | cmn => simp only [build, buildDPI, fieldsDPI_of_agree_rd c h]; rfl
    all_goals rw [eq_of_agree_allOnes h]
  case dpr a =>
    cases a
    case mov | mvn => simp only [build, buildDPR, fieldsDPR_of_agree_rn c h]; rfl
    case tst | teq | cmp | cmn => simp only [build, buildDPR, fieldsDPR_of_agree_rd c h]; rfl
    all_goals rw [eq_of_agree_allOnes h]
  case dprs a =>
    cases a
    case mov | mvn => simp only [build, buildDPRS, fieldsDPRS_of_agree_rn c h]; rfl
    case tst | teq | cmp | cmn => simp only [build, buildDPRS, fieldsDPRS_of_agree_rd c h]; rfl
    all_goals rw [eq_of_agree_allOnes h]
  case b | bl | mla | umull | umlal | smull | smlal => rw [eq_of_agree_allOnes h]
  case mul => simp only [build, fieldsMULF_of_agree_rn c h]; rfl
  case bx => simp only [build, fieldsBXR_of_agree c h]
  case ldm | stm => simp only [build, fieldsLSM_of_agree c h]
  case swp | swpb => simp only [build, fieldsSWPF_of_agree c h]
  case ldrLSI | ldrbLSI | ldrLSR | ldrbLSR | ldrhXLI | ldrsbXLI | ldrshXLI =>
    obtain ⟨h, hw⟩ := agree_indexed h (by decide)
    simp only [build, fieldsLSI_of_agree_w c h, fieldsLSR_of_agree_w c h, fieldsXLI_of_agree_w c h]
    exact congrArg (execute c · s) (loadBody_w_congr hw _ _ _ _ _)
  case strLSI | strbLSI | strLSR | strbLSR | strhXLI =>
    obtain ⟨h, hw⟩ := agree_indexed h (by decide)
    simp only [build, fieldsLSI_of_agree_w c h, fieldsLSR_of_agree_w c h, fieldsXLI_of_agree_w c h]
    exact congrArg (execute c · s) (storeBody_w_congr hw _ _ _ _ _)
  case ldrhXLR | ldrsbXLR | ldrshXLR =>
    obtain ⟨h, hw⟩ := agree_indexed h (by decide)
    simp only [build, fieldsXLR_of_agree_w c h]
    exact congrArg (execute c · s) (loadBody_w_congr hw _ _ _ _ _)
  case strhXLR =>
    obtain ⟨h, hw⟩ := agree_indexed h (by decide)
    simp only [build, fieldsXLR_of_agree_w c h]
    exact congrArg (execute c · s) (storeBody_w_congr hw _ _ _ _ _)
  case mrs | msrReg | msrImm | blxReg | bkpt | qadd | qsub | qdadd | qdsub | cdp | mcr | mrc | ldc | stc | swi => rfl

/-! ## The obligation -/

/-- Settles O6: the second word has the same condition, and the same leaf since its row still selects it; BLX immediate has
no field. -/
theorem dontCareBits : Obligations.DontCareBits := by
  unfold Obligations.DontCareBits
  intro w w' i hi h
  have hcond : w'.extractLsb' 28 4 = w.extractLsb' 28 4 := field_of_agree h (caredBits_cond i)
  obtain ⟨c, l, hc, hl, rfl⟩ | ⟨hc, h5, rfl⟩ := decode_eq_ok hi
  · exact ⟨build l c w', decode_of_leaf (by rw [hcond, hc]) (leaf_of_agree hl h), exec_build_of_agree h⟩
  · have h25 : w'.extractLsb' 25 3 = 0b101#3 := (field_of_agree h (by decide)).trans h5
    exact ⟨.blxImm, by rw [decode_of_cond1111 (hcond.trans hc), if_pos h25], fun _ => rfl⟩

end Sys2Proof
end

