-- ==== Sys2Proof/Proofs/Condition.lean ====
section
/-! PROOFS. The condition field in the step (spec 30_encoding.md R94, R95): a word whose condition fails is skipped before it
is decoded, and a word with `cond = 1111` goes to the decoder without a condition test. -/

namespace Sys2Proof.Machine

/-! ## A skip -/

/-- Every instruction with a condition is its body under that condition (R95). -/
theorem exec_eq_execute {i : Instr} {c : Cond} (h : i.cond? = some c) :
    ∃ body : State → Body, ∀ s, exec i s = execute c body s := by
  cases i
  case blxImm => cases h
  all_goals
    cases h
    exact ⟨_, fun _ => rfl⟩

theorem exec_skip {i : Instr} {s : State} (h : passes i s.flags = false) : exec i s = .next s.advance := by
  unfold passes at h
  split at h
  next c hc =>
    obtain ⟨body, hbody⟩ := exec_eq_execute hc
    rw [hbody, execute_skip body h]
  · cases h

theorem regsThenAdvance_advance (s : State) : regsThenAdvance s.advance s.reg := by
  intro r
  by_cases h : r = pcIx
  · simp [h, State.pc]
  · simp [h]

/-- A skip adds 4 to the pc and changes nothing else (R95). -/
theorem advance_changes_pc_only (s : State) :
    regsThenAdvance s.advance s.reg ∧ s.advance.flags = s.flags ∧ s.advance.store = s.store ∧ sameRun s s.advance ∧
      sameEnvironment s s.advance :=
  ⟨regsThenAdvance_advance s, rfl, rfl, ⟨rfl, rfl, rfl⟩, rfl, rfl, rfl, rfl, rfl⟩

/-! ## The fetched word -/

section
variable {s : State} {w : Word}

theorem select_fetched (hs : s.canFetch) (hw : s.fetch s.pc = .ok w) : select s = issue w s.flags := by
  rw [select_canFetch hs, hw]

theorem issue_skip {f : Flags} {c : Cond} (hc : Cond.ofBits (w.extractLsb' 28 4) = some c)
    (hf : conditionPassed c f = false) : issue w f = .skip := by
  simp [issue, hc, hf]

theorem issue_cond1111 {f : Flags} (hc : w.extractLsb' 28 4 = 0b1111#4) :
    issue w f = if w.extractLsb' 25 3 = 0b101#3 then .run .blxImm else .raise (.unknownFormat w) := by
  have hd : issue w f = decoded w := by rw [issue, hc]; rfl
  rw [hd, decoded, decode_of_cond1111 hc]
  by_cases h5 : w.extractLsb' 25 3 = 0b101#3
  · rw [if_pos h5, if_pos h5]
  · rw [if_neg h5, if_neg h5]

end

/-! ## The obligations -/

/-- Settles O10: at the fetch and in `exec` alike, a failed condition leaves `State.advance` as the whole effect. -/
theorem failedConditionSkips : Obligations.FailedConditionSkips := by
  unfold Obligations.FailedConditionSkips
  constructor
  · intro s w c hs hw hc hf
    have hstep : step s = .next s.advance := by rw [step, select_fetched hs hw, issue_skip hc hf]
    exact ⟨_, hstep, advance_changes_pc_only s⟩
  · intro s i hi
    exact ⟨_, exec_skip hi, advance_changes_pc_only s⟩

/-- Settles O11: both answers of the decoder for `cond = 1111` are raises, whatever the flags. -/
theorem condition1111Raises : Obligations.Condition1111Raises := by
  unfold Obligations.Condition1111Raises
  intro s w hs hw hc
  rw [step, select_fetched hs hw, issue_cond1111 hc]
  by_cases h5 : w.extractLsb' 25 3 = 0b101#3
  · rw [if_pos h5, if_pos h5]
    rfl
  · rw [if_neg h5, if_neg h5]
    rfl

end Sys2Proof.Machine
end

