-- ==== Sys2Proof/Proofs/Operand2.lean ====
section
/-! PROOFS. The shifter and operand 2 (spec 40_data_processing.md R131 to R134): the shifter meets the rules' closed forms, and
the three forms of operand 2 are uses of it. -/

namespace Sys2Proof.Machine

theorem shiftLsl_eq_ofNat (v : Word) (n : Nat) : shiftLsl v n = BitVec.ofNat 32 (v.toNat * 2 ^ n) := by
  apply BitVec.eq_of_toNat_eq
  simp [shiftLsl, Nat.shiftLeft_eq]

theorem shiftLsr_eq_ofNat (v : Word) (n : Nat) : shiftLsr v n = BitVec.ofNat 32 (v.toNat / 2 ^ n) := by
  apply BitVec.eq_of_toNat_eq
  have h : v.toNat / 2 ^ n < 2 ^ 32 := Nat.lt_of_le_of_lt (Nat.div_le_self _ _) v.isLt
  simp only [shiftLsr, BitVec.toNat_ushiftRight, Nat.shiftRight_eq_div_pow, BitVec.toNat_ofNat, Nat.mod_eq_of_lt h]

theorem shiftAsr_eq_ofInt (v : Word) (n : Nat) : shiftAsr v n = BitVec.ofInt 32 (v.toInt / 2 ^ n) := by
  simp [shiftAsr, BitVec.sshiftRight, Int.shiftRight_eq_div_pow]

/-- The `mod 32` on the left shift's amount matters only when the amount is a multiple of 32, where there is no shift. -/
theorem shiftRor_eq_rotateRight (v : Word) (n : Nat) : shiftRor v n = v.rotateRight (n % 32) := by
  simp only [shiftRor, shiftLsr, shiftLsl, BitVec.rotateRight, BitVec.rotateRightAux, Nat.mod_mod]
  by_cases h : n % 32 = 0
  · simp [h]
  · rw [Nat.mod_eq_of_lt (by omega : 32 - n % 32 < 32)]

/-- The shifter is the one the rules define, for every word and every amount (R131). -/
theorem shift_eq_specShift (t : ShiftType) (v : Word) (n : Nat) : shift t v n = specShift t v n := by
  cases t
  case lsl => exact shiftLsl_eq_ofNat v n
  case lsr => exact shiftLsr_eq_ofNat v n
  case asr => exact shiftAsr_eq_ofInt v n
  case ror => exact shiftRor_eq_rotateRight v n

/-- An amount of 0 is no shift for any type (R133). -/
theorem shift_zero (t : ShiftType) (v : Word) : shift t v 0 = v := by
  cases t <;> simp [shift, shiftLsl, shiftLsr, shiftAsr, shiftRor]

theorem operand2Imm_eq_rotateRight (rot : BitVec 4) (imm8 : BitVec 8) :
    operand2Imm rot imm8 = (imm8.zeroExtend 32).rotateRight (2 * rot.toNat) := by
  rw [operand2Imm, shiftRor_eq_rotateRight, Nat.mod_eq_of_lt (by omega)]

/-- Settles O27: each form of operand 2 is the shifter at the form's amount, so the shifter's closed form decides it. -/
theorem operand2Values : Obligations.Operand2Values := by
  unfold Obligations.Operand2Values
  refine ⟨fun rot imm8 => ⟨operand2Imm_eq_rotateRight rot imm8, ?_⟩, fun s rm t n => ⟨?_, ?_⟩, fun s rm rs t => ?_⟩
  · exact shift_zero .ror _
  · exact shift_eq_specShift t _ _
  · exact shift_zero t _
  · rw [operand2RegShift, shift_eq_specShift, BitVec.extractLsb'_toNat, Nat.shiftRight_zero]

end Sys2Proof.Machine
end

