-- ==== Sys2Proof/Proofs/Shifter.lean ====
section
/-! PROOFS. The shifter for every amount (spec 40_data_processing.md R131): each shift meets its formula, also from 32 on,
where no bit of the word is left, and at the multiples of 32, where a rotation is the identity. -/

namespace Sys2Proof.Machine

theorem shiftLsl_of_le (v : Word) {n : Nat} (h : 32 ≤ n) : shiftLsl v n = 0 :=
  BitVec.shiftLeft_eq_zero h

theorem shiftLsr_of_le (v : Word) {n : Nat} (h : 32 ≤ n) : shiftLsr v n = 0 :=
  BitVec.ushiftRight_eq_zero h

/-- From 32 on every bit of the result is read beyond the top of the word, so it is the sign. -/
theorem shiftAsr_of_le (v : Word) {n : Nat} (h : 32 ≤ n) : shiftAsr v n = if v.msb then 0xFFFFFFFF#32 else 0#32 := by
  have hbit : ∀ i < 32, (shiftAsr v n).getLsbD i = v.msb := fun i hi => by
    rw [shiftAsr, BitVec.getLsbD_sshiftRight, if_neg (by omega), decide_eq_false (by omega), Bool.not_false, Bool.true_and]
  apply BitVec.eq_of_getLsbD_eq
  intro i hi
  rw [hbit i hi]
  cases v.msb
  · simp
  · rw [if_pos rfl, show (0xFFFFFFFF#32) = BitVec.allOnes 32 from rfl, BitVec.getLsbD_allOnes, decide_eq_true hi]

theorem shiftRor_of_mod_eq_zero (v : Word) {n : Nat} (h : n % 32 = 0) : shiftRor v n = v := by
  rw [shiftRor_eq_rotateRight, h, ← shiftRor_eq_rotateRight v 0]
  exact shift_zero .ror v

/-- Settles O26: LSL, LSR and ASR by their closed forms, ROR as it is defined; then the amounts from 32 on. -/
theorem shifterValues : Obligations.ShifterValues := by
  unfold Obligations.ShifterValues
  intro v n
  refine ⟨?_, ?_, shiftAsr_eq_ofInt v n, rfl,
    fun h => ⟨shiftLsl_of_le v h, shiftLsr_of_le v h, shiftAsr_of_le v h⟩, shiftRor_of_mod_eq_zero v⟩
  · rw [shift, shiftLsl_eq_ofNat, BitVec.toNat_ofNat]
  · rw [shift, shiftLsr, BitVec.toNat_ushiftRight, Nat.shiftRight_eq_div_pow]

end Sys2Proof.Machine
end

