-- ==== Sys2Proof/Proofs/Adder.lean ====
section
/-! PROOFS. `AddWithCarry` (spec 40_data_processing.md R136): its result is the sum of the words, a subtraction is the sum with
the complement, and overflow is read off the signs, for either carry-in. -/

namespace Sys2Proof.Machine

theorem addWithCarry_result (x y : Word) (cin : Bool) :
    (addWithCarry x y cin).result = x + y + BitVec.ofNat 32 cin.toNat := by
  simp only [addWithCarry, BitVec.ofNat_add, BitVec.ofNat_toNat, BitVec.setWidth_eq]

theorem addWithCarry_result_toNat (x y : Word) (cin : Bool) :
    (addWithCarry x y cin).result.toNat = (x.toNat + y.toNat + cin.toNat) % 2 ^ 32 := by
  rw [addWithCarry, BitVec.toNat_ofNat]

/-- Words of different signs have no sum outside the word range: with the carry-in it lies between `-2^31` and `2^31 - 1`. -/
theorem addWithCarry_ovf_of_msb_ne {x y : Word} (h : x.msb ≠ y.msb) (cin : Bool) : (addWithCarry x y cin).ovf = false := by
  have hc := cin.toNat_le
  have hx := x.isLt
  have hy := y.isLt
  simp only [BitVec.msb_eq_decide, ne_eq, decide_eq_decide] at h
  simp only [addWithCarry, BitVec.toInt_eq_toNat_cond, decide_eq_false_iff_not]
  omega

/-- The sum of words of one sign leaves the word range exactly when the result has the other sign. -/
theorem addWithCarry_ovf_of_msb_eq {x y : Word} (h : x.msb = y.msb) (cin : Bool) :
    (addWithCarry x y cin).ovf = ((addWithCarry x y cin).result.msb != x.msb) := by
  have hc := cin.toNat_le
  have hx := x.isLt
  have hy := y.isLt
  rw [Bool.eq_iff_iff, bne_iff_ne, BitVec.msb_eq_decide, BitVec.msb_eq_decide, addWithCarry_result_toNat]
  simp only [BitVec.msb_eq_decide, decide_eq_decide] at h
  simp only [addWithCarry, BitVec.toInt_eq_toNat_cond, decide_eq_true_eq, ne_eq, decide_eq_decide]
  omega

/-- Overflow is read off the signs, for either carry-in (R136). -/
theorem addWithCarry_ovf (x y : Word) (cin : Bool) :
    (addWithCarry x y cin).ovf = ((x.msb == y.msb) && ((addWithCarry x y cin).result.msb != x.msb)) := by
  by_cases h : x.msb = y.msb
  · rw [addWithCarry_ovf_of_msb_eq h, beq_iff_eq.mpr h, Bool.true_and]
  · rw [addWithCarry_ovf_of_msb_ne h, beq_eq_false_iff_ne.mpr h, Bool.false_and]

/-- `a - b - (1 - C)` is the sum with the complement, `-b` being `~b + 1` (R136). -/
theorem addWithCarry_not_result (a b : Word) (c : Bool) :
    (addWithCarry a (~~~b) c).result = a - b - BitVec.ofNat 32 (1 - c.toNat) := by
  rw [addWithCarry_result, BitVec.not_eq_neg_add]
  cases c <;> simp [BitVec.sub_eq_add_neg, BitVec.add_assoc]

/-- No borrow: `u(~b)` is `2^32 - 1 - u(b)`, so the sum reaches `2^32` when `u(a)` makes up for `u(b)` (R136). -/
theorem addWithCarry_not_carry (a b : Word) : (addWithCarry a (~~~b) true).carry = decide (b.toNat ≤ a.toNat) := by
  have hb := b.isLt
  simp only [addWithCarry, BitVec.toNat_not, Bool.toNat_true]
  exact decide_eq_decide.mpr (by omega)

/-- A subtraction's overflow: the operands' signs differ, and the result's differs from the first's (R136). -/
theorem addWithCarry_not_ovf (a b : Word) (c : Bool) :
    (addWithCarry a (~~~b) c).ovf = ((a.msb != b.msb) && ((addWithCarry a (~~~b) c).result.msb != a.msb)) := by
  rw [addWithCarry_ovf, BitVec.msb_not]
  cases a.msb <;> cases b.msb <;> rfl

/-- Settles O28: the sums by the definition, then addition with carry-in 0 and the sums with the complement. -/
theorem adderValues : Obligations.AdderValues := by
  unfold Obligations.AdderValues
  refine ⟨fun x y cin => ⟨addWithCarry_result_toNat x y cin, rfl, rfl⟩, fun a b =>
    ⟨?_, addWithCarry_ovf a b false, ?_, addWithCarry_not_carry a b, addWithCarry_not_ovf a b true,
      addWithCarry_not_result a b⟩⟩
  · rw [addWithCarry_result, Bool.toNat_false, BitVec.add_zero]
  · rw [addWithCarry_not_result, Bool.toNat_true, Nat.sub_self, BitVec.sub_zero]

end Sys2Proof.Machine
end

