-- ==== Sys2Proof/Proofs/Branch.lean ====
section
/-! PROOFS. Control transfer (spec 41_branch.md R171 to R174): the branch offset as an integer, the state in which each of B,
BL and BX ends, and what the step after it makes of a target past the program Bound or misaligned. -/

namespace Sys2Proof

/-- A word that a row selects decodes to the row's instruction, with the fields of the word (R96, R122). -/
theorem decode_of_selects {w : Word} {c : Cond} {l : Leaf} (hc : Cond.ofBits (w.extractLsb' 28 4) = some c)
    (h : (rowOf l).selects w) : decode w = .ok (build l c w) :=
  decode_of_leaf hc (leaf_of_selects h)

end Sys2Proof

namespace Sys2Proof.Machine

/-! ## The target of B and BL -/

/-- Shifted left by 2, the sign-extended immediate counts words (R113). -/
theorem branchOffset_eq_ofInt (imm24 : BitVec 24) : branchOffset imm24 = BitVec.ofInt 32 (4 * imm24.toInt) := by
  rw [branchOffset, BitVec.shiftLeft_eq_mul_twoPow, BitVec.mul_comm, BitVec.ofInt_mul]
  rfl

/-- The branch's own address plus four times the signed immediate, modulo 2^32 (R171). -/
theorem branchTarget_eq_ofInt (a : Word) (imm24 : BitVec 24) :
    a + branchOffset imm24 = BitVec.ofInt 32 (a.toNat + 4 * imm24.toInt) := by
  rw [branchOffset_eq_ofInt, BitVec.ofInt_add, BitVec.ofInt_natCast, BitVec.ofNat_toNat, BitVec.setWidth_eq]

/-- A branch moves an aligned pc by whole words, and 2^32 is a multiple of 4 (R174). -/
theorem branchTarget_aligned {a : Word} (h : a.toNat % 4 = 0) (imm24 : BitVec 24) :
    (a + branchOffset imm24).toNat % 4 = 0 := by
  rw [branchTarget_eq_ofInt, BitVec.toNat_ofInt]
  omega

/-! ## The state after a branch -/

section
variable {s : State} {f : BR} {g : BXR}

theorem exec_b (h : conditionPassed f.cond s.flags = true) :
    exec (.b f) s = .next (s.setPc (s.pc + branchOffset f.imm24)) :=
  execute_pass (branchBody f) h

theorem exec_bl (h : conditionPassed f.cond s.flags = true) :
    exec (.bl f) s = .next ((s.setReg lrIx s.pc).setPc (s.pc + branchOffset f.imm24)) :=
  execute_pass (branchLinkBody f) h

theorem exec_bx (h : conditionPassed g.cond s.flags = true) :
    exec (.bx g) s = .next ((s.setReg lrIx (s.pc + 4)).setPc (s.reg g.rm)) :=
  execute_pass (branchExchangeBody g) h

end

/-! ## The step after a bad target (R174) -/

section
variable {s : State}

theorem step_pastEnd (hr : s.run = .running) (hc : s.configOk) (hs : s.stopReq = false)
    (h : s.pbound.low + s.pc.toNat > s.pbound.high) : step s = .next (s.halt .endOfProgram) := by
  rw [step, select_pastEnd hr hc hs h]

theorem fetch_misaligned {addr : Word} (h : addr.toNat % 4 ≠ 0) :
    s.fetch addr = .error (.memoryAccess .misaligned addr) :=
  Memory.readWord_of_check_some (checkWord_misaligned h)

theorem step_misaligned (hs : s.canFetch) (h : s.pc.toNat % 4 ≠ 0) :
    step s = .next (s.raise (.memoryAccess .misaligned s.pc) s.pc) := by
  rw [step, select_canFetch hs, fetch_misaligned h]

end

/-! ## The obligations -/

/-- Settles O33: the pc is the only field written, and the step after it is `step_pastEnd`. -/
theorem branchResult : Obligations.BranchResult := by
  unfold Obligations.BranchResult
  constructor
  · intro w c hc hw
    exact decode_of_selects (l := .b) hc hw
  · intro f s h
    refine ⟨_, exec_b h, fun r => ?_, rfl, rfl, ⟨rfl, rfl, rfl⟩, ⟨rfl, rfl, rfl, rfl, rfl⟩, fun ha => ?_, step_pastEnd⟩
    · rw [State.reg_setPc, branchTarget_eq_ofInt]
      rfl
    · rw [State.pc_setPc]
      exact branchTarget_aligned ha f.imm24

/-- Settles O34: r14 is written before the pc, and the target is B's. -/
theorem branchLinkResult : Obligations.BranchLinkResult := by
  unfold Obligations.BranchLinkResult
  constructor
  · intro w c hc hw
    exact decode_of_selects (l := .bl) hc hw
  · intro f s h
    refine ⟨_, exec_bl h, fun r => ?_, rfl, rfl, ⟨rfl, rfl, rfl⟩, rfl, rfl, rfl, rfl, rfl⟩
    rw [State.reg_setPc, State.reg_setReg, branchTarget_eq_ofInt]
    rfl

/-- Settles O35: the target is `Rm` of the state before the link, and the next fetch's alignment check refuses it. -/
theorem branchExchangeResult : Obligations.BranchExchangeResult := by
  unfold Obligations.BranchExchangeResult
  constructor
  · intro w c hc hw
    exact decode_of_selects (l := .bx) hc hw
  · intro f s h
    refine ⟨_, exec_bx h, fun r => ?_, rfl, rfl, ⟨rfl, rfl, rfl⟩, ⟨rfl, rfl, rfl, rfl, rfl⟩, fun ht hm => ?_⟩
    · rw [State.reg_setPc, State.reg_setReg]
      rfl
    · have hpc : ((s.setReg lrIx (s.pc + 4)).setPc (s.reg f.rm)).pc = s.reg f.rm := State.pc_setPc _ _
      rw [step_misaligned ht (by rwa [hpc]), hpc]
      rfl

end Sys2Proof.Machine
end

