-- ==== Sys2Proof/Proofs/Multiply.lean ====
section
/-! PROOFS. The multiplies (spec 45_multiply.md R231 to R237): the two ends of a multiply body, the products and the accumulator
as integers, and from them MUL, MLA and the four long multiplies. -/

namespace Sys2Proof.Machine

/-! ## The flags of a result, by its number -/

theorem beq_zero_eq_decide {w : Nat} (x : BitVec w) : (x == 0) = decide (x.toNat = 0) := by
  rw [Bool.eq_iff_iff, beq_iff_eq, decide_eq_true_iff, ← BitVec.toNat_inj]
  exact Iff.rfl

theorem flagsNZ_eq_decide (v : Word) (fl : Flags) :
    flagsNZ v fl = { fl with n := decide (2 ^ 31 ≤ v.toNat), z := decide (v.toNat = 0) } := by
  rw [flagsNZ, BitVec.msb_eq_decide, beq_zero_eq_decide]

theorem flagsNZ64_eq_decide (d : DWord) (fl : Flags) :
    flagsNZ64 d fl = { fl with n := decide (2 ^ 63 ≤ d.toNat), z := decide (d.toNat = 0) } := by
  rw [flagsNZ64, BitVec.msb_eq_decide, beq_zero_eq_decide]

/-! ## The halves of a 64-bit result -/

theorem lowHalf_eq_ofNat (d : DWord) : d.extractLsb' 0 32 = BitVec.ofNat 32 (d.toNat % 2 ^ 32) := by
  apply BitVec.eq_of_toNat_eq
  rw [BitVec.extractLsb'_toNat, Nat.shiftRight_zero, BitVec.toNat_ofNat, Nat.mod_mod]

theorem highHalf_eq_ofNat (d : DWord) : d.extractLsb' 32 32 = BitVec.ofNat 32 (d.toNat / 2 ^ 32) := by
  apply BitVec.eq_of_toNat_eq
  rw [BitVec.extractLsb'_toNat, Nat.shiftRight_eq_div_pow, BitVec.toNat_ofNat]

/-! ## The ends of the bodies -/

section
variable {s : State} {upd : Bool}

/-- What follows the register writes of a multiply: the flags when `S`, the step's `+4`, and nothing else (R231, R233). -/
theorem flagsIf_advance_frame (s : State) (upd : Bool) (fl : Flags) :
    let t := (if upd then s.setFlags fl else s).advance
    regsThenAdvance t s.reg ∧ t.flags = (if upd then fl else s.flags) ∧ t.store = s.store ∧ sameRun s t ∧
      sameEnvironment s t := by
  cases upd
  · exact advance_changes_pc_only s
  · exact advance_changes_pc_only (s.setFlags fl)

/-- The end of MUL and MLA, for a result whose number is `n` (R231, R232). -/
theorem mulWrite_finish {rd : RegIx} {v : Word} {n : Nat} (a : Word) (hv : v.toNat = n) :
    ∃ t, (mulWrite upd rd v s).finish a = .next t ∧
      regsThenAdvance t (fun r => if r = rd then BitVec.ofNat 32 n else s.reg r) ∧
      t.flags = (if upd then { s.flags with n := decide (2 ^ 31 ≤ n), z := decide (n = 0) } else s.flags) ∧
      t.store = s.store ∧ sameRun s t ∧ sameEnvironment s t := by
  subst hv
  obtain ⟨hregs, hflags, hframe⟩ := flagsIf_advance_frame (s.setReg rd v) upd (flagsNZ v s.flags)
  refine ⟨_, rfl, fun r => ?_, ?_, hframe⟩
  · rw [hregs, State.reg_setReg, BitVec.ofNat_toNat, BitVec.setWidth_eq]
  · rw [hflags, flagsNZ_eq_decide]
    rfl

/-- The end of the long multiplies, for a result that is the integer `x` modulo 2^64; `RdHi` is written second (R233). -/
theorem longWrite_finish {rdHi rdLo : RegIx} {d : DWord} {x : Int} (a : Word) (hd : d = BitVec.ofInt 64 x) :
    let n := (x % 2 ^ 64).toNat
    ∃ t, (longWrite upd rdHi rdLo d s).finish a = .next t ∧
      regsThenAdvance t (fun r =>
        if r = rdHi then BitVec.ofNat 32 (n / 2 ^ 32) else if r = rdLo then BitVec.ofNat 32 (n % 2 ^ 32) else s.reg r) ∧
      t.flags = (if upd then { s.flags with n := decide (2 ^ 63 ≤ n), z := decide (n = 0) } else s.flags) ∧
      t.store = s.store ∧ sameRun s t ∧ sameEnvironment s t := by
  intro n
  have hn : n = d.toNat := by rw [hd, BitVec.toNat_ofInt]; rfl
  obtain ⟨hregs, hflags, hframe⟩ := flagsIf_advance_frame
    ((s.setReg rdLo (d.extractLsb' 0 32)).setReg rdHi (d.extractLsb' 32 32)) upd (flagsNZ64 d s.flags)
  refine ⟨_, rfl, fun r => ?_, ?_, hframe⟩
  · rw [hregs, State.reg_setReg, State.reg_setReg, lowHalf_eq_ofNat, highHalf_eq_ofNat, hn]
  · rw [hflags, flagsNZ64_eq_decide, hn]
    rfl

end

/-! ## Products and accumulator as integers -/

section
variable {s : State}

theorem unsignedProduct_eq_ofInt (rm rs : RegIx) :
    unsignedProduct s rm rs = BitVec.ofInt 64 ((s.reg rm).toNat * (s.reg rs).toNat) := by
  simp only [unsignedProduct, BitVec.ofInt_mul, BitVec.ofInt_natCast, BitVec.ofNat_toNat, BitVec.zeroExtend]

/-- Sign extension keeps the integer, so the product is that of the signed words (R236). -/
theorem signedProduct_eq_ofInt (rm rs : RegIx) :
    signedProduct s rm rs = BitVec.ofInt 64 ((s.reg rm).toInt * (s.reg rs).toInt) :=
  (BitVec.ofInt_mul _ _).symm

theorem accumulator_eq_ofInt (rdHi rdLo : RegIx) :
    accumulator s rdHi rdLo = BitVec.ofInt 64 ((s.reg rdHi).toNat * 2 ^ 32 + (s.reg rdLo).toNat) := by
  have hhi := (s.reg rdHi).isLt
  have hlo := (s.reg rdLo).isLt
  apply BitVec.eq_of_toNat_eq
  rw [accumulator, BitVec.toNat_append, ← Nat.shiftLeft_add_eq_or_of_lt hlo, Nat.shiftLeft_eq, BitVec.toNat_ofInt]
  omega

end

/-! ## The instructions -/

section
variable {s : State} {f : MULF} {g : MULL}

/-- MUL is MLA with 0 for the accumulator (R231, R232). -/
theorem exec_mul_or_mla (acc : Bool) (h : conditionPassed f.cond s.flags = true) :
    exec (if acc then .mla f else .mul f) s =
      (mulWrite f.s f.rd (s.reg f.rm * s.reg f.rs + if acc then s.reg f.rn else 0#32) s).finish s.pc := by
  cases acc
  · rw [if_neg Bool.false_ne_true, if_neg Bool.false_ne_true, BitVec.add_zero]
    exact execute_pass (mulBody f) h
  · exact execute_pass (mlaBody f) h

theorem exec_umull (h : conditionPassed g.cond s.flags = true) :
    exec (.umull g) s = (longWrite g.s g.rdHi g.rdLo (unsignedProduct s g.rm g.rs) s).finish s.pc :=
  execute_pass (umullBody g) h

theorem exec_umlal (h : conditionPassed g.cond s.flags = true) :
    exec (.umlal g) s =
      (longWrite g.s g.rdHi g.rdLo (unsignedProduct s g.rm g.rs + accumulator s g.rdHi g.rdLo) s).finish s.pc :=
  execute_pass (umlalBody g) h

theorem exec_smull (h : conditionPassed g.cond s.flags = true) :
    exec (.smull g) s = (longWrite g.s g.rdHi g.rdLo (signedProduct s g.rm g.rs) s).finish s.pc :=
  execute_pass (smullBody g) h

theorem exec_smlal (h : conditionPassed g.cond s.flags = true) :
    exec (.smlal g) s =
      (longWrite g.s g.rdHi g.rdLo (signedProduct s g.rm g.rs + accumulator s g.rdHi g.rdLo) s).finish s.pc :=
  execute_pass (smlalBody g) h

end

/-! ## The obligations -/

/-- Settles O46: the rows decode the words, and the number of the result is the product, plus the accumulator, modulo 2^32. -/
theorem multiplyResult : Obligations.MultiplyResult := by
  unfold Obligations.MultiplyResult
  constructor
  · intro w c hc
    exact ⟨decode_of_selects (l := .mul) hc, decode_of_selects (l := .mla) hc⟩
  · intro f s acc h n
    have hv : (s.reg f.rm * s.reg f.rs + if acc then s.reg f.rn else 0#32).toNat = n := by
      rw [BitVec.toNat_add, BitVec.toNat_mul, Nat.mod_add_mod, apply_ite BitVec.toNat]
      rfl
    rw [exec_mul_or_mla acc h]
    exact mulWrite_finish s.pc hv

/-- Settles O47: the rows decode the words, and each result is the integer product, plus the accumulator, modulo 2^64. -/
theorem longMultiplyResult : Obligations.LongMultiplyResult := by
  unfold Obligations.LongMultiplyResult
  constructor
  · intro w c hc
    exact ⟨decode_of_selects (l := .umull) hc, decode_of_selects (l := .umlal) hc, decode_of_selects (l := .smull) hc,
      decode_of_selects (l := .smlal) hc⟩
  · intro f s sg acc h
    have hu := unsignedProduct_eq_ofInt (s := s) f.rm f.rs
    have hs := signedProduct_eq_ofInt (s := s) f.rm f.rs
    have ha := accumulator_eq_ofInt (s := s) f.rdHi f.rdLo
    match sg, acc with
    | false, false =>
      rw [exec_umull h]
      exact longWrite_finish s.pc (by rw [hu]; exact congrArg _ (Int.add_zero _).symm)
    | false, true =>
      rw [exec_umlal h]
      exact longWrite_finish s.pc (by rw [hu, ha]; exact (BitVec.ofInt_add _ _).symm)
    | true, false =>
      rw [exec_smull h]
      exact longWrite_finish s.pc (by rw [hs]; exact congrArg _ (Int.add_zero _).symm)
    | true, true =>
      rw [exec_smlal h]
      exact longWrite_finish s.pc (by rw [hs, ha]; exact (BitVec.ofInt_add _ _).symm)

end Sys2Proof.Machine
end

