-- ==== Sys2Proof/Proofs/Swap.lean ====
section
/-! PROOFS. The atomic swap (spec 46_swap.md R251, R252): data memory after one word or byte is written, the fault of a word
read, and from them SWP and SWPB. -/

namespace Sys2Proof.Machine

section
variable {s : State}

/-! ## The bytes after a write, in the closed form -/

theorem byte_setWord_eq_stored (hm : s.dataMem.wf) (addr v : Word) (a : Nat) :
    (s.dataMem.setWord (s.dbound.low + addr.toNat) v).byte a =
      (StoreKind.word.stored s addr v a).getD (s.dataMem.byte a) := by
  obtain ⟨h0, h1, h2, h3⟩ := Memory.byte_setWord hm.1 (s.dbound.low + addr.toNat) v
  unfold StoreKind.stored
  dsimp only
  split
  next ha => rw [ha, h0, Option.getD_some]
  split
  next ha => rw [ha, h1, Option.getD_some]
  split
  next ha => rw [ha, h2, Option.getD_some]
  split
  next ha => rw [ha, h3, Option.getD_some]
  exact Memory.byte_setWord_ne _ _ (by omega)

theorem byte_setByte_eq_stored (hm : s.dataMem.wf) (addr v : Word) (a : Nat) :
    (s.dataMem.setByte (s.dbound.low + addr.toNat) (v.extractLsb' 0 8)).byte a =
      (StoreKind.byte.stored s addr v a).getD (s.dataMem.byte a) := by
  rw [Memory.byte_setByte hm.1, StoreKind.stored, apply_ite (Option.getD · _)]
  rfl

/-! ## The read that does not pass -/

theorem State.memRead4_wordFault {addr : Word} (h : ¬s.wordAccessible addr) : s.memRead4 addr = .error (wordFault addr) := by
  by_cases hal : addr.toNat % 4 = 0
  · rw [State.memRead4_outOfBounds hal h, wordFault, if_neg (not_not.2 hal)]
  · rw [State.memRead4_misaligned hal, wordFault, if_pos hal]

/-! ## The state after a swap -/

/-- A data Memory of the same size with the stored bytes, one register write and the step's `+4`: what each leaves, and that
nothing else changes (R251, R252). -/
theorem setDataMem_setReg_advance_effect {m : Memory} {stored : Nat → Option Byte} (hcap : m.capacity = s.dataMem.capacity)
    (hbytes : ∀ a, m.byte a = (stored a).getD (s.dataMem.byte a)) (rd : RegIx) (v : Word) :
    let t := ((s.setDataMem m).setReg rd v).advance
    memoryAfter s t stored ∧ regsThenAdvance t (fun r => if r = rd then v else s.reg r) ∧ t.flags = s.flags ∧
      onlyDataMem s t ∧ sameRun s t ∧ sameEnvironment s t := by
  intro t
  have hdata : t.dataMem = m := s.setDataMem_dataMem m
  obtain ⟨hregs, hflags, hstore, hframe⟩ := advance_changes_pc_only ((s.setDataMem m).setReg rd v)
  refine ⟨fun a => ?_, fun r => ?_, hflags, ⟨?_, ?_⟩, hframe⟩
  · rw [hdata, hbytes]
  · rw [hregs, State.reg_setReg, State.reg_setDataMem]
  · rw [hstore, hdata]
    rfl
  · rw [hdata, hcap]

end

/-! ## SWP and SWPB -/

section
variable {s : State} {f : SWPF}

theorem exec_swp (h : conditionPassed f.cond s.flags = true) (ha : s.wordAccessible (s.reg f.rn)) :
    exec (.swp f) s = .next
      ((s.setDataMem (s.dataMem.setWord (s.dbound.low + (s.reg f.rn).toNat) (s.reg f.rm))).setReg f.rd
        (s.dataWord (s.reg f.rn))).advance := by
  have hbody := execute_pass (swapWord f) h
  rw [swapWord, State.memRead4_ok ha, State.memWrite4_ok _ ha] at hbody
  exact hbody

theorem exec_swpb (h : conditionPassed f.cond s.flags = true) (ha : s.byteAccessible (s.reg f.rn)) :
    exec (.swpb f) s = .next
      ((s.setDataMem (s.dataMem.setByte (s.dbound.low + (s.reg f.rn).toNat) ((s.reg f.rm).extractLsb' 0 8))).setReg f.rd
        ((s.dataByte (s.reg f.rn)).zeroExtend 32)).advance := by
  have hbody := execute_pass (swapByte f) h
  rw [swapByte, State.memRead1_ok ha, State.memWrite1_ok _ ha] at hbody
  exact hbody

theorem exec_swp_fault (h : conditionPassed f.cond s.flags = true) (ha : ¬s.wordAccessible (s.reg f.rn)) :
    exec (.swp f) s = .next (s.raise (wordFault (s.reg f.rn)) s.pc) := by
  have hbody := execute_pass (swapWord f) h
  rw [swapWord, State.memRead4_wordFault ha] at hbody
  exact hbody

theorem exec_swpb_fault (h : conditionPassed f.cond s.flags = true) (ha : ¬s.byteAccessible (s.reg f.rn)) :
    exec (.swpb f) s = .next (s.raise (.memoryAccess .outOfBounds (s.reg f.rn)) s.pc) := by
  have hbody := execute_pass (swapByte f) h
  rw [swapByte, State.memRead1_outOfBounds ha] at hbody
  exact hbody

end

/-! ## The obligations -/

/-- Settles O48: the checks of the read decide alone how the body ends, since the write makes the same ones (R251); a swap that
is made is one data write and one register write. -/
theorem swapResults : Obligations.SwapResults := by
  unfold Obligations.SwapResults
  refine ⟨fun w c hc => ?_, fun f s h hm => ⟨fun ha => ?_, fun ha => ?_⟩, fun f s h => ?_⟩
  · exact ⟨decode_of_selects (l := .swp) hc, decode_of_selects (l := .swpb) hc⟩
  · exact ⟨_, exec_swp h ha,
      setDataMem_setReg_advance_effect (Memory.setWord_capacity ..) (byte_setWord_eq_stored hm _ _) f.rd _⟩
  · exact ⟨_, exec_swpb h ha,
      setDataMem_setReg_advance_effect (Memory.setByte_capacity ..) (byte_setByte_eq_stored hm _ _) f.rd _⟩
  · exact ⟨exec_swp_fault h, exec_swpb_fault h⟩

end Sys2Proof.Machine
end

