-- ==== Sys2Proof/Proofs/Unsupported.lean ====
section
/-! PROOFS. The recognised-and-refused instructions (spec 47_unsupported.md R260 to R272): each is one body, the raise of its
name, under its condition; BLX immediate is that body alone. -/

namespace Sys2Proof.Machine

section
variable {i : Instr} {name : UnimplName} {s : State}

/-- BLX immediate is the one instruction without a condition field (R94, R264). -/
theorem eq_blxImm_of_cond?_eq_none (h : i.cond? = none) : i = .blxImm := by
  cases i
  case blxImm => rfl
  all_goals cases h

/-- A refused instruction with a condition is the raise of its name under that condition (R260). -/
theorem exec_eq_execute_unimplementedBody {c : Cond} (hn : unimplName? i = some name) (hc : i.cond? = some c) (s : State) :
    exec i s = execute c (unimplementedBody name) s := by
  cases i
  case mrs | msrReg | msrImm | blxReg | bkpt | qadd | qsub | qdadd | qdsub | cdp | mcr | mrc | ldc | stc | swi =>
    cases hn
    cases hc
    rfl
  case blxImm => cases hc
  all_goals cases hn

theorem exec_unimplemented (hn : unimplName? i = some name) (h : passes i s.flags = true) :
    exec i s = .next (s.raise (.unimplemented name) s.pc) := by
  unfold passes at h
  split at h
  next c hc => exact (exec_eq_execute_unimplementedBody hn hc s).trans (execute_pass _ h)
  next hc =>
    obtain rfl := eq_blxImm_of_cond?_eq_none hc
    cases hn
    rfl

end

/-! ## The obligation -/

/-- Settles O49: a passing condition leaves `State.raise` as the whole effect, a failed one `State.advance`. -/
theorem refusedInstructionsRaise : Obligations.RefusedInstructionsRaise := by
  unfold Obligations.RefusedInstructionsRaise
  intro i name s hn
  exact ⟨exec_unimplemented hn, fun hf => ⟨_, exec_skip hf, advance_changes_pc_only s⟩⟩

end Sys2Proof.Machine
end

