-- ==== Sys2Proof/Proofs/EndOfProgram.lean ====
section
/-! PROOFS. The end of the program (spec 60_exceptions.md R291): a pc past the Bound is `step_pastEnd`; an aligned pc inside the
Bound and at or past the capacity is refused by the fetch. -/

namespace Sys2Proof.Machine

section
variable {s : State}

theorem fetch_outOfBounds {addr : Word} (ha : addr.toNat % 4 = 0)
    (h : s.progMem.capacity ≤ s.pbound.low + addr.toNat) :
    s.fetch addr = .error (.memoryAccess .outOfBounds addr) :=
  Memory.readWord_of_check_some (checkWord_outOfBounds ha fun hin => Nat.not_lt.2 h hin.2)

theorem step_outOfBounds (hs : s.canFetch) (ha : s.pc.toNat % 4 = 0)
    (h : s.progMem.capacity ≤ s.pbound.low + s.pc.toNat) :
    step s = .next (s.raise (.memoryAccess .outOfBounds s.pc) s.pc) := by
  rw [step, select_canFetch hs, fetch_outOfBounds ha h]

end

/-! ## The obligation -/

/-- Settles O15: the test of the Bound comes before the fetch, the test of the capacity is the fetch's own. -/
theorem endOfProgramHalts : Obligations.EndOfProgramHalts := by
  unfold Obligations.EndOfProgramHalts
  exact ⟨fun _ => step_pastEnd, fun _ => step_outOfBounds⟩

end Sys2Proof.Machine
end

