-- ==== Sys2Proof/Proofs/Reset.lean ====
section
/-! PROOFS. The reset input (spec 70_reset_and_hazards.md R310): the registers it loads; its other effects are the
`applyReset` lemmas of Laws/State and `State.applyReset_pc`. -/

namespace Sys2Proof.Machine

/-- `INIT_REG` fills the registers below the pc, one to one (R39). -/
theorem State.applyReset_reg_ofNat (s : State) {k : Nat} (h : k < 15) :
    s.applyReset.reg (BitVec.ofNat 4 k) = s.initRegs[k] := by
  have hk : (BitVec.ofNat 4 k).toNat = k := Nat.mod_eq_of_lt (by omega)
  simp only [State.reg, State.applyReset_regs, resetRegs, hk, Vector.getElem_push_lt h]

theorem State.sameEnvironment_applyReset (s : State) : sameEnvironment s s.applyReset :=
  ⟨s.applyReset_stopReq, s.applyReset_pbound, s.applyReset_dbound, s.applyReset_initRegs, s.applyReset_initFlags⟩

/-! ## The obligation -/

/-- Settles O20: the pc is the register after the fifteen that `INIT_REG` fills; the rest is a field each. -/
theorem resetInput : Obligations.ResetInput := by
  unfold Obligations.ResetInput
  intro s
  exact ⟨s.applyReset_pc, fun _ => s.applyReset_reg_ofNat, s.applyReset_flags, s.applyReset_run,
    s.applyReset_haltCause, s.applyReset_faultPc, s.applyReset_store, s.sameEnvironment_applyReset⟩

end Sys2Proof.Machine
end

