-- ==== Sys2Proof/Proofs/RoundTrip.lean ====
section
/-! PROOFS. The decoder after the encoder (spec 30_encoding.md sections 3 and 4): what an encoded word holds under the mask of
its row is the row's pattern, so the tree ends at that row's leaf, and the fields come back by Laws/Encoding. The other way
round, a decoded compare has `S = 1` because its row tests that bit. -/

namespace Sys2Proof

open Machine

/-! ## A word of placed fields, under a mask -/

theorem or_and_mask (x y m : Word) : (x ||| y) &&& m = x &&& m ||| y &&& m := by
  ext i
  simp [Bool.and_or_distrib_right]

/-- A mask covers of a field what lies at the field's place. -/
theorem place_and (lo : Nat) {k : Nat} (x : BitVec k) (m : Word) :
    place lo x &&& m = place lo (x &&& m.extractLsb' lo k) := by
  apply BitVec.eq_of_getLsbD_eq
  intro i hi
  simp only [BitVec.getLsbD_and, getLsbD_place, BitVec.getLsbD_extractLsb']
  by_cases h : lo ≤ i
  · by_cases hk : i - lo < k
    · simp [hi, h, hk]
    · simp [hk, BitVec.getLsbD_of_ge _ _ (Nat.le_of_not_lt hk)]
  · simp [h]

@[simp] theorem place_zero (lo k : Nat) : place lo (0#k) = 0#32 := by
  simp [place]

@[simp] theorem ofBool_and_one (b : Bool) : BitVec.ofBool b &&& 1#1 = BitVec.ofBool b := by
  cases b <;> rfl

@[simp] theorem and_three (x : BitVec 2) : x &&& 3#2 = x := BitVec.and_allOnes

/-! ## What an encoded word holds where its rows test it -/

theorem encodeDPI_and (a : AluOp) (f : DPI) : encodeDPI a f &&& 0x0E000000#32 = place 25 0b001#3 := by
  simp [encodeDPI, placeBit, or_and_mask, place_and]

theorem encodeDPR_and (a : AluOp) (f : DPR) : encodeDPR a f &&& 0x0E000010#32 = 0x00000000#32 := by
  simp [encodeDPR, placeBit, or_and_mask, place_and]

theorem encodeDPRS_and (a : AluOp) (f : DPRS) : encodeDPRS a f &&& 0x0E000090#32 = placeBit 4 true := by
  simp [encodeDPRS, placeBit, or_and_mask, place_and]

theorem encodeBR_and (link : Bool) (f : BR) :
    encodeBR link f &&& 0x0F000000#32 = place 25 0b101#3 ||| placeBit 24 link := by
  simp [encodeBR, placeBit, or_and_mask, place_and]

theorem encodeBXR_and (f : BXR) : encodeBXR f &&& 0x0FF000F0#32 = place 20 0b00010010#8 ||| place 4 0b0001#4 := by
  simp [encodeBXR, or_and_mask, place_and]

theorem encodeLSI_and (byte load : Bool) (f : LSI) :
    encodeLSI byte load f &&& 0x0E500000#32 = place 25 0b010#3 ||| placeBit 22 byte ||| placeBit 20 load := by
  simp [encodeLSI, placeBit, or_and_mask, place_and]

theorem encodeLSR_and (byte load : Bool) (f : LSR) :
    encodeLSR byte load f &&& 0x0E500010#32 = place 25 0b011#3 ||| placeBit 22 byte ||| placeBit 20 load := by
  simp [encodeLSR, placeBit, or_and_mask, place_and]

theorem encodeLSM_and (load : Bool) (f : LSM) :
    encodeLSM load f &&& 0x0E100000#32 = place 25 0b100#3 ||| placeBit 20 load := by
  simp [encodeLSM, placeBit, or_and_mask, place_and]

theorem encodeXLI_and (load : Bool) (sh : BitVec 2) (f : XLI) :
    encodeXLI load sh f &&& 0x0E5000F0#32 =
      placeBit 22 true ||| placeBit 20 load ||| placeBit 7 true ||| place 5 sh ||| placeBit 4 true := by
  simp [encodeXLI, placeBit, or_and_mask, place_and]

theorem encodeXLR_and (load : Bool) (sh : BitVec 2) (f : XLR) :
    encodeXLR load sh f &&& 0x0E5000F0#32 = placeBit 20 load ||| placeBit 7 true ||| place 5 sh ||| placeBit 4 true := by
  simp [encodeXLR, placeBit, or_and_mask, place_and]

theorem encodeMULF_and (acc : Bool) (f : MULF) :
    encodeMULF acc f &&& 0x0FE000F0#32 = placeBit 21 acc ||| place 4 0b1001#4 := by
  simp [encodeMULF, placeBit, or_and_mask, place_and]

theorem encodeMULL_and (sg acc : Bool) (f : MULL) :
    encodeMULL sg acc f &&& 0x0FE000F0#32 =
      place 23 0b00001#5 ||| placeBit 22 sg ||| placeBit 21 acc ||| place 4 0b1001#4 := by
  simp [encodeMULL, placeBit, or_and_mask, place_and]

theorem encodeSWPF_and (byte : Bool) (f : SWPF) :
    encodeSWPF byte f &&& 0x0FF000F0#32 = place 23 0b00010#5 ||| placeBit 22 byte ||| place 4 0b1001#4 := by
  simp [encodeSWPF, placeBit, or_and_mask, place_and]

/-- A row's mask does not include the condition (R122). -/
theorem encodeRefused_and (c : Cond) (row : BitVec 28) {m : Word} (hm : m.extractLsb' 28 4 = 0#4) :
    encodeRefused c row &&& m = place 0 row &&& m := by
  rw [encodeRefused, or_and_mask, place_and 28, hm, BitVec.and_zero, place_zero, BitVec.zero_or]

/-! ## From the encoded word to the instruction -/

section
variable {l : Leaf} {c : Cond}

/-- A word of a format decodes to what the row it matches makes of the format's fields. -/
theorem decode_of_format {F : Type} {fields : Cond → Word → F} {mk : F → Instr} {f : F} {w m p : Word}
    (hc : w.extractLsb' 28 4 = c.bits) (hf : fields c w = f) (h : w &&& m = p)
    (hb : ∀ c w, build l c w = mk (fields c w)) (hr : (rowOf l).mask = m ∧ (rowOf l).pattern = p) :
    decode w = .ok (mk f) := by
  have hsel : (rowOf l).selects w := by rw [Row.selects, hr.1, hr.2, h]
  rw [decode_of_selects (by rw [hc, Cond.ofBits_bits]) hsel, hb, hf]

theorem decode_encodeBR {mk : BR → Instr} (link : Bool) (f : BR)
    (hb : ∀ c w, build l c w = mk (fieldsBR c w))
    (hr : (rowOf l).mask = 0x0F000000#32 ∧ (rowOf l).pattern = place 25 0b101#3 ||| placeBit 24 link) :
    decode (encodeBR link f) = .ok (mk f) :=
  decode_of_format (cond_encodeBR link f) (fieldsBR_encodeBR link f) (encodeBR_and link f) hb hr

theorem decode_encodeBXR {mk : BXR → Instr} (f : BXR)
    (hb : ∀ c w, build l c w = mk (fieldsBXR c w))
    (hr : (rowOf l).mask = 0x0FF000F0#32 ∧ (rowOf l).pattern = place 20 0b00010010#8 ||| place 4 0b0001#4) :
    decode (encodeBXR f) = .ok (mk f) :=
  decode_of_format (cond_encodeBXR f) (fieldsBXR_encodeBXR f) (encodeBXR_and f) hb hr

theorem decode_encodeLSI {mk : LSI → Instr} (byte load : Bool) (f : LSI)
    (hb : ∀ c w, build l c w = mk (fieldsLSI c w))
    (hr : (rowOf l).mask = 0x0E500000#32 ∧
      (rowOf l).pattern = place 25 0b010#3 ||| placeBit 22 byte ||| placeBit 20 load) :
    decode (encodeLSI byte load f) = .ok (mk f) :=
  decode_of_format (cond_encodeLSI byte load f) (fieldsLSI_encodeLSI byte load f) (encodeLSI_and byte load f) hb hr

theorem decode_encodeLSR {mk : LSR → Instr} (byte load : Bool) (f : LSR)
    (hb : ∀ c w, build l c w = mk (fieldsLSR c w))
    (hr : (rowOf l).mask = 0x0E500010#32 ∧
      (rowOf l).pattern = place 25 0b011#3 ||| placeBit 22 byte ||| placeBit 20 load) :
    decode (encodeLSR byte load f) = .ok (mk f) :=
  decode_of_format (cond_encodeLSR byte load f) (fieldsLSR_encodeLSR byte load f) (encodeLSR_and byte load f) hb hr

theorem decode_encodeLSM {mk : LSM → Instr} (load : Bool) (f : LSM)
    (hb : ∀ c w, build l c w = mk (fieldsLSM c w))
    (hr : (rowOf l).mask = 0x0E100000#32 ∧ (rowOf l).pattern = place 25 0b100#3 ||| placeBit 20 load) :
    decode (encodeLSM load f) = .ok (mk f) :=
  decode_of_format (cond_encodeLSM load f) (fieldsLSM_encodeLSM load f) (encodeLSM_and load f) hb hr

theorem decode_encodeXLI {mk : XLI → Instr} (load : Bool) (sh : BitVec 2) (f : XLI)
    (hb : ∀ c w, build l c w = mk (fieldsXLI c w))
    (hr : (rowOf l).mask = 0x0E5000F0#32 ∧
      (rowOf l).pattern = placeBit 22 true ||| placeBit 20 load ||| placeBit 7 true ||| place 5 sh ||| placeBit 4 true) :
    decode (encodeXLI load sh f) = .ok (mk f) :=
  decode_of_format (cond_encodeXLI load sh f) (fieldsXLI_encodeXLI load sh f) (encodeXLI_and load sh f) hb hr

theorem decode_encodeXLR {mk : XLR → Instr} (load : Bool) (sh : BitVec 2) (f : XLR)
    (hb : ∀ c w, build l c w = mk (fieldsXLR c w))
    (hr : (rowOf l).mask = 0x0E5000F0#32 ∧
      (rowOf l).pattern = placeBit 20 load ||| placeBit 7 true ||| place 5 sh ||| placeBit 4 true) :
    decode (encodeXLR load sh f) = .ok (mk f) :=
  decode_of_format (cond_encodeXLR load sh f) (fieldsXLR_encodeXLR load sh f) (encodeXLR_and load sh f) hb hr

theorem decode_encodeMULF {mk : MULF → Instr} (acc : Bool) (f : MULF)
    (hb : ∀ c w, build l c w = mk (fieldsMULF c w))
    (hr : (rowOf l).mask = 0x0FE000F0#32 ∧ (rowOf l).pattern = placeBit 21 acc ||| place 4 0b1001#4) :
    decode (encodeMULF acc f) = .ok (mk f) :=
  decode_of_format (cond_encodeMULF acc f) (fieldsMULF_encodeMULF acc f) (encodeMULF_and acc f) hb hr

theorem decode_encodeMULL {mk : MULL → Instr} (sg acc : Bool) (f : MULL)
    (hb : ∀ c w, build l c w = mk (fieldsMULL c w))
    (hr : (rowOf l).mask = 0x0FE000F0#32 ∧
      (rowOf l).pattern = place 23 0b00001#5 ||| placeBit 22 sg ||| placeBit 21 acc ||| place 4 0b1001#4) :
    decode (encodeMULL sg acc f) = .ok (mk f) :=
  decode_of_format (cond_encodeMULL sg acc f) (fieldsMULL_encodeMULL sg acc f) (encodeMULL_and sg acc f) hb hr

theorem decode_encodeSWPF {mk : SWPF → Instr} (byte : Bool) (f : SWPF)
    (hb : ∀ c w, build l c w = mk (fieldsSWPF c w))
    (hr : (rowOf l).mask = 0x0FF000F0#32 ∧
      (rowOf l).pattern = place 23 0b00010#5 ||| placeBit 22 byte ||| place 4 0b1001#4) :
    decode (encodeSWPF byte f) = .ok (mk f) :=
  decode_of_format (cond_encodeSWPF byte f) (fieldsSWPF_encodeSWPF byte f) (encodeSWPF_and byte f) hb hr

theorem decode_encodeRefused {mk : Cond → Instr} (row : BitVec 28) (hb : ∀ c w, build l c w = mk c)
    (hr : (rowOf l).mask.extractLsb' 28 4 = 0#4 ∧ place 0 row &&& (rowOf l).mask = (rowOf l).pattern) :
    decode (encodeRefused c row) = .ok (mk c) :=
  decode_of_format (fields := fun c _ => c) (cond_encodeRefused c row) rfl ((encodeRefused_and c row hr.1).trans hr.2) hb
    ⟨rfl, rfl⟩

theorem opcode_encodeDPI (a : AluOp) (f : DPI) : (encodeDPI a f).extractLsb' 21 4 = a.bits := by
  apply BitVec.eq_of_getLsbD_eq
  intro i hi
  simp only [encodeDPI, placeBit, BitVec.getLsbD_or, getLsbD_place, BitVec.getLsbD_extractLsb']
  interval_cases i <;> simp

theorem opcode_encodeDPR (a : AluOp) (f : DPR) : (encodeDPR a f).extractLsb' 21 4 = a.bits := by
  apply BitVec.eq_of_getLsbD_eq
  intro i hi
  simp only [encodeDPR, placeBit, BitVec.getLsbD_or, getLsbD_place, BitVec.getLsbD_extractLsb']
  interval_cases i <;> simp

theorem opcode_encodeDPRS (a : AluOp) (f : DPRS) : (encodeDPRS a f).extractLsb' 21 4 = a.bits := by
  apply BitVec.eq_of_getLsbD_eq
  intro i hi
  simp only [encodeDPRS, placeBit, BitVec.getLsbD_or, getLsbD_place, BitVec.getLsbD_extractLsb']
  interval_cases i <;> simp

/-- The encoded word of an operation has its row's bits; for a compare that needs `S = 1` (R116). -/
theorem decode_encodeDPI (a : AluOp) (f : DPI) (hs : writesRd a = false → f.s = true) :
    decode (encodeDPI a f) = .ok (buildDPI a f) := by
  have hsel : (rowOf (.dpi a)).selects (encodeDPI a f) := by
    rw [rowOf_dpi]
    exact and_or_of_and (encodeDPI_and a f) (and_aluMask (opcode_encodeDPI a f) (by rwa [s_encodeDPI]))
  rw [decode_of_selects (by rw [cond_encodeDPI, Cond.ofBits_bits]) hsel, build, fieldsDPI_encodeDPI]

theorem decode_encodeDPR (a : AluOp) (f : DPR) (hs : writesRd a = false → f.s = true) :
    decode (encodeDPR a f) = .ok (buildDPR a f) := by
  have hsel : (rowOf (.dpr a)).selects (encodeDPR a f) := by
    rw [rowOf_dpr]
    exact and_or_of_and (encodeDPR_and a f) (and_aluMask (opcode_encodeDPR a f) (by rwa [s_encodeDPR]))
  rw [decode_of_selects (by rw [cond_encodeDPR, Cond.ofBits_bits]) hsel, build, fieldsDPR_encodeDPR]

theorem decode_encodeDPRS (a : AluOp) (f : DPRS) (hs : writesRd a = false → f.s = true) :
    decode (encodeDPRS a f) = .ok (buildDPRS a f) := by
  have hsel : (rowOf (.dprs a)).selects (encodeDPRS a f) := by
    rw [rowOf_dprs]
    exact and_or_of_and (encodeDPRS_and a f) (and_aluMask (opcode_encodeDPRS a f) (by rwa [s_encodeDPRS]))
  rw [decode_of_selects (by rw [cond_encodeDPRS, Cond.ofBits_bits]) hsel, build, fieldsDPRS_encodeDPRS]

end

/-! ## The obligations -/

/-- Settles O2: the rows of data processing need `S = 1` for a compare, which is what `wf` says; every other encoded word is
selected by its instruction's row whatever the fields are. -/
theorem decodeEncodeAgree : Obligations.DecodeEncodeAgree := by
  unfold Obligations.DecodeEncodeAgree
  intro i hwf
  cases i
  case andDPI f | eorDPI f | subDPI f | rsbDPI f | addDPI f | adcDPI f | sbcDPI f | rscDPI f | orrDPI f |
      movDPI f | bicDPI f | mvnDPI f => exact decode_encodeDPI _ f nofun
  case tstDPI f | teqDPI f | cmpDPI f | cmnDPI f => exact decode_encodeDPI _ f fun _ => hwf
  case andDPR f | eorDPR f | subDPR f | rsbDPR f | addDPR f | adcDPR f | sbcDPR f | rscDPR f | orrDPR f |
      movDPR f | bicDPR f | mvnDPR f => exact decode_encodeDPR _ f nofun
  case tstDPR f | teqDPR f | cmpDPR f | cmnDPR f => exact decode_encodeDPR _ f fun _ => hwf
  case andDPRS f | eorDPRS f | subDPRS f | rsbDPRS f | addDPRS f | adcDPRS f | sbcDPRS f | rscDPRS f |
      orrDPRS f | movDPRS f | bicDPRS f | mvnDPRS f => exact decode_encodeDPRS _ f nofun
  case tstDPRS f | teqDPRS f | cmpDPRS f | cmnDPRS f => exact decode_encodeDPRS _ f fun _ => hwf
  case b f => exact decode_encodeBR (l := .b) _ f (fun _ _ => rfl) (by decide)
  case bl f => exact decode_encodeBR (l := .bl) _ f (fun _ _ => rfl) (by decide)
  case bx f => exact decode_encodeBXR (l := .bx) f (fun _ _ => rfl) (by decide)
  case ldrLSI f => exact decode_encodeLSI (l := .ldrLSI) _ _ f (fun _ _ => rfl) (by decide)
  case strLSI f => exact decode_encodeLSI (l := .strLSI) _ _ f (fun _ _ => rfl) (by decide)
  case ldrbLSI f => exact decode_encodeLSI (l := .ldrbLSI) _ _ f (fun _ _ => rfl) (by decide)
  case strbLSI f => exact decode_encodeLSI (l := .strbLSI) _ _ f (fun _ _ => rfl) (by decide)
  case ldrLSR f => exact decode_encodeLSR (l := .ldrLSR) _ _ f (fun _ _ => rfl) (by decide)
  case strLSR f => exact decode_encodeLSR (l := .strLSR) _ _ f (fun _ _ => rfl) (by decide)
  case ldrbLSR f => exact decode_encodeLSR (l := .ldrbLSR) _ _ f (fun _ _ => rfl) (by decide)
  case strbLSR f => exact decode_encodeLSR (l := .strbLSR) _ _ f (fun _ _ => rfl) (by decide)
  case ldm f => exact decode_encodeLSM (l := .ldm) _ f (fun _ _ => rfl) (by decide)
  case stm f => exact decode_encodeLSM (l := .stm) _ f (fun _ _ => rfl) (by decide)
  case ldrhXLI f => exact decode_encodeXLI (l := .ldrhXLI) _ _ f (fun _ _ => rfl) (by decide)
  case strhXLI f => exact decode_encodeXLI (l := .strhXLI) _ _ f (fun _ _ => rfl) (by decide)
  case ldrsbXLI f => exact decode_encodeXLI (l := .ldrsbXLI) _ _ f (fun _ _ => rfl) (by decide)
  case ldrshXLI f => exact decode_encodeXLI (l := .ldrshXLI) _ _ f (fun _ _ => rfl) (by decide)
  case ldrhXLR f => exact decode_encodeXLR (l := .ldrhXLR) _ _ f (fun _ _ => rfl) (by decide)
  case strhXLR f => exact decode_encodeXLR (l := .strhXLR) _ _ f (fun _ _ => rfl) (by decide)
  case ldrsbXLR f => exact decode_encodeXLR (l := .ldrsbXLR) _ _ f (fun _ _ => rfl) (by decide)
  case ldrshXLR f => exact decode_encodeXLR (l := .ldrshXLR) _ _ f (fun _ _ => rfl) (by decide)
  case mul f => exact decode_encodeMULF (l := .mul) _ f (fun _ _ => rfl) (by decide)
  case mla f => exact decode_encodeMULF (l := .mla) _ f (fun _ _ => rfl) (by decide)
  case umull f => exact decode_encodeMULL (l := .umull) _ _ f (fun _ _ => rfl) (by decide)
  case umlal f => exact decode_encodeMULL (l := .umlal) _ _ f (fun _ _ => rfl) (by decide)
  case smull f => exact decode_encodeMULL (l := .smull) _ _ f (fun _ _ => rfl) (by decide)
  case smlal f => exact decode_encodeMULL (l := .smlal) _ _ f (fun _ _ => rfl) (by decide)
  case swp f => exact decode_encodeSWPF (l := .swp) _ f (fun _ _ => rfl) (by decide)
  case swpb f => exact decode_encodeSWPF (l := .swpb) _ f (fun _ _ => rfl) (by decide)
  case mrs c => exact decode_encodeRefused (l := .mrs) _ (fun _ _ => rfl) (by decide)
  case msrReg c => exact decode_encodeRefused (l := .msrReg) _ (fun _ _ => rfl) (by decide)
  case msrImm c => exact decode_encodeRefused (l := .msrImm) _ (fun _ _ => rfl) (by decide)
  case blxReg c => exact decode_encodeRefused (l := .blxReg) _ (fun _ _ => rfl) (by decide)
  case bkpt c => exact decode_encodeRefused (l := .bkpt) _ (fun _ _ => rfl) (by decide)
  case qadd c => exact decode_encodeRefused (l := .qadd) _ (fun _ _ => rfl) (by decide)
  case qsub c => exact decode_encodeRefused (l := .qsub) _ (fun _ _ => rfl) (by decide)
  case qdadd c => exact decode_encodeRefused (l := .qdadd) _ (fun _ _ => rfl) (by decide)
  case qdsub c => exact decode_encodeRefused (l := .qdsub) _ (fun _ _ => rfl) (by decide)
  case cdp c => exact decode_encodeRefused (l := .cdp) _ (fun _ _ => rfl) (by decide)
  case mcr c => exact decode_encodeRefused (l := .mcr) _ (fun _ _ => rfl) (by decide)
  case mrc c => exact decode_encodeRefused (l := .mrc) _ (fun _ _ => rfl) (by decide)
  case ldc c => exact decode_encodeRefused (l := .ldc) _ (fun _ _ => rfl) (by decide)
  case stc c => exact decode_encodeRefused (l := .stc) _ (fun _ _ => rfl) (by decide)
  case swi c => exact decode_encodeRefused (l := .swi) _ (fun _ _ => rfl) (by decide)
  case blxImm => rfl

/-- Settles O3: of the rows only those of TST, TEQ, CMP and CMN ask something of a word that its fields do not show, and
they test `S`. -/
theorem decodedIsWellFormed : Obligations.DecodedIsWellFormed := by
  unfold Obligations.DecodedIsWellFormed
  intro w i hi
  obtain ⟨c, l, -, hl, rfl⟩ | ⟨-, -, rfl⟩ := decode_eq_ok hi
  · have hs : ∀ a, l.aluOp? = some a → writesRd a = false → w.getLsbD 20 = true :=
      fun a ha => (aluFields_of_selects ha (leaf_eq_some_iff.1 hl)).2
    cases l
    case dpi a | dpr a | dprs a =>
      cases a
      case tst | teq | cmp | cmn => exact hs _ rfl rfl
      all_goals rfl
    all_goals rfl
  · rfl

end Sys2Proof
end

