-- ==== Sys2Proof/Proofs/StepInvariant.lean ====
section
/-! PROOFS. What every step keeps (spec 10_state.md R35, 20_memory.md R62, R67, R75, 60_exceptions.md R284): the cases of
`step_cases` and `exec_ended` as one relation, `Stepped`, and from it the configuration, the program Memory, the data window
and the halt record. -/

namespace Sys2Proof.Machine

/-! ## The effect of a step -/

/-- What a step that answers a next state does: nothing when Halted; otherwise what `Kept` allows, followed by nothing, by a
halt without a fault, or by a raise at the pc the step began with. -/
inductive Stepped (s : State) : State → Prop
  | stayed (hr : s.run = .halted) : Stepped s s
  | kept (t : State) (hr : s.run = .running) (hc : s.configOk) (h : Kept s t) : Stepped s t
  | halted (cause : HaltCause) (hr : s.run = .running) (hc : s.configOk) (h : cause = .stopped ∨ cause = .endOfProgram) :
      Stepped s (s.halt cause)
  | raised (f : FaultInfo) (t : State) (hr : s.run = .running) (hc : s.configOk) (h : Kept s t) (hpc : t.pc = s.pc) :
      Stepped s (t.raise f s.pc)

theorem stepped_of_step {s t : State} (h : step s = .next t) : Stepped s t := by
  rcases step_cases h with ⟨hr, rfl⟩ | ⟨hr, hc, ⟨cause, hcause, rfl⟩ | ⟨f, rfl⟩ | rfl | ⟨i, hi⟩⟩
  · exact .stayed hr
  · exact .halted cause hr hc hcause
  · exact .raised f s hr hc (.refl s) rfl
  · exact .kept _ hr hc (.advance s)
  · have hend := exec_ended i s
    rw [hi] at hend
    cases hend with
    | advanced u hu => exact .kept _ hr hc (hu.trans (.advance u))
    | branched _ hu => exact .kept _ hr hc hu
    | raised f u hu hpc => exact .raised f u hr hc hu hpc

section
variable {s t : State}

/-- No step changes the configuration or the stop input; of memory it changes data bytes inside the data window alone. -/
theorem Stepped.environment (h : Stepped s t) :
    sameEnvironment s t ∧ t.store = s.store.setData t.dataMem ∧ MemKept s.dbound s.dataMem t.dataMem := by
  have hkept : ∀ u, Kept s u →
      sameEnvironment s u ∧ u.store = s.store.setData u.dataMem ∧ MemKept s.dbound s.dataMem u.dataMem :=
    fun u hu => ⟨⟨hu.stopReq, hu.pbound, hu.dbound, hu.initRegs, hu.initFlags⟩, hu.store, hu.mem⟩
  cases h with
  | stayed => exact hkept s (.refl s)
  | kept _ _ _ hu => exact hkept t hu
  | halted => exact hkept s (.refl s)
  | raised _ u _ _ hu => exact hkept u hu

/-- The program Memory is the data Memory, which a write to the data Memory replaces, or a Memory of its own, which it does
not (R75). -/
theorem Store.prog_setData (st : Store) (m : Memory) :
    (st.prog = st.data ∧ (st.setData m).prog = m) ∨ (st.setData m).prog = st.prog := by
  cases st with
  | coincident _ => exact .inl ⟨rfl, rfl⟩
  | separate _ _ => exact .inr rfl

/-- What holds of both Memories before holds of the program Memory after, if a data write keeps it. -/
theorem progMem_of_setData {P : Memory → Prop} (h : t.store = s.store.setData t.dataMem) (hp : P s.progMem)
    (hd : s.progMem = s.dataMem → P t.dataMem) : P t.progMem := by
  rw [State.progMem, h]
  rcases s.store.prog_setData t.dataMem with ⟨heq, hm⟩ | hm
  · rw [hm]
    exact hd heq
  · rw [hm]
    exact hp

theorem capacities_of_setData (h : t.store = s.store.setData t.dataMem) (hcap : t.dataMem.capacity = s.dataMem.capacity) :
    t.progMem.capacity = s.progMem.capacity ∧ t.dataMem.capacity = s.dataMem.capacity := by
  refine ⟨progMem_of_setData (P := fun m => m.capacity = s.progMem.capacity) h rfl fun heq => ?_, hcap⟩
  rw [hcap, heq]

theorem Stepped.capacities (h : Stepped s t) :
    t.progMem.capacity = s.progMem.capacity ∧ t.dataMem.capacity = s.dataMem.capacity := by
  obtain ⟨-, hstore, hmem⟩ := h.environment
  exact capacities_of_setData hstore hmem.capacity

theorem configOk_of_same (henv : sameEnvironment s t)
    (hcap : t.progMem.capacity = s.progMem.capacity ∧ t.dataMem.capacity = s.dataMem.capacity) (hc : s.configOk) :
    t.configOk := by
  obtain ⟨-, hp, hd, -, -⟩ := henv
  unfold State.configOk
  rwa [hcap.1, hcap.2, hp, hd]

theorem Stepped.configOk (h : Stepped s t) (hc : s.configOk) : t.configOk :=
  configOk_of_same h.environment.1 h.capacities hc

/-- Both Memories stay in canonical form. -/
theorem Stepped.wf (h : Stepped s t) (hc : s.configOk) (hp : s.progMem.wf) (hd : s.dataMem.wf) :
    t.progMem.wf ∧ t.dataMem.wf := by
  obtain ⟨-, hstore, hmem⟩ := h.environment
  obtain ⟨-, hcap, -, -, -, hal⟩ := hc
  have hwf : t.dataMem.wf := hmem.wf hcap hal hd
  exact ⟨progMem_of_setData hstore hp fun _ => hwf, hwf⟩

end

/-! ## The halt record -/

/-- A Running Core has nothing recorded (R39). -/
theorem haltRecordOk_running {c : CoreState} (hr : c.run = .running) (h : c.haltRecordOk = true) :
    c.haltCause = none ∧ c.faultPc = none := by
  unfold CoreState.haltRecordOk at h
  rw [hr] at h
  cases hcause : c.haltCause with
  | none => rw [hcause] at h; exact ⟨rfl, Option.isNone_iff_eq_none.1 h⟩
  | some cause => rw [hcause] at h; cases h

/-- A step keeps the halt record in agreement with the run state, and the pc with a recorded `fault_pc` (R36, R284). -/
theorem Stepped.haltRecord {s t : State} (h : Stepped s t) (hrec : s.haltRecordOk = true) (hpc : s.faultPcOk = true) :
    t.haltRecordOk = true ∧ t.faultPcOk = true := by
  cases h with
  | stayed => exact ⟨hrec, hpc⟩
  | kept _ hr _ hu =>
    obtain ⟨hcause, hfault⟩ := haltRecordOk_running hr hrec
    simp [CoreState.haltRecordOk, State.faultPcOk, hu.run, hu.haltCause, hu.faultPc, hr, hcause, hfault]
  | halted cause hr _ hcause =>
    obtain ⟨-, hfault⟩ := haltRecordOk_running hr hrec
    rcases hcause with rfl | rfl
    all_goals simp [CoreState.haltRecordOk, State.faultPcOk, hfault]
  | raised f u _ _ _ hu =>
    refine ⟨rfl, ?_⟩
    rw [State.faultPcOk, State.raise_faultPc, State.pc_raise, hu]
    exact beq_self_eq_true _

/-! ## The obligations -/

/-- Settles O22: the parts of the invariant, each kept by every case of a step; the reset input changes no part but the halt
record, which it clears. -/
theorem stepKeepsTheInvariant : Obligations.StepKeepsTheInvariant := by
  unfold Obligations.StepKeepsTheInvariant
  constructor
  · rintro s t ⟨hc, hp, hd, hrec, hpc⟩ hstep
    have h := stepped_of_step hstep
    obtain ⟨htp, htd⟩ := h.wf hc hp hd
    exact ⟨h.configOk hc, htp, htd, h.haltRecord hrec hpc⟩
  · rintro s ⟨hc, hp, hd, -, -⟩
    exact ⟨hc, hp, hd, rfl, rfl⟩

/-- Settles O21: the reset configuration is inside the premises, and nothing is listed or recorded. -/
theorem invariantAtReset : Obligations.InvariantAtReset := by
  unfold Obligations.InvariantAtReset
  exact ⟨by decide, reset_memory_wf.1, reset_memory_wf.2, rfl, rfl⟩

/-- Settles O19: the pc and the fixed point are HaltedCore's, the rest is a field each. -/
theorem resetLeavesTheGivenValues : Obligations.ResetLeavesTheGivenValues := by
  unfold Obligations.ResetLeavesTheGivenValues
  exact ⟨State.reset_pc, State.reset_run, rfl, rfl, rfl, State.reset_applyReset⟩

/-- Settles O23: the environment and the capacities, as every case of a step keeps them. -/
theorem stepKeepsTheConfiguration : Obligations.StepKeepsTheConfiguration := by
  unfold Obligations.StepKeepsTheConfiguration
  intro s t hstep
  have h := stepped_of_step hstep
  exact ⟨h.environment.1, h.capacities⟩

/-- Settles O24: the store after a step is the store before with another data Memory. -/
theorem separateProgramIsNeverWritten : Obligations.SeparateProgramIsNeverWritten := by
  unfold Obligations.SeparateProgramIsNeverWritten
  intro s t p d hs hstep
  obtain ⟨-, hstore, -⟩ := (stepped_of_step hstep).environment
  exact ⟨t.dataMem, by rw [hstore, hs]; rfl⟩

/-- Settles O56: the frame of `MemKept`, which every write of a step meets. -/
theorem writesStayInTheWindow : Obligations.WritesStayInTheWindow := by
  unfold Obligations.WritesStayInTheWindow
  intro s t a hstep ha
  obtain ⟨-, -, hmem⟩ := (stepped_of_step hstep).environment
  exact hmem.outside a ha

/-- Settles O18: with no cause recorded before, the only case that leaves a fault is the raise, which records the pc. -/
theorem raiseRecordsThePc : Obligations.RaiseRecordsThePc := by
  unfold Obligations.RaiseRecordsThePc
  intro s t f hr hnone hstep hf
  cases stepped_of_step hstep with
  | stayed hh => rw [hr] at hh; cases hh
  | kept _ _ _ hu => rw [hu.haltCause, hnone] at hf; cases hf
  | halted cause _ _ hcause =>
    rw [State.halt_haltCause] at hf
    rcases hcause with rfl | rfl
    all_goals cases hf
  | raised g u _ _ _ hpc => exact ⟨rfl, rfl, hpc⟩

end Sys2Proof.Machine
end

