-- ==== Sys2Proof/Proofs/FetchExecute.lean ====
section
/-! PROOFS. From the fetched word to the step (spec 10_state.md R27, 30_encoding.md R93 to R96, 60_exceptions.md R287): a word
that decodes is executed, whatever its condition does; a word that does not raises; and inside the premises there is no
other way for a step to end. -/

namespace Sys2Proof.Machine

/-! ## The condition of a decoded word -/

theorem cond?_build (l : Leaf) (c : Cond) (w : Word) : (build l c w).cond? = some c := by
  cases l
  case dpi a | dpr a | dprs a => cases a <;> rfl
  all_goals rfl

/-! ## What a word issues -/

section
variable {w : Word} {f : Flags}

theorem decoded_ok {i : Instr} (h : decode w = .ok i) : decoded w = .run i := by
  rw [decoded, h]

theorem decoded_error {e : DecodeError} (h : decode w = .error e) : decoded w = .raise (.unknownFormat w) := by
  rw [decoded, h]

theorem issue_pass {c : Cond} (hc : Cond.ofBits (w.extractLsb' 28 4) = some c) (hf : conditionPassed c f = true) :
    issue w f = decoded w := by
  simp [issue, hc, hf]

/-- A word is skipped, executed, or raises `UnknownFormat`. -/
theorem issue_cases (w : Word) (f : Flags) :
    issue w f = .skip ∨ (∃ i, issue w f = .run i) ∨ ∃ g, issue w f = .raise g := by
  have hd : (∃ i, decoded w = .run i) ∨ ∃ g, decoded w = .raise g := by
    cases h : decode w with
    | ok i => exact .inl ⟨i, decoded_ok h⟩
    | error e => exact .inr ⟨_, decoded_error h⟩
  unfold issue
  split
  · exact .inr hd
  · split
    · exact .inr hd
    · exact .inl rfl

end

section
variable {s : State} {w : Word} {i : Instr}

/-- A fetched word that decodes is executed: the skip of R95 is what the instruction does when its condition fails. -/
theorem step_of_decode (hs : s.canFetch) (hw : s.fetch s.pc = .ok w) (hi : decode w = .ok i) : step s = exec i s := by
  rw [step, select_fetched hs hw]
  obtain ⟨c, l, hc, -, rfl⟩ | ⟨hc, h5, rfl⟩ := decode_eq_ok hi
  · cases hf : conditionPassed c s.flags with
    | true => rw [issue_pass hc hf, decoded_ok hi]
    | false =>
      have hskip : passes (build l c w) s.flags = false := by rw [passes, cond?_build]; exact hf
      rw [issue_skip hc hf, exec_skip hskip]
  · rw [issue_cond1111 hc, if_pos h5]

/-- Every instruction answers a next state: the spec's faults are effects on the Core (R284). -/
theorem Ended.answers {r : Result} (h : Ended s r) : ∃ t, r = .next t := by
  cases h
  all_goals exact ⟨_, rfl⟩

/-- Inside the premises every step answers a next state. -/
theorem step_answers (hc : s.configOk) : ∃ t, step s = .next t := by
  cases hr : s.run with
  | halted => exact ⟨s, step_halted hr⟩
  | running =>
    cases hstop : s.stopReq with
    | true => exact ⟨_, by rw [step, select_stopped hr hc hstop]⟩
    | false =>
      by_cases hp : s.pbound.low + s.pc.toNat ≤ s.pbound.high
      · have hs : s.canFetch := ⟨hr, hc, hstop, hp⟩
        cases hw : s.fetch s.pc with
        | error f => exact ⟨_, by rw [step, select_canFetch hs, hw]⟩
        | ok w =>
          rw [step, select_fetched hs hw]
          rcases issue_cases w s.flags with h | ⟨i, h⟩ | ⟨f, h⟩
          · exact ⟨_, by rw [h]⟩
          · rw [h]
            exact (exec_ended i s).answers
          · exact ⟨_, by rw [h]⟩
      · exact ⟨_, step_pastEnd hr hc hstop (Nat.lt_of_not_le hp)⟩

theorem outsidePremises_of_not_configOk (hc : ¬s.configOk) :
    s.outsidePremises = some (.inl .configurationError) ∨ s.outsidePremises = some (.inr .boundLowUnaligned) := by
  have hne : s.outsidePremises ≠ none := fun h => hc (outsidePremises_eq_none.1 h)
  unfold State.outsidePremises at hne ⊢
  split
  · exact .inl rfl
  next hcap =>
    rw [if_neg hcap] at hne
    exact .inr (if_pos (by_contra fun hal => hne (if_neg hal)))

theorem select_outside {r : Fault ⊕ Refusal} (hr : s.run = .running) (h : s.outsidePremises = some r) :
    select s = .outside r := by
  simp [select, hr, h]

/-- Outside the premises the step of a Running Core is the stop that `outsidePremises` names (R293, U15). -/
theorem step_outside (hr : s.run = .running) (hc : ¬s.configOk) :
    step s = .fault .configurationError ∨ step s = .refused .boundLowUnaligned := by
  rcases outsidePremises_of_not_configOk hc with h | h
  · exact .inl (by rw [step, select_outside hr h])
  · exact .inr (by rw [step, select_outside hr h])

end

/-! ## The placed word -/

section
variable {s : State} (w : Word)

theorem tableWord_toNat : tableWord 32 w.toNat = w := by
  rw [tableWord, Nat.mod_eq_of_lt w.isLt, BitVec.ofNat_toNat, BitVec.setWidth_eq]

theorem placeWord_capacities (s : State) :
    (s.placeWord w).progMem.capacity = s.progMem.capacity ∧ (s.placeWord w).dataMem.capacity = s.dataMem.capacity := by
  refine ⟨by rw [State.placeWord_progMem, Memory.setWord_capacity], ?_⟩
  rw [State.dataMem, State.placeWord_store, State.progMem, State.dataMem]
  cases s.store <;> rfl

/-- A word placed where a fetch is accepted makes a Core that fetches it next. -/
theorem fetchable_placeWord (hs : s.fetchable) : (s.placeWord w).fetchable := by
  obtain ⟨⟨-, ⟨hpc, hdc, hbounds⟩, -, hp⟩, ha, hcap⟩ := hs
  obtain ⟨hcp, hcd⟩ := placeWord_capacities w s
  exact ⟨⟨rfl, ⟨by rwa [hcp], by rwa [hcd], hbounds⟩, rfl, hp⟩, ha, by rwa [hcp]⟩

theorem fetch_placeWord (hs : s.fetchable) (hm : s.progMem.wf) : (s.placeWord w).fetch (s.placeWord w).pc = .ok w := by
  rw [fetch_fetchable (fetchable_placeWord w hs), State.placeWord_progMem]
  exact congrArg Except.ok (Memory.word_setWord hm.1 _ w)

end

/-! ## The obligations -/

/-- Settles O1: each word's condition, leaf and fields, evaluated. -/
theorem sampleWordsDecode : Obligations.SampleWordsDecode := by
  unfold Obligations.SampleWordsDecode
  decide

/-- Settles O7: the sixteen codes, each for all sixteen settings of the flags. -/
theorem conditionTable : Obligations.ConditionTable := by
  unfold Obligations.ConditionTable
  rintro ⟨n, z, c, v⟩
  revert n z c v
  decide

/-- Settles O8: the word fetched is that of the four bytes, and a word that decodes is executed. -/
theorem stepRunsDecodedInstruction : Obligations.StepRunsDecodedInstruction := by
  unfold Obligations.StepRunsDecodedInstruction
  intro s i hs hi
  refine step_of_decode hs.1 (fetch_fetchable hs) ?_
  rw [State.bytesAtPc, decodeBytes] at hi
  split at hi
  next hd =>
    cases hi
    exact hd
  · cases hi

/-- Settles O9: the fetch reads the placed word, which decodes to the instruction it encodes (O2). -/
theorem placedInstructionRuns : Obligations.PlacedInstructionRuns := by
  unfold Obligations.PlacedInstructionRuns
  intro s i hs hm hwf
  rw [State.withFetchWord, tableWord_toNat]
  exact step_of_decode (fetchable_placeWord _ hs).1 (fetch_placeWord _ hs hm) (decodeEncodeAgree i hwf)

/-- Settles O12: a word that no row selects is unknown to the decoder (O4), whose answer the step raises. -/
theorem unknownWordRaises : Obligations.UnknownWordRaises := by
  unfold Obligations.UnknownWordRaises
  intro s w c hs hw hc hf hnone
  obtain ⟨-, -, htable, -⟩ := opcodeTableDecides
  have hd : decode w = .error (.unknownFormat w) := (htable w c hc).2 hnone
  rw [step, select_fetched hs hw, issue_pass hc hf, decoded_error hd]
  rfl

/-- Settles O14: the stop request is looked at before the pc. -/
theorem stopRequestHalts : Obligations.StopRequestHalts := by
  unfold Obligations.StopRequestHalts
  intro s hr hc hstop
  rw [step, select_stopped hr hc hstop]
  rfl

/-- Settles O16: a misaligned pc is refused as such wherever it is, an aligned one by the capacity. -/
theorem fetchFaults : Obligations.FetchFaults := by
  unfold Obligations.FetchFaults
  intro s hs h
  by_cases ha : s.pc.toNat % 4 = 0
  · rw [step_outOfBounds hs ha (h.resolve_left (not_not.2 ha)), wordFault, if_neg (not_not.2 ha)]
    rfl
  · rw [step_misaligned hs ha, wordFault, if_pos ha]
    rfl

/-- Settles O17: the answers of the step inside the premises, and its two stops outside them. -/
theorem stepAnswersInsidePremises : Obligations.StepAnswersInsidePremises := by
  unfold Obligations.StepAnswersInsidePremises
  exact ⟨fun _ => step_answers, fun _ => step_outside⟩

end Sys2Proof.Machine
end

