-- ==== Sys2Proof/Proofs/DataProcessing.lean ====
section
/-! PROOFS. Data processing (spec 40_data_processing.md R130 to R156): each of the 48 instructions is one of two bodies over its
operation and its operand 2, and the operations meet the closed forms of R140 to R155. With MOV, what BL and BX leave in r14
(41_branch.md R175). -/

namespace Sys2Proof.Machine

/-! ## An instruction by its operation and operand 2 -/

/-- The machine's function for an operation. -/
def aluOf : AluOp → Word → Word → Flags → AluOut
  | .and => aluAnd
  | .eor => aluEor
  | .sub => aluSub
  | .rsb => aluRsb
  | .add => aluAdd
  | .adc => aluAdc
  | .sbc => aluSbc
  | .rsc => aluRsc
  | .tst => aluTst
  | .teq => aluTeq
  | .cmp => aluCmp
  | .cmn => aluCmn
  | .orr => aluOrr
  | .mov => aluMov
  | .bic => aluBic
  | .mvn => aluMvn

/-- The machine's reading of an operand 2. -/
def Operand2.read : Operand2 → State → Word
  | .imm rot imm8 => fun _ => operand2Imm rot imm8
  | .reg rm t shamt => fun s => operand2Reg s rm t shamt
  | .regShift rm t rs => fun s => operand2RegShift s rm t rs

/-- The machine reads an operand 2 as the rules define it (R132 to R134). -/
theorem Operand2.read_eq_value (o : Operand2) (s : State) : o.read s = o.value s := by
  obtain ⟨himm, hreg, hregShift⟩ := operand2Values
  cases o with
  | imm rot imm8 => exact (himm rot imm8).1
  | reg rm t shamt => exact (hreg s rm t shamt).1
  | regShift rm t rs => exact hregShift s rm rs t

/-- The body of a data-processing instruction: a compare writes flags only (R137). -/
def DataOp.body (d : DataOp) : State → Body :=
  if writesRd d.op then dataWrite (aluOf d.op) d.s d.rn d.rd d.op2.read else dataTest (aluOf d.op) d.rn d.op2.read

theorem exec_of_dataOp? {i : Instr} {d : DataOp} (h : dataOp? i = some d) (s : State) :
    exec i s = execute d.cond d.body s := by
  cases i
  case andDPI | andDPR | andDPRS | eorDPI | eorDPR | eorDPRS | subDPI | subDPR | subDPRS | rsbDPI | rsbDPR | rsbDPRS |
      addDPI | addDPR | addDPRS | adcDPI | adcDPR | adcDPRS | sbcDPI | sbcDPR | sbcDPRS | rscDPI | rscDPR | rscDPRS |
      tstDPI | tstDPR | tstDPRS | teqDPI | teqDPR | teqDPRS | cmpDPI | cmpDPR | cmpDPRS | cmnDPI | cmnDPR | cmnDPRS |
      orrDPI | orrDPR | orrDPRS | movDPI | movDPR | movDPRS | bicDPI | bicDPR | bicDPRS | mvnDPI | mvnDPR | mvnDPRS =>
    cases h
    rfl
  all_goals cases h

/-! ## The adder's closed forms -/

/-- Complementing a word is subtracting it from -1. -/
theorem toInt_not (b : Word) : (~~~b).toInt = -b.toInt - 1 := by
  have hb := b.isLt
  simp only [BitVec.toInt_eq_toNat_cond, BitVec.toNat_not]
  omega

theorem addWithCarry_ovf_eq_overflows (x y : Word) (cin : Bool) :
    (addWithCarry x y cin).ovf = overflows (x.toInt + y.toInt + cin.toNat) :=
  decide_eq_decide.2 (by omega)

/-- The overflow of a subtraction is that of the exact difference, less the borrow (R31, R136). -/
theorem addWithCarry_not_ovf_eq_overflows (a b : Word) (c : Bool) :
    (addWithCarry a (~~~b) c).ovf = overflows (a.toInt - b.toInt - (1 - c.toNat : Int)) := by
  rw [addWithCarry_ovf_eq_overflows, toInt_not]
  congr 1
  omega

/-- C of a subtraction: no borrow, the carry-in standing for 1 less to take away (R31, R136). -/
theorem addWithCarry_not_carry_eq (a b : Word) (c : Bool) :
    (addWithCarry a (~~~b) c).carry = decide (b.toNat + (1 - c.toNat) ≤ a.toNat) := by
  have hb := b.isLt
  have hc := c.toNat_le
  simp only [addWithCarry, BitVec.toNat_not]
  exact decide_eq_decide.2 (by omega)

/-! ## The operations -/

section
variable (a b : Word) (f : Flags)

/-- The result of an operation is the one its rule gives (R140 to R155). -/
theorem aluOf_result (op : AluOp) : (aluOf op a b f).result = aluResult op a b f.c := by
  cases op
  case and | eor | tst | teq | orr | mov | bic | mvn => rfl
  case add | cmn => exact (addWithCarry_result a b false).trans (BitVec.add_zero _)
  case adc => exact addWithCarry_result a b f.c
  case sub | cmp => exact (addWithCarry_not_result a b true).trans (BitVec.sub_zero _)
  case rsb => exact (addWithCarry_not_result b a true).trans (BitVec.sub_zero _)
  case sbc => exact addWithCarry_not_result a b f.c
  case rsc => exact addWithCarry_not_result b a f.c

theorem aluOf_carry (op : AluOp) : (aluOf op a b f).flags.c = aluCarry op a b f.c := by
  cases op
  case and | eor | tst | teq | orr | mov | bic | mvn | add | cmn | adc => rfl
  case sub | cmp => exact addWithCarry_not_carry_eq a b true
  case rsb => exact addWithCarry_not_carry_eq b a true
  case sbc => exact addWithCarry_not_carry_eq a b f.c
  case rsc => exact addWithCarry_not_carry_eq b a f.c

theorem aluOf_overflow (op : AluOp) : (aluOf op a b f).flags.v = aluOverflow op a b f.c f.v := by
  cases op
  case and | eor | tst | teq | orr | mov | bic | mvn => rfl
  case add | cmn => exact (addWithCarry_ovf_eq_overflows a b false).trans (congrArg overflows (Int.add_zero _))
  case adc => exact addWithCarry_ovf_eq_overflows a b f.c
  case sub | cmp => exact (addWithCarry_not_ovf_eq_overflows a b true).trans (congrArg overflows (Int.sub_zero _))
  case rsb => exact (addWithCarry_not_ovf_eq_overflows b a true).trans (congrArg overflows (Int.sub_zero _))
  case sbc => exact addWithCarry_not_ovf_eq_overflows a b f.c
  case rsc => exact addWithCarry_not_ovf_eq_overflows b a f.c

/-- N and Z are the result's, for logical and arithmetic operations alike (R138). -/
theorem aluOf_nz (op : AluOp) :
    (aluOf op a b f).flags.n = (aluOf op a b f).result.msb ∧
      (aluOf op a b f).flags.z = decide ((aluOf op a b f).result = 0) := by
  cases op
  all_goals exact ⟨rfl, rfl⟩

theorem aluOf_flags (op : AluOp) : (aluOf op a b f).flags = aluFlags op a b f := by
  obtain ⟨hn, hz⟩ := aluOf_nz a b f op
  have hc := aluOf_carry a b f op
  have hv := aluOf_overflow a b f op
  rw [aluOf_result] at hn hz
  rw [aluFlags, ← hn, ← hz, ← hc, ← hv]

end

/-! ## What a data-processing instruction does -/

/-- Whatever the operation: the closed forms, the step's `+4`, and nothing else (R137 to R139). -/
theorem dataProcessing_result {i : Instr} {d : DataOp} {s : State} (hd : dataOp? i = some d)
    (hp : conditionPassed d.cond s.flags = true) :
    ∃ t, exec i s = .next t ∧
      regsThenAdvance t (fun r =>
        if writesRd d.op = true ∧ r = d.rd then aluResult d.op (s.reg d.rn) (d.op2.value s) s.flags.c else s.reg r) ∧
      t.flags = (if d.s || !writesRd d.op then aluFlags d.op (s.reg d.rn) (d.op2.value s) s.flags else s.flags) ∧
      t.store = s.store ∧ sameRun s t ∧ sameEnvironment s t := by
  rw [exec_of_dataOp? hd, execute_pass _ hp, DataOp.body, ← aluOf_result, ← aluOf_flags, ← d.op2.read_eq_value]
  cases writesRd d.op with
  | true =>
    obtain ⟨hregs, hflags, hframe⟩ := flagsIf_advance_frame
      (s.setReg d.rd (aluOf d.op (s.reg d.rn) (d.op2.read s) s.flags).result) d.s
      (aluOf d.op (s.reg d.rn) (d.op2.read s) s.flags).flags
    refine ⟨_, rfl, fun r => ?_, ?_, hframe⟩
    · rw [hregs, State.reg_setReg]
      simp
    · rw [hflags, Bool.not_true, Bool.or_false]
      rfl
  | false =>
    obtain ⟨hregs, hframe⟩ :=
      advance_changes_pc_only (s.setFlags (aluOf d.op (s.reg d.rn) (d.op2.read s) s.flags).flags)
    refine ⟨_, rfl, fun r => ?_, ?_, hframe.2⟩
    · rw [hregs]
      simp
    · rw [hframe.1, Bool.not_false, Bool.or_true]
      rfl

/-! ## The obligations -/

/-- Settles O29: the closed forms hold of every operation, so of the logical ones. -/
theorem logicalOperations : Obligations.LogicalOperations := by
  unfold Obligations.LogicalOperations
  exact fun _ _ _ hd _ => dataProcessing_result hd

/-- Settles O30, as O29: a difference is the adder's sum with the complement and a carry-in of 1. -/
theorem addSubtractOperations : Obligations.AddSubtractOperations := by
  unfold Obligations.AddSubtractOperations
  exact fun _ _ _ hd _ => dataProcessing_result hd

/-- Settles O31, as O29: the carry-in is C before the instruction. -/
theorem carryOperations : Obligations.CarryOperations := by
  unfold Obligations.CarryOperations
  exact fun _ _ _ hd _ => dataProcessing_result hd

/-- Settles O32, as O29: the body of a compare writes no register. -/
theorem compareOperations : Obligations.CompareOperations := by
  unfold Obligations.CompareOperations
  exact fun _ _ _ hd _ => dataProcessing_result hd

/-! ## Calls and returns (R175) -/

section
variable {t : State} {g : DPR}

/-- `MOV pc, lr`: the step's `+4` comes on top of the link (R28, R153). -/
theorem exec_mov_pc_lr (hc : g.cond = .al) (hrd : g.rd = 15#4) (hrm : g.rm = 14#4) (hn : g.shamt = 0)
    (ht : g.stype = .lsl) : ∃ u, exec (.movDPR g) t = .next u ∧ u.pc = t.reg lrIx + 4 := by
  obtain ⟨u, hu, hregs, -⟩ := dataProcessing_result (i := .movDPR g) (s := t) rfl (by simp [dataOpDPR, hc, conditionPassed])
  refine ⟨u, hu, (hregs 15#4).trans ?_⟩
  simp [dataOpDPR, writesRd, aluResult, Operand2.value, hrd, hrm, hn, ht, specShift, lrIx]

/-- A link survives the write of the pc. -/
theorem reg_lr_of_link (s : State) (v w : Word) : ((s.setReg lrIx v).setPc w).reg lrIx = v := by
  rw [State.reg_setPc, if_neg (by decide), State.reg_setReg, if_pos rfl]

/-- `BX lr`: the link itself is the target (R173). -/
theorem exec_bx_lr : ∃ u, exec (.bx ⟨.al, 14#4⟩) t = .next u ∧ u.pc = t.reg lrIx :=
  ⟨_, exec_bx rfl, State.pc_setPc _ _⟩

end

/-- Settles O36: BL links its own address and BX the next one; `MOV pc, lr` lands 4 past the link, `BX lr` on it. -/
theorem callAndReturn : Obligations.CallAndReturn := by
  unfold Obligations.CallAndReturn
  intro s t g hc hrd hrm hn ht
  have hmov := exec_mov_pc_lr (t := t) hc hrd hrm hn ht
  refine ⟨fun f hp h => ?_, fun f hp h => ?_⟩
  · have hlr : t.reg lrIx = s.pc := by
      cases (exec_bl hp).symm.trans h
      exact reg_lr_of_link ..
    rw [← hlr]
    exact ⟨hmov, exec_bx_lr⟩
  · have hlr : t.reg lrIx = s.pc + 4 := by
      cases (exec_bx hp).symm.trans h
      exact reg_lr_of_link ..
    have h8 : s.pc + 8 = t.reg lrIx + 4 := by rw [hlr, BitVec.add_assoc]; rfl
    rw [h8, ← hlr]
    exact ⟨hmov, exec_bx_lr⟩

end Sys2Proof.Machine
end

