-- ==== Sys2Proof/Proofs/FlagUpdate.lean ====
section
/-! PROOFS. Which instructions leave the flags (spec 10_state.md R31): one lemma per body on the flags of the state it ends in,
and from them all instructions. -/

namespace Sys2Proof.Machine

/-! ## The flags after an instruction (R31) -/

/-- The state in which a body ends. -/
def Body.state : Body → State
  | .done s => s
  | .branched s => s
  | .raised _ s => s

theorem flags_finish {b : Body} {a : Word} {t : State} (h : b.finish a = .next t) : t.flags = b.state.flags := by
  cases b
  all_goals
    cases h
    rfl

/-- What holds of the flags before and of those in which the body ends, holds of those after. -/
theorem flags_of_execute {P : Flags → Prop} {c : Cond} {body : State → Body} {s t : State} (hs : P s.flags)
    (hb : P (body s).state.flags) (h : execute c body s = .next t) : P t.flags := by
  unfold execute at h
  split at h
  · rw [flags_finish h]
    exact hb
  · cases h
    exact hs

section
variable (s : State)

theorem flags_loadBody (read : State → Word → Except FaultInfo Word) (p u w : Bool) (rn rd : RegIx) (off : State → Word) :
    (loadBody read p u w rn rd off s).state.flags = s.flags := by
  rw [loadBody]
  split
  · rfl
  · exact State.setRegIf_flags ..

theorem flags_storeBody {write : State → Word → Word → Except Raised State}
    (hw : ∀ s addr v, KeptWrite s (write s addr v)) (p u w : Bool) (rn rd : RegIx) (off : State → Word) :
    (storeBody write p u w rn rd off s).state.flags = s.flags := by
  have h := hw s (resolve p u w (s.reg rn) (off s)).addr (s.reg rd)
  rw [storeBody]
  split
  next heq =>
    rw [heq] at h
    exact h.2.2
  next heq =>
    rw [heq] at h
    exact (State.setRegIf_flags ..).trans h.2.2

/-- A transfer leaves the flags, whether it raises or not. -/
abbrev FlagsTransfer (s : State) (r : Except Raised State) : Prop :=
  match r with
  | .ok t => t.flags = s.flags
  | .error (_, t) => t.flags = s.flags

theorem FlagsTransfer.trans {s t : State} {r : Except Raised State} (h : t.flags = s.flags) (hr : FlagsTransfer t r) :
    FlagsTransfer s r := by
  unfold FlagsTransfer at hr ⊢
  rwa [← h]

theorem flagsTransfer_load (k : RegIx) (addr : Word) : FlagsTransfer s (loadTransfer s k addr) := by
  rw [loadTransfer]
  split
  all_goals rfl

theorem flagsTransfer_store (k : RegIx) (addr : Word) : FlagsTransfer s (storeTransfer s k addr) := by
  have h := keptWrite_memWrite4 s addr (s.reg k)
  rw [storeTransfer]
  unfold FlagsTransfer
  split
  all_goals
    next heq =>
      rw [heq] at h
      exact h.2.2

theorem flagsWalk {transfer : State → RegIx → Word → Except Raised State}
    (ht : ∀ s k addr, FlagsTransfer s (transfer s k addr)) (p u : Bool) (reglist : BitVec 16) (ks : List RegIx)
    (addr : Word) (s : State) : FlagsTransfer s ((walk transfer p u reglist ks addr s).map Prod.snd) := by
  induction ks generalizing addr s with
  | nil => rfl
  | cons k rest ih =>
    rw [walk]
    split
    · have h := ht s k (if p then stepAddr u addr else addr)
      split
      next heq =>
        rw [heq] at h
        exact h
      next t heq =>
        rw [heq] at h
        exact .trans h (ih (stepAddr u addr) t)
    · exact ih addr s

/-- Nor does a walk of transfers that leave the flags. -/
theorem flags_multipleBody {transfer : State → RegIx → Word → Except Raised State}
    (ht : ∀ s k addr, FlagsTransfer s (transfer s k addr)) (f : LSM) :
    (multipleBody transfer f s).state.flags = s.flags := by
  have hwalk := flagsWalk ht f.p f.u f.reglist allRegs (s.reg f.rn) s
  rw [multipleBody]
  split
  next heq =>
    rw [heq] at hwalk
    exact hwalk
  next heq =>
    rw [heq] at hwalk
    exact (State.setRegIf_flags ..).trans hwalk

theorem flags_swapWord (f : SWPF) : (swapWord f s).state.flags = s.flags := by
  have h := keptWrite_memWrite4 s (s.reg f.rn) (s.reg f.rm)
  rw [swapWord]
  split
  · rfl
  split
  all_goals
    next heq =>
      rw [heq] at h
      exact h.2.2

theorem flags_swapByte (f : SWPF) : (swapByte f s).state.flags = s.flags := by
  have h := keptWrite_memWrite1 s (s.reg f.rn) ((s.reg f.rm).extractLsb' 0 8)
  rw [swapByte]
  split
  · rfl
  split
  all_goals
    next heq =>
      rw [heq] at h
      exact h.2.2

end

section
variable {i : Instr} {s t : State}

/-- An instruction outside data processing that asks for no flag update leaves all four flags. -/
theorem flags_of_exec (hd : dataOp? i = none) (hu : updatesFlags i = false) (h : exec i s = .next t) :
    t.flags = s.flags := by
  cases i
  case b | bl | bx => exact flags_of_execute (P := (· = s.flags)) rfl rfl h
  case ldrLSI | ldrLSR | ldrbLSI | ldrbLSR | ldrhXLI | ldrhXLR | ldrsbXLI | ldrsbXLR | ldrshXLI | ldrshXLR =>
    exact flags_of_execute (P := (· = s.flags)) rfl (flags_loadBody ..) h
  case strLSI | strLSR =>
    exact flags_of_execute (P := (· = s.flags)) rfl (flags_storeBody s (fun s a v => keptWrite_memWrite4 s a v) ..) h
  case strbLSI | strbLSR =>
    exact flags_of_execute (P := (· = s.flags)) rfl (flags_storeBody s (fun s a _ => keptWrite_memWrite1 s a _) ..) h
  case strhXLI | strhXLR =>
    exact flags_of_execute (P := (· = s.flags)) rfl (flags_storeBody s (fun s a _ => keptWrite_memWrite2 s a _) ..) h
  case ldm => exact flags_of_execute (P := (· = s.flags)) rfl (flags_multipleBody s flagsTransfer_load _) h
  case stm => exact flags_of_execute (P := (· = s.flags)) rfl (flags_multipleBody s flagsTransfer_store _) h
  case mul f | mla f | umull f | umlal f | smull f | smlal f =>
    have hs : f.s = false := hu
    refine flags_of_execute (P := (· = s.flags)) rfl ?_ h
    simp only [mulBody, mlaBody, umullBody, umlalBody, smullBody, smlalBody, mulWrite, longWrite, hs]
    rfl
  case swp => exact flags_of_execute (P := (· = s.flags)) rfl (flags_swapWord s _) h
  case swpb => exact flags_of_execute (P := (· = s.flags)) rfl (flags_swapByte s _) h
  case mrs | msrReg | msrImm | blxReg | bkpt | qadd | qsub | qdadd | qdsub | cdp | mcr | mrc | ldc | stc | swi =>
    exact flags_of_execute (P := (· = s.flags)) rfl rfl h
  case blxImm =>
    cases h
    rfl
  all_goals cases hd

/-- A data-processing instruction that is no compare and has `S = 0` leaves all four flags. -/
theorem flags_of_exec_dataOp {d : DataOp} (hd : dataOp? i = some d) (hu : updatesFlags i = false)
    (h : exec i s = .next t) : t.flags = s.flags := by
  simp only [updatesFlags, hd, Bool.or_eq_false_iff, Bool.not_eq_false'] at hu
  obtain ⟨hs, hw⟩ := hu
  rw [exec_of_dataOp? hd, DataOp.body, hs, hw] at h
  exact flags_of_execute (P := (· = s.flags)) rfl rfl h

/-- An instruction outside data processing leaves C and V: the multiplies are the only ones of these that write flags. -/
theorem carryOverflow_of_exec (hd : dataOp? i = none) (h : exec i s = .next t) :
    t.flags.c = s.flags.c ∧ t.flags.v = s.flags.v := by
  cases hu : updatesFlags i with
  | false => rw [flags_of_exec hd hu h]; exact ⟨rfl, rfl⟩
  | true =>
    cases i
    case mul f | mla f | umull f | umlal f | smull f | smlal f =>
      have hs : f.s = true := hu
      refine flags_of_execute (P := fun x => x.c = s.flags.c ∧ x.v = s.flags.v) ⟨rfl, rfl⟩ ?_ h
      simp only [mulBody, mlaBody, umullBody, umlalBody, smullBody, smlalBody, mulWrite, longWrite, hs]
      exact ⟨rfl, rfl⟩
    all_goals cases hd <;> cases hu

end

/-! ## The obligation -/

/-- Settles O25: by whether the instruction is data processing, whose body writes flags on `S` or for a compare alone. -/
theorem flagsChangeOnlyWhenAsked : Obligations.FlagsChangeOnlyWhenAsked := by
  unfold Obligations.FlagsChangeOnlyWhenAsked
  intro i s t h
  refine ⟨fun hu => ?_, fun hd => carryOverflow_of_exec hd h⟩
  cases hd : dataOp? i with
  | none => exact flags_of_exec hd hu h
  | some d => exact flags_of_exec_dataOp hd hu h

end Sys2Proof.Machine
end

