-- ==== Sys2Proof/Proofs/LoadStore.lean ====
section
/-! PROOFS. Single and extended load/store (spec 42_load_store_single.md R181 to R187, 44_load_store_extended.md R211 to R216):
each load is one body over its kind and its address, and so is each store; the accesses decide how the body ends. -/

namespace Sys2Proof.Machine

/-! ## The address -/

theorem off_addressLSR (f : LSR) : (addressLSR f).off.value = offsetLSR f :=
  funext fun s => (shift_eq_specShift f.stype (s.reg f.rm) f.shamt.toNat).symm

/-- The register offset of the extended family is the register, a shift by 0 (R211). -/
theorem off_addressXLR (f : XLR) : (addressXLR f).off.value = offsetXLR f :=
  funext fun s => (shift_eq_specShift .lsl (s.reg f.rm) 0).symm.trans (shift_zero .lsl _)

/-- The resolver gives the address, the displaced base and the writeback of the closed form (R182). -/
theorem resolve_address (a : Address) (s : State) :
    resolve a.p a.u a.w (s.reg a.rn) (a.off.value s) = ⟨a.addr s, a.disp s, a.wb⟩ := by
  unfold Address.addr Address.wb
  cases a.p
  all_goals rfl

/-! ## What a load reads -/

/-- The machine's read for a kind of load. -/
def LoadKind.read : LoadKind → State → Word → Except FaultInfo Word
  | .word => loadWord
  | .byte => loadByte
  | .half => loadHalf
  | .signedByte => loadSignedByte
  | .signedHalf => loadSignedHalf

section
variable {s : State} {addr : Word}

theorem State.memRead2_first (h : ¬s.byteAccessible addr) : s.memRead2 addr = .error (.memoryAccess .outOfBounds addr) := by
  rw [State.memRead2, State.memRead1_outOfBounds h]

theorem State.memRead2_second (h : s.byteAccessible addr) (h' : ¬s.byteAccessible (addr + 1)) :
    s.memRead2 addr = .error (.memoryAccess .outOfBounds (addr + 1)) := by
  rw [State.memRead2, State.memRead1_ok h, State.memRead1_outOfBounds h']

/-- An access that passes reads the value of the closed form. -/
theorem LoadKind.read_ok {k : LoadKind} (h : k.accessible s addr) : k.read s addr = .ok (k.value s addr) := by
  cases k
  case word => exact State.memRead4_ok h
  case byte | signedByte => exact congrArg (Except.map _) (State.memRead1_ok h)
  case half | signedHalf => exact congrArg (Except.map _) (State.memRead2_ok h.1 h.2)

theorem State.memRead2_fault (h : ¬(s.byteAccessible addr ∧ s.byteAccessible (addr + 1))) :
    s.memRead2 addr = .error (if s.byteAccessible addr then .memoryAccess .outOfBounds (addr + 1)
      else .memoryAccess .outOfBounds addr) := by
  by_cases h1 : s.byteAccessible addr
  · rw [if_pos h1, State.memRead2_second h1 fun h2 => h ⟨h1, h2⟩]
  · rw [if_neg h1, State.memRead2_first h1]

/-- An access that does not pass raises the fault of the closed form. -/
theorem LoadKind.read_fault {k : LoadKind} (h : ¬k.accessible s addr) : k.read s addr = .error (k.fault s addr) := by
  cases k
  case word => exact State.memRead4_wordFault h
  case byte | signedByte => exact congrArg (Except.map _) (State.memRead1_outOfBounds h)
  case half | signedHalf => exact congrArg (Except.map _) (State.memRead2_fault h)

end

/-! ## A load by its kind and address -/

def LoadOp.body (d : LoadOp) : State → Body :=
  loadBody d.kind.read d.mem.p d.mem.u d.mem.w d.mem.rn d.rd d.mem.off.value

section
variable {i : Instr} {s : State}

theorem exec_of_loadOp? {d : LoadOp} (h : loadOp? i = some d) (s : State) : exec i s = execute d.cond d.body s := by
  cases i
  case ldrLSI | ldrbLSI | ldrhXLI | ldrsbXLI | ldrshXLI =>
    cases h
    rfl
  case ldrLSR f | ldrbLSR f =>
    cases h
    rw [LoadOp.body, off_addressLSR]
    rfl
  case ldrhXLR f | ldrsbXLR f | ldrshXLR f =>
    cases h
    rw [LoadOp.body, off_addressXLR]
    rfl
  all_goals cases h

/-- A load whose access passes: the writeback, then `Rd` (R183). -/
theorem exec_load {d : LoadOp} (hd : loadOp? i = some d) (hp : conditionPassed d.cond s.flags = true)
    (h : d.kind.accessible s (d.mem.addr s)) :
    exec i s = .next ((s.setRegIf d.mem.wb d.mem.rn (d.mem.disp s)).setReg d.rd (d.kind.value s (d.mem.addr s))).advance := by
  rw [exec_of_loadOp? hd, execute_pass _ hp, LoadOp.body, loadBody, resolve_address]
  dsimp only
  rw [LoadKind.read_ok h]
  rfl

theorem exec_load_fault {d : LoadOp} (hd : loadOp? i = some d) (hp : conditionPassed d.cond s.flags = true)
    (h : ¬d.kind.accessible s (d.mem.addr s)) :
    exec i s = .next (s.raise (d.kind.fault s (d.mem.addr s)) s.pc) := by
  rw [exec_of_loadOp? hd, execute_pass _ hp, LoadOp.body, loadBody, resolve_address]
  dsimp only
  rw [LoadKind.read_fault h]
  rfl

end

/-! ## What a store writes -/

/-- The machine's write for a kind of store. -/
def StoreKind.write : StoreKind → State → Word → Word → Except Raised State
  | .word => storeWord
  | .byte => storeByte
  | .half => storeHalf

theorem lowByte_lowHalf (v : Word) : (v.extractLsb' 0 16).extractLsb' 0 8 = v.extractLsb' 0 8 := by
  ext i hi
  simp

theorem highByte_lowHalf (v : Word) : (v.extractLsb' 0 16).extractLsb' 8 8 = v.extractLsb' 8 8 := by
  ext i hi
  simp

section
variable {s : State} {addr : Word}

theorem State.memWrite4_wordFault (v : Word) (h : ¬s.wordAccessible addr) :
    s.memWrite4 addr v = .error (wordFault addr, s) := by
  by_cases hal : addr.toNat % 4 = 0
  · rw [State.memWrite4_outOfBounds v hal h, wordFault, if_neg (not_not.2 hal)]
  · rw [State.memWrite4_misaligned v hal, wordFault, if_pos hal]

theorem State.setDataMem_setDataMem (s : State) (m m' : Memory) : (s.setDataMem m).setDataMem m' = s.setDataMem m' :=
  congrArg (State.mk s.toCoreState) (Store.setData_setData s.store m m')

/-- A write leaves the other accesses of the state as they were: the checks look at the capacity alone. -/
theorem byteAccessible_setDataMem {m : Memory} (hm : m.capacity = s.dataMem.capacity) :
    (s.setDataMem m).byteAccessible addr ↔ s.byteAccessible addr := by
  unfold State.byteAccessible
  rw [State.setDataMem_dataMem, State.setDataMem_dbound, hm]

theorem State.memWrite2_first (v : Half) (h : ¬s.byteAccessible addr) :
    s.memWrite2 addr v = .error (.memoryAccess .outOfBounds addr, s) := by
  rw [State.memWrite2, State.memWrite1_outOfBounds _ h]

/-- A halfword whose second byte faults has its first byte written (R61). -/
theorem State.memWrite2_second (v : Half) (h : s.byteAccessible addr) (h' : ¬s.byteAccessible (addr + 1)) :
    s.memWrite2 addr v = .error (.memoryAccess .outOfBounds (addr + 1),
      s.setDataMem (s.dataMem.setByte (s.dbound.low + addr.toNat) (v.extractLsb' 0 8))) := by
  rw [State.memWrite2, State.memWrite1_ok _ h]
  exact State.memWrite1_outOfBounds _ ((byteAccessible_setDataMem (Memory.setByte_capacity ..)).not.2 h')

theorem State.memWrite2_ok (v : Half) (h : s.byteAccessible addr) (h' : s.byteAccessible (addr + 1)) :
    s.memWrite2 addr v = .ok (s.setDataMem
      ((s.dataMem.setByte (s.dbound.low + addr.toNat) (v.extractLsb' 0 8)).setByte (s.dbound.low + (addr + 1).toNat)
        (v.extractLsb' 8 8))) := by
  rw [State.memWrite2, State.memWrite1_ok _ h]
  refine (State.memWrite1_ok _ ((byteAccessible_setDataMem (Memory.setByte_capacity ..)).2 h')).trans ?_
  rw [State.setDataMem_setDataMem, State.setDataMem_dataMem, State.setDataMem_dbound]

/-- A halfword's two bytes are distinct, so the second write leaves the first. -/
theorem byte_setHalf_eq_stored (hm : s.dataMem.wf) (addr v : Word) (a : Nat) :
    ((s.dataMem.setByte (s.dbound.low + addr.toNat) (v.extractLsb' 0 8)).setByte (s.dbound.low + (addr + 1).toNat)
        (v.extractLsb' 8 8)).byte a =
      (StoreKind.half.stored s addr v a).getD (s.dataMem.byte a) := by
  have hne : (addr + 1).toNat ≠ addr.toNat := by bv_omega
  rw [Memory.byte_setByte (Memory.rising_setByte hm.1 _ _), Memory.byte_setByte hm.1, StoreKind.stored]
  by_cases h0 : a = s.dbound.low + addr.toNat
  · rw [if_neg (by omega), if_pos h0, if_pos h0, Option.getD_some]
  · rw [if_neg h0, if_neg h0, apply_ite (Option.getD · _)]
    rfl

/-- A store whose accesses pass leaves a data Memory of the same size with the bytes of the closed form. -/
theorem StoreKind.write_ok {k : StoreKind} (hm : s.dataMem.wf) (v : Word) (h : k.accessible s addr) :
    ∃ m, k.write s addr v = .ok (s.setDataMem m) ∧ m.capacity = s.dataMem.capacity ∧
      ∀ a, m.byte a = (k.stored s addr v a).getD (s.dataMem.byte a) := by
  cases k
  case word => exact ⟨_, State.memWrite4_ok v h, Memory.setWord_capacity .., byte_setWord_eq_stored hm addr v⟩
  case byte => exact ⟨_, State.memWrite1_ok _ h, Memory.setByte_capacity .., byte_setByte_eq_stored hm addr v⟩
  case half =>
    refine ⟨_, State.memWrite2_ok _ h.1 h.2, rfl, fun a => ?_⟩
    rw [lowByte_lowHalf, highByte_lowHalf]
    exact byte_setHalf_eq_stored hm addr v a

end

/-! ## A store by its kind and address -/

def StoreOp.body (d : StoreOp) : State → Body :=
  storeBody d.kind.write d.mem.p d.mem.u d.mem.w d.mem.rn d.rd d.mem.off.value

section
variable {i : Instr} {d : StoreOp} {s : State}

theorem exec_of_storeOp? (h : storeOp? i = some d) (s : State) : exec i s = execute d.cond d.body s := by
  cases i
  case strLSI | strbLSI | strhXLI =>
    cases h
    rfl
  case strLSR f | strbLSR f =>
    cases h
    rw [StoreOp.body, off_addressLSR]
    rfl
  case strhXLR f =>
    cases h
    rw [StoreOp.body, off_addressXLR]
    rfl
  all_goals cases h

/-- A store whose write passes: the writeback follows it (R183). -/
theorem exec_store {t : State} (hd : storeOp? i = some d) (hp : conditionPassed d.cond s.flags = true)
    (hw : d.kind.write s (d.mem.addr s) (s.reg d.rd) = .ok t) :
    exec i s = .next (t.setRegIf d.mem.wb d.mem.rn (d.mem.disp s)).advance := by
  rw [exec_of_storeOp? hd, execute_pass _ hp, StoreOp.body, storeBody, resolve_address]
  dsimp only
  rw [hw]
  rfl

theorem exec_store_fault {f : FaultInfo} {t : State} (hd : storeOp? i = some d)
    (hp : conditionPassed d.cond s.flags = true)
    (hw : d.kind.write s (d.mem.addr s) (s.reg d.rd) = .error (f, t)) : exec i s = .next (t.raise f s.pc) := by
  rw [exec_of_storeOp? hd, execute_pass _ hp, StoreOp.body, storeBody, resolve_address]
  dsimp only
  rw [hw]
  rfl

end

/-! ## The registers and the frame -/

section
variable {s : State}

/-- Register writes, then the step's `+4`: nothing else changes. -/
theorem regs_advance_effect {u : State} (hu : ∃ regs, u = { s with regs := regs }) :
    let t := u.advance
    regsThenAdvance t u.reg ∧ t.flags = s.flags ∧ t.store = s.store ∧ sameRun s t ∧ sameEnvironment s t := by
  obtain ⟨regs, rfl⟩ := hu
  exact advance_changes_pc_only _

theorem setRegIf_regs (on : Bool) (i : RegIx) (v : Word) : ∃ regs, s.setRegIf on i v = { s with regs := regs } := by
  cases on
  all_goals exact ⟨_, rfl⟩

theorem setRegIf_setReg_regs (on : Bool) (i j : RegIx) (v w : Word) :
    ∃ regs, (s.setRegIf on i v).setReg j w = { s with regs := regs } := by
  cases on
  all_goals exact ⟨_, rfl⟩

/-- A data Memory of the same size with the stored bytes, a writeback and the step's `+4`. -/
theorem setDataMem_setRegIf_advance_effect {m : Memory} {stored : Nat → Option Byte}
    (hcap : m.capacity = s.dataMem.capacity) (hbytes : ∀ a, m.byte a = (stored a).getD (s.dataMem.byte a)) (on : Bool)
    (rn : RegIx) (v : Word) :
    let t := ((s.setDataMem m).setRegIf on rn v).advance
    memoryAfter s t stored ∧ regsThenAdvance t (fun r => if on = true ∧ r = rn then v else s.reg r) ∧ t.flags = s.flags ∧
      onlyDataMem s t ∧ sameRun s t ∧ sameEnvironment s t := by
  intro t
  have hdata : t.dataMem = m := by
    rw [State.advance_dataMem, State.setRegIf_dataMem, State.setDataMem_dataMem]
  obtain ⟨hregs, hflags, hstore, hframe⟩ := regs_advance_effect (setRegIf_regs (s := s.setDataMem m) on rn v)
  refine ⟨fun a => ?_, fun r => ?_, hflags, ⟨?_, ?_⟩, hframe⟩
  · rw [hdata, hbytes]
  · rw [hregs, State.reg_setRegIf, State.reg_setDataMem]
  · rw [hstore, hdata]
    rfl
  · rw [hdata, hcap]

end

/-! ## The obligations -/

/-- Settles O37: a load whose access passes is two register writes, of which `Rd`'s is the last. -/
theorem loadResults : Obligations.LoadResults := by
  unfold Obligations.LoadResults
  intro i d s hd hp h
  obtain ⟨hregs, hframe⟩ := regs_advance_effect (s := s) (setRegIf_setReg_regs d.mem.wb d.mem.rn d.rd (d.mem.disp s)
    (d.kind.value s (d.mem.addr s)))
  refine ⟨_, exec_load hd hp h, fun r => ?_, hframe⟩
  rw [hregs, State.reg_setReg, State.reg_setRegIf]

/-- Settles O38: the read comes before both register writes. -/
theorem loadFaults : Obligations.LoadFaults := by
  unfold Obligations.LoadFaults
  intro i d s hd hp h
  exact exec_load_fault hd hp h

/-- Settles O39: the write answers the Memory of the closed form; the writeback after it is one register write. -/
theorem storeResults : Obligations.StoreResults := by
  unfold Obligations.StoreResults
  intro i d s hd hp hm h
  obtain ⟨m, hw, hcap, hbytes⟩ := StoreKind.write_ok hm (s.reg d.rd) h
  exact ⟨_, exec_store hd hp hw,
    setDataMem_setRegIf_advance_effect hcap hbytes d.mem.wb d.mem.rn (d.mem.disp s)⟩

/-- Settles O40: the first access of a halfword store is a byte access, like that of a byte store. -/
theorem storeFaults : Obligations.StoreFaults := by
  unfold Obligations.StoreFaults
  intro i d s hd hp h
  refine exec_store_fault hd hp ?_
  cases hk : d.kind with
  | word =>
    have ha : ¬s.wordAccessible (d.mem.addr s) := by simpa [hk] using h
    exact State.memWrite4_wordFault _ ha
  | byte =>
    have ha : ¬s.byteAccessible (d.mem.addr s) := by simpa [hk] using h
    exact State.memWrite1_outOfBounds _ ha
  | half =>
    have ha : ¬s.byteAccessible (d.mem.addr s) := by simpa [hk] using h
    exact State.memWrite2_first _ ha

/-- Settles O41: the raise is taken in the state with the first byte written, before the writeback. -/
theorem storeHalfSecondByteFaults : Obligations.StoreHalfSecondByteFaults := by
  unfold Obligations.StoreHalfSecondByteFaults
  intro i d s hd hk hp hm h h'
  have hw : d.kind.write s (d.mem.addr s) (s.reg d.rd) = .error (.memoryAccess .outOfBounds (d.mem.addr s + 1),
      s.setDataMem (s.dataMem.setByte (s.dbound.low + (d.mem.addr s).toNat) ((s.reg d.rd).extractLsb' 0 8))) := by
    rw [hk, ← lowByte_lowHalf]
    exact State.memWrite2_second _ h h'
  refine ⟨_, exec_store_fault hd hp hw, ⟨rfl, rfl, rfl⟩, fun a => ?_, fun _ => rfl, rfl, ⟨?_, ?_⟩, rfl, rfl, rfl, rfl, rfl⟩
  · rw [State.raise_dataMem, State.setDataMem_dataMem]
    exact byte_setByte_eq_stored hm _ _ a
  · rw [State.raise_dataMem, State.setDataMem_dataMem]
    rfl
  · rw [State.raise_dataMem, State.setDataMem_dataMem]
    rfl

end Sys2Proof.Machine
end

