-- ==== Sys2Proof/Proofs/MemoryViews.lean ====
section
/-! PROOFS. One Memory in several views (spec 20_memory.md R60, R63, R70, R75): a stored word read by bytes and halfwords, and by
the fetch, and the bytes of a loaded image. -/

namespace Sys2Proof.Machine

/-! ## A stored word by its bytes -/

section
variable {s t : State} {addr v : Word}

theorem wordAccessible_of_memWrite4 (h : s.memWrite4 addr v = .ok t) :
    s.wordAccessible addr ∧ t = s.setDataMem (s.dataMem.setWord (s.dbound.low + addr.toNat) v) := by
  by_cases ha : s.wordAccessible addr
  · rw [State.memWrite4_ok v ha] at h
    cases h
    exact ⟨ha, rfl⟩
  · rw [State.memWrite4_wordFault v ha] at h
    cases h

/-- The address of a byte of an aligned word does not wrap. -/
theorem toNat_add_of_aligned (ha : addr.toNat % 4 = 0) {k : Nat} (hk : k < 4) :
    (addr + BitVec.ofNat 32 k).toNat = addr.toNat + k := by
  have := addr.isLt
  rw [BitVec.toNat_add, BitVec.toNat_ofNat]
  omega

/-- Every byte of an accessible word is accessible: a byte access checks its word (R55). -/
theorem byteAccessible_of_wordAccessible (h : s.wordAccessible addr) {k : Nat} (hk : k < 4) :
    s.byteAccessible (addr + BitVec.ofNat 32 k) := by
  obtain ⟨ha, hhigh, hcap⟩ := h
  rw [State.byteAccessible, toNat_add_of_aligned ha hk]
  omega

theorem memRead1_of_wordAccessible (h : s.wordAccessible addr) {k : Nat} (hk : k < 4) :
    s.memRead1 (addr + BitVec.ofNat 32 k) = .ok (s.dataMem.byte (s.dbound.low + addr.toNat + k)) := by
  rw [State.memRead1_ok (byteAccessible_of_wordAccessible h hk), toNat_add_of_aligned h.1 hk, Nat.add_assoc]

theorem memRead2_of_memRead1 {lo hi : Byte} (hlo : s.memRead1 addr = .ok lo) (hhi : s.memRead1 (addr + 1) = .ok hi) :
    s.memRead2 addr = .ok (hi ++ lo) := by
  rw [State.memRead2, hlo, hhi]

end

/-! ## The fetch of a stored word -/

/-- A fetch through the data Bound of the one Memory reads the data word (R75). -/
theorem fetch_of_coincident {t : State} {addr : Word} (hmem : t.progMem = t.dataMem) (hb : t.pbound = t.dbound)
    (h : t.wordAccessible addr) : t.fetch addr = .ok (t.dataWord addr) := by
  rw [State.fetch, hmem, hb]
  exact State.memRead4_ok h

/-- After the bytes of a word are stored the data word is that word. -/
theorem dataWord_of_memoryAfter {s t : State} {addr v : Word} (hb : t.dbound = s.dbound)
    (h : memoryAfter s t (StoreKind.word.stored s addr v)) : t.dataWord addr = v := by
  have h0 : t.dataMem.byte (s.dbound.low + addr.toNat) = v.extractLsb' 24 8 := by rw [h]; simp [StoreKind.stored]
  have h1 : t.dataMem.byte (s.dbound.low + addr.toNat + 1) = v.extractLsb' 16 8 := by rw [h]; simp [StoreKind.stored]
  have h2 : t.dataMem.byte (s.dbound.low + addr.toNat + 2) = v.extractLsb' 8 8 := by rw [h]; simp [StoreKind.stored]
  have h3 : t.dataMem.byte (s.dbound.low + addr.toNat + 3) = v.extractLsb' 0 8 := by rw [h]; simp [StoreKind.stored]
  rw [State.dataWord, hb, h0, h1, h2, h3]
  exact wordOfBytes_split v

/-! ## A loaded image -/

/-- The bytes put from `a` on, and the others as before. -/
theorem byte_putBytes {m : Memory} (hm : rising m.cells) (l : List Byte) (a k : Nat) :
    (m.putBytes a l).byte k = if a ≤ k then l.getD (k - a) (m.byte k) else m.byte k := by
  induction l generalizing m a with
  | nil => simp [Memory.putBytes]
  | cons b rest ih =>
    rw [Memory.putBytes, ih (Memory.rising_setByte hm a b), Memory.byte_setByte hm]
    rcases Nat.lt_trichotomy k a with hlt | rfl | hgt
    · simp [show ¬a + 1 ≤ k by omega, show ¬a ≤ k by omega, hlt.ne]
    · simp
    · have hk : k - a = k - (a + 1) + 1 := by omega
      simp [hk, show a + 1 ≤ k from hgt, hgt.le, hgt.ne']

theorem padImage_length (image : List Byte) : (padImage image).length = (image.length + 3) / 4 * 4 := by
  rw [padImage, List.length_append, List.length_replicate]
  omega

theorem byte_loadImage {m : Memory} (hm : m.wf) (image : List Byte) (k : Nat) :
    (m.loadImage image).byte k = (padImage image).getD k (m.byte k) := by
  rw [Memory.loadImage, byte_putBytes hm.1, if_pos (Nat.zero_le k), Nat.sub_zero]

/-! ## The obligations -/

/-- Settles O53: the byte reads are those of the four bytes written, and a halfword is two of them. -/
theorem mixedWidthReads : Obligations.MixedWidthReads := by
  unfold Obligations.MixedWidthReads
  intro s t addr v hm h
  obtain ⟨ha, rfl⟩ := wordAccessible_of_memWrite4 h
  have hat : (s.setDataMem (s.dataMem.setWord (s.dbound.low + addr.toNat) v)).wordAccessible addr := by
    rw [State.wordAccessible, State.setDataMem_dataMem]
    exact ha
  obtain ⟨b0, b1, b2, b3⟩ := Memory.byte_setWord hm.1 (s.dbound.low + addr.toNat) v
  have hread : ∀ k < 4, _ := fun k hk => memRead1_of_wordAccessible hat hk
  simp only [State.setDataMem_dataMem, State.setDataMem_dbound] at hread
  have h0 := (hread 0 (by decide)).trans (congrArg Except.ok b0)
  have h1 := (hread 1 (by decide)).trans (congrArg Except.ok b1)
  have h2 := (hread 2 (by decide)).trans (congrArg Except.ok b2)
  have h3 := (hread 3 (by decide)).trans (congrArg Except.ok b3)
  rw [show BitVec.ofNat 32 0 = 0#32 from rfl, BitVec.add_zero] at h0
  refine ⟨h0, h1, h2, h3, memRead2_of_memRead1 h0 h1, memRead2_of_memRead1 h2 ?_⟩
  rw [BitVec.add_assoc]
  exact h3

/-- Settles O54: the store's bytes are in the Memory that the fetch reads, and the fetch makes the store's checks. -/
theorem storeIsSeenByTheFetch : Obligations.StoreIsSeenByTheFetch := by
  unfold Obligations.StoreIsSeenByTheFetch
  intro s t m i d hs hm hb hd hk hp ha h
  have hdata : s.dataMem = m := by rw [State.dataMem, hs]; rfl
  obtain ⟨u, hu, hbytes, -, -, ⟨hstore, hcap⟩, -, -, hpb, hdb, -⟩ :=
    storeResults i d s hd hp (by rwa [hdata]) (by rw [hk]; exact ha)
  cases hu.symm.trans h
  rw [hk] at hbytes
  have hmem : t.progMem = t.dataMem := by rw [State.progMem, hstore, hs]; rfl
  have hat : t.wordAccessible (d.mem.addr s) := by rwa [State.wordAccessible, hdb, hcap]
  rw [fetch_of_coincident hmem (by rw [hpb, hdb, hb]) hat, dataWord_of_memoryAfter hdb hbytes]

/-- Settles O55: the image and its padding are the bytes put from address 0 on. -/
theorem imageLoads : Obligations.ImageLoads := by
  unfold Obligations.ImageLoads
  intro m image hm
  refine ⟨fun k hk => ?_, fun k hk hk' => ?_, fun k hk => ?_⟩
  · rw [byte_loadImage hm, padImage, List.getD_append _ _ _ _ hk, List.getD_eq_getElem _ _ hk]
  · have hn : k - image.length < (4 - image.length % 4) % 4 := by omega
    rw [byte_loadImage hm, padImage, List.getD_append_right _ _ _ _ hk,
      List.getD_eq_getElem _ _ (by rwa [List.length_replicate]), List.getElem_replicate]
  · rw [byte_loadImage hm, List.getD_eq_default _ _ (by rwa [padImage_length])]

end Sys2Proof.Machine
end

