-- ==== Sys2Proof/Proofs/LoadStoreMultiple.lean ====
section
/-! PROOFS. LDM and STM (spec 43_load_store_multiple.md R201 to R204): the walk's running address in closed form, the state it has
reached at each register, and what that state holds for loads and for stores. -/

namespace Sys2Proof.Machine

/-! ## The running address -/

section
variable (f : LSM) (s : State)

/-- The running address of the walk when it comes to `x[n]`: the base moved by 4 for each register selected below. -/
def walkAddr (n : Nat) : Word :=
  let d := BitVec.ofNat 32 (4 * lsmRank f n)
  if f.u then s.reg f.rn + d else s.reg f.rn - d

theorem lsmRank_succ (n : Nat) : lsmRank f (n + 1) = lsmRank f n + if f.reglist.getLsbD n then 1 else 0 := by
  rw [lsmRank, lsmRank, List.range_succ, List.filter_append, List.length_append]
  cases h : f.reglist.getLsbD n
  all_goals simp [h]

/-- The base moved by 4 once more than by `4 * r` is that address stepped. -/
theorem stepAddr_base (u : Bool) (base : Word) (r : Nat) :
    stepAddr u (if u then base + BitVec.ofNat 32 (4 * r) else base - BitVec.ofNat 32 (4 * r)) =
      if u then base + BitVec.ofNat 32 (4 * (r + 1)) else base - BitVec.ofNat 32 (4 * (r + 1)) := by
  have h4 : BitVec.ofNat 32 (4 * (r + 1)) = BitVec.ofNat 32 (4 * r) + 4#32 := BitVec.ofNat_add _ _
  rw [stepAddr, h4]
  cases u
  · exact BitVec.sub_sub ..
  · exact BitVec.add_assoc ..

theorem walkAddr_zero : walkAddr f s 0 = s.reg f.rn := by
  cases hu : f.u
  all_goals simp [walkAddr, lsmRank, hu]

variable {n : Nat}

theorem walkAddr_succ_of_selected (h : f.reglist.getLsbD n = true) :
    walkAddr f s (n + 1) = stepAddr f.u (walkAddr f s n) := by
  rw [walkAddr, walkAddr, lsmRank_succ, if_pos h]
  exact (stepAddr_base f.u _ _).symm

theorem walkAddr_succ_of_not_selected (h : f.reglist.getLsbD n = false) : walkAddr f s (n + 1) = walkAddr f s n := by
  rw [walkAddr, walkAddr, lsmRank_succ, h]
  rfl

/-- The transfer address is the running one, stepped first when `P` (R201). -/
theorem lsmAddr_ofNat (hn : n < 16) :
    lsmAddr f s (BitVec.ofNat 4 n) = if f.p then stepAddr f.u (walkAddr f s n) else walkAddr f s n := by
  have hk : (BitVec.ofNat 4 n).toNat = n := Nat.mod_eq_of_lt hn
  rw [lsmAddr, hk, walkAddr]
  cases f.p
  · rfl
  · exact (stepAddr_base f.u _ _).symm

end

/-! ## The walk -/

theorem allRegs_drop : ∀ n < 16, allRegs.drop n = BitVec.ofNat 4 n :: allRegs.drop (n + 1) := by decide

/-- The state when the walk comes to `x[n]`, if no transfer below raised and `after` is what a transfer leaves. -/
def walked (after : State → RegIx → Word → State) (f : LSM) (s : State) : Nat → State
  | 0 => s
  | n + 1 =>
    if f.reglist.getLsbD n then after (walked after f s n) (BitVec.ofNat 4 n) (lsmAddr f s (BitVec.ofNat 4 n))
    else walked after f s n

section
variable {transfer : State → RegIx → Word → Except Raised State} {after : State → RegIx → Word → State} {f : LSM}
  {s : State}

/-- The transfers of the registers below `x[n]` leave what `after` says. -/
abbrev TransfersBelow (transfer : State → RegIx → Word → Except Raised State) (after : State → RegIx → Word → State)
    (f : LSM) (s : State) (n : Nat) : Prop :=
  ∀ k < n, f.reglist.getLsbD k = true →
    transfer (walked after f s k) (BitVec.ofNat 4 k) (lsmAddr f s (BitVec.ofNat 4 k)) =
      .ok (after (walked after f s k) (BitVec.ofNat 4 k) (lsmAddr f s (BitVec.ofNat 4 k)))

theorem walk_eq_walk_drop {n : Nat} (hn : n ≤ 16) (h : TransfersBelow transfer after f s n) :
    walk transfer f.p f.u f.reglist allRegs (s.reg f.rn) s =
      walk transfer f.p f.u f.reglist (allRegs.drop n) (walkAddr f s n) (walked after f s n) := by
  induction n with
  | zero => rw [walkAddr_zero]; rfl
  | succ n ih =>
    have hk : (BitVec.ofNat 4 n).toNat = n := Nat.mod_eq_of_lt hn
    rw [ih (by omega) fun k hkn => h k (by omega), allRegs_drop n hn, walk, hk, walked]
    cases hsel : f.reglist.getLsbD n with
    | true =>
      rw [if_pos rfl, if_pos rfl, ← lsmAddr_ofNat f s hn, h n (by omega) hsel, walkAddr_succ_of_selected f s hsel]
    | false => rw [if_neg Bool.false_ne_true, if_neg Bool.false_ne_true, walkAddr_succ_of_not_selected f s hsel]

/-- When every transfer is made the writeback of the final address ends the instruction (R201). -/
theorem multipleBody_done (h : TransfersBelow transfer after f s 16) :
    multipleBody transfer f s = .done ((walked after f s 16).setRegIf f.w f.rn (lsmFinal f s)) := by
  rw [multipleBody, walk_eq_walk_drop (Nat.le_refl 16) h]
  rfl

/-- The first transfer that raises ends the walk, in the state the transfers below have left (R286). -/
theorem multipleBody_raised {k : RegIx} {fault : FaultInfo} (h : TransfersBelow transfer after f s k.toNat)
    (hsel : lsmSelects f k)
    (herr : transfer (walked after f s k.toNat) k (lsmAddr f s k) = .error (fault, walked after f s k.toNat)) :
    multipleBody transfer f s = .raised fault (walked after f s k.toNat) := by
  have hk : k.toNat < 16 := k.isLt
  have hself : BitVec.ofNat 4 k.toNat = k := by rw [BitVec.ofNat_toNat, BitVec.setWidth_eq]
  rw [multipleBody, walk_eq_walk_drop hk.le h, allRegs_drop _ hk, hself, walk, if_pos hsel]
  have haddr := lsmAddr_ofNat f s hk
  rw [hself] at haddr
  rw [← haddr, herr]

end

/-! ## LDM -/

/-- What a load's transfer leaves. -/
def loadAfter (t : State) (k : RegIx) (addr : Word) : State := t.setReg k (t.dataWord addr)

section
variable {f : LSM} {s : State}

theorem loadTransfer_ok {t : State} {addr : Word} (h : t.wordAccessible addr) (k : RegIx) :
    loadTransfer t k addr = .ok (loadAfter t k addr) := by
  rw [loadTransfer, State.memRead4_ok h]
  rfl

theorem loadTransfer_fault {t : State} {addr : Word} (h : ¬t.wordAccessible addr) (k : RegIx) :
    loadTransfer t k addr = .error (wordFault addr, t) := by
  rw [loadTransfer, State.memRead4_wordFault h]

theorem walked_load_regs (f : LSM) (s : State) (n : Nat) :
    ∃ regs, walked loadAfter f s n = { s with regs := regs } := by
  induction n with
  | zero => exact ⟨_, rfl⟩
  | succ n ih =>
    obtain ⟨regs, hregs⟩ := ih
    rw [walked, hregs]
    split
    all_goals exact ⟨_, rfl⟩

/-- Each register selected below `x[n]` holds the word at its own address; loads change no memory. -/
theorem reg_walked_load {n : Nat} (hn : n ≤ 16) (r : RegIx) :
    (walked loadAfter f s n).reg r =
      if lsmSelects f r ∧ r.toNat < n then s.dataWord (lsmAddr f s r) else s.reg r := by
  induction n with
  | zero => rw [if_neg (by omega)]; rfl
  | succ n ih =>
    have hk : (BitVec.ofNat 4 n).toNat = n := Nat.mod_eq_of_lt hn
    have ih := ih (by omega)
    by_cases hr : r = BitVec.ofNat 4 n
    · have hrn : r.toNat = n := by rw [hr, hk]
      rw [walked, ← hr]
      cases hsel : f.reglist.getLsbD n with
      | true =>
        obtain ⟨regs, hregs⟩ := walked_load_regs f s n
        rw [if_pos rfl, if_pos ⟨by rwa [lsmSelects, hrn], by omega⟩, hregs, loadAfter, State.reg_setReg, if_pos rfl]
        rfl
      | false =>
        have hnot : ¬lsmSelects f r := by rw [lsmSelects, hrn, hsel]; exact Bool.false_ne_true
        rw [if_neg Bool.false_ne_true, ih, if_neg fun h => hnot h.1, if_neg fun h => hnot h.1]
    · have hne : r.toNat ≠ n := fun h => hr (by rw [← h, BitVec.ofNat_toNat, BitVec.setWidth_eq])
      have hiff : lsmSelects f r ∧ r.toNat < n ↔ lsmSelects f r ∧ r.toNat < n + 1 := and_congr_right' (by omega)
      refine Eq.trans ?_ (ih.trans (if_congr hiff rfl rfl))
      rw [walked]
      split
      · rw [loadAfter, State.reg_setReg, if_neg hr]
      · rfl

/-- The accesses of the walk are those of the state before, as loads change neither memory nor window. -/
theorem transfersBelow_load {n : Nat} (h : ∀ j : RegIx, lsmSelects f j → j.toNat < n → s.wordAccessible (lsmAddr f s j))
    (hn : n ≤ 16) : TransfersBelow loadTransfer loadAfter f s n := by
  intro k hkn hsel
  have hk : (BitVec.ofNat 4 k).toNat = k := Nat.mod_eq_of_lt (by omega)
  obtain ⟨regs, hregs⟩ := walked_load_regs f s k
  refine loadTransfer_ok ?_ _
  rw [hregs]
  exact h _ (by rwa [lsmSelects, hk]) (by rwa [hk])

end

/-! ## STM -/

/-- What a store's transfer leaves. -/
def storeAfter (t : State) (k : RegIx) (addr : Word) : State :=
  t.setDataMem (t.dataMem.setWord (t.dbound.low + addr.toNat) (t.reg k))

/-- Data memory when the walk of a STM comes to `x[n]`. -/
def storedMem (f : LSM) (s : State) : Nat → Memory
  | 0 => s.dataMem
  | n + 1 =>
    if f.reglist.getLsbD n then
      (storedMem f s n).setWord (s.dbound.low + (lsmAddr f s (BitVec.ofNat 4 n)).toNat) (s.reg (BitVec.ofNat 4 n))
    else storedMem f s n

section
variable {f : LSM} {s : State}

theorem storeTransfer_ok {t : State} {k : RegIx} {addr : Word} (h : t.wordAccessible addr) :
    storeTransfer t k addr = .ok (storeAfter t k addr) := State.memWrite4_ok _ h

theorem State.setDataMem_self (s : State) : s.setDataMem s.dataMem = s :=
  congrArg (State.mk s.toCoreState) (Store.setData_self s.store)

/-- Stores change data memory alone, so each register is stored as it was before the instruction. -/
theorem walked_store (f : LSM) (s : State) (n : Nat) : walked storeAfter f s n = s.setDataMem (storedMem f s n) := by
  induction n with
  | zero => exact s.setDataMem_self.symm
  | succ n ih =>
    rw [walked, storedMem, ih]
    split
    · rw [storeAfter, State.setDataMem_setDataMem, State.setDataMem_dataMem]
      rfl
    · rfl

theorem storedMem_capacity (f : LSM) (s : State) (n : Nat) : (storedMem f s n).capacity = s.dataMem.capacity := by
  induction n with
  | zero => rfl
  | succ n ih =>
    rw [storedMem]
    split
    all_goals exact ih

theorem rising_storedMem (hm : s.dataMem.wf) (n : Nat) : rising (storedMem f s n).cells := by
  induction n with
  | zero => exact hm.1
  | succ n ih =>
    rw [storedMem]
    split
    · exact Memory.rising_setWord ih _ _
    · exact ih

theorem wordAccessible_setDataMem {m : Memory} {addr : Word} (hm : m.capacity = s.dataMem.capacity) :
    (s.setDataMem m).wordAccessible addr ↔ s.wordAccessible addr := by
  unfold State.wordAccessible
  rw [State.setDataMem_dataMem, State.setDataMem_dbound, hm]

/-- The accesses of the walk are those of the state before, as stores change no capacity. -/
theorem wordAccessible_walked_store {n : Nat} {addr : Word} :
    (walked storeAfter f s n).wordAccessible addr ↔ s.wordAccessible addr := by
  rw [walked_store]
  exact wordAccessible_setDataMem (storedMem_capacity f s n)

theorem transfersBelow_store {n : Nat} (h : ∀ j : RegIx, lsmSelects f j → j.toNat < n → s.wordAccessible (lsmAddr f s j))
    (hn : n ≤ 16) : TransfersBelow storeTransfer storeAfter f s n := by
  intro k hkn hsel
  have hk : (BitVec.ofNat 4 k).toNat = k := Nat.mod_eq_of_lt (by omega)
  exact storeTransfer_ok (wordAccessible_walked_store.2 (h _ (by rwa [lsmSelects, hk]) (by rwa [hk])))

/-- A byte outside the stored words is as before. -/
theorem byte_storedMem_of_outside {n a : Nat} (hn : n ≤ 16)
    (h : ∀ k : RegIx, lsmSelects f k → k.toNat < n →
      a < s.dbound.low + (lsmAddr f s k).toNat ∨ s.dbound.low + (lsmAddr f s k).toNat + 3 < a) :
    (storedMem f s n).byte a = s.dataMem.byte a := by
  induction n with
  | zero => rfl
  | succ n ih =>
    have hk : (BitVec.ofNat 4 n).toNat = n := Nat.mod_eq_of_lt hn
    have ih := ih (by omega) fun k hk hkn => h k hk (by omega)
    rw [storedMem]
    split
    next hsel => rw [Memory.byte_setWord_ne _ _ (h _ (by rwa [lsmSelects, hk]) (by omega)), ih]
    next => exact ih

theorem lsmRank_le (f : LSM) (n : Nat) : lsmRank f n ≤ n :=
  (List.length_filter_le _ _).trans_eq List.length_range

theorem lsmRank_lt {j k : Nat} (hsel : f.reglist.getLsbD j = true) (hjk : j < k) : lsmRank f j < lsmRank f k := by
  induction k with
  | zero => omega
  | succ k ih =>
    rw [lsmRank_succ]
    by_cases h : j = k
    · subst h
      rw [if_pos hsel]
      omega
    · have := ih (by omega)
      omega

/-- Selected registers have different addresses: sixteen steps of 4 do not come round. -/
theorem lsmAddr_ne {j k : RegIx} (hsel : lsmSelects f j) (hjk : j.toNat < k.toNat) : lsmAddr f s j ≠ lsmAddr f s k := by
  have hlt := lsmRank_lt hsel hjk
  have hle := lsmRank_le f k.toNat
  have hk := k.isLt
  have hne : BitVec.ofNat 32 (4 * (lsmRank f j.toNat + if f.p then 1 else 0)) ≠
      BitVec.ofNat 32 (4 * (lsmRank f k.toNat + if f.p then 1 else 0)) := by
    intro h
    have h := congrArg BitVec.toNat h
    rw [BitVec.toNat_ofNat, BitVec.toNat_ofNat] at h
    split at h
    all_goals omega
  unfold lsmAddr
  cases f.u
  · exact fun h => hne (by simpa using h)
  · exact fun h => hne (by simpa using h)

/-- Aligned words at different addresses do not overlap. -/
theorem words_apart {a b : Word} (ha : a.toNat % 4 = 0) (hb : b.toNat % 4 = 0) (h : a ≠ b) (low : Nat) :
    low + a.toNat + 3 < low + b.toNat ∨ low + b.toNat + 3 < low + a.toNat := by
  have hne : a.toNat ≠ b.toNat := fun heq => h (BitVec.eq_of_toNat_eq heq)
  omega

/-- Each register selected below `x[n]` stands at its own address. -/
theorem word_storedMem (hm : s.dataMem.wf) {n : Nat} (hn : n ≤ 16)
    (h : ∀ j : RegIx, lsmSelects f j → j.toNat < n → s.wordAccessible (lsmAddr f s j)) {k : RegIx}
    (hsel : lsmSelects f k) (hk : k.toNat < n) :
    (storedMem f s n).word (s.dbound.low + (lsmAddr f s k).toNat) = s.reg k := by
  induction n with
  | zero => omega
  | succ n ih =>
    have hn' : (BitVec.ofNat 4 n).toNat = n := Nat.mod_eq_of_lt hn
    by_cases heq : k.toNat = n
    · have hself : BitVec.ofNat 4 n = k := by rw [← heq, BitVec.ofNat_toNat, BitVec.setWidth_eq]
      rw [storedMem, if_pos (heq ▸ hsel), hself]
      exact Memory.word_setWord (rising_storedMem hm n) _ _
    · have ih := ih (by omega) (fun j hj hjn => h j hj (by omega)) (by omega)
      rw [storedMem]
      split
      next hseln =>
        have hka := h k hsel hk
        have hna := h (BitVec.ofNat 4 n) (by rwa [lsmSelects, hn']) (by omega)
        rw [Memory.word_setWord_ne _ _ (words_apart hka.1 hna.1 (lsmAddr_ne hsel (by omega)) _), ih]
      next => exact ih

end

/-! ## The obligations -/

/-- Settles O42: every transfer of the walk is made, and the writeback comes after the loads. -/
theorem loadMultipleResult : Obligations.LoadMultipleResult := by
  unfold Obligations.LoadMultipleResult
  intro f s hp h
  have hbody := multipleBody_done (transfersBelow_load (fun j hj _ => h j hj) (Nat.le_refl 16))
  obtain ⟨regs, hregs⟩ := walked_load_regs f s 16
  obtain ⟨hreg, hframe⟩ := regs_advance_effect (s := s)
    (u := (walked loadAfter f s 16).setRegIf f.w f.rn (lsmFinal f s)) (by
      rw [hregs]
      exact setRegIf_regs ..)
  refine ⟨_, (execute_pass _ hp).trans (congrArg (Body.finish s.pc) hbody), fun r => ?_, hframe⟩
  rw [hreg, State.reg_setRegIf, reg_walked_load (Nat.le_refl 16)]
  simp only [r.isLt, and_true]

/-- Settles O43: the walk ends at `x[k]`'s transfer, in the state with the registers below loaded. -/
theorem loadMultipleFault : Obligations.LoadMultipleFault := by
  unfold Obligations.LoadMultipleFault
  intro f s k hp hsel hk h
  have hle : k.toNat ≤ 16 := k.isLt.le
  obtain ⟨regs, hregs⟩ := walked_load_regs f s k.toNat
  have hbody := multipleBody_raised (transfersBelow_load h hle) hsel (loadTransfer_fault (by rw [hregs]; exact hk) k)
  refine ⟨_, (execute_pass _ hp).trans (congrArg (Body.finish s.pc) hbody), ⟨rfl, rfl, rfl⟩,
    fun r => reg_walked_load hle r, ?_⟩
  rw [hregs]
  exact ⟨rfl, rfl, rfl, rfl, rfl, rfl, rfl⟩

/-- Settles O44: the walk writes data memory alone, and no stored word overlaps another. -/
theorem storeMultipleResult : Obligations.StoreMultipleResult := by
  unfold Obligations.StoreMultipleResult
  intro f s hp hm h
  have hbody := multipleBody_done (transfersBelow_store (fun j hj _ => h j hj) (Nat.le_refl 16))
  rw [walked_store] at hbody
  have hdata : (((s.setDataMem (storedMem f s 16)).setRegIf f.w f.rn (lsmFinal f s)).advance).dataMem = storedMem f s 16 := by
    rw [State.advance_dataMem, State.setRegIf_dataMem, State.setDataMem_dataMem]
  obtain ⟨-, hframe⟩ := setDataMem_setRegIf_advance_effect (stored := fun a => some ((storedMem f s 16).byte a))
    (storedMem_capacity f s 16) (fun _ => rfl) f.w f.rn (lsmFinal f s)
  refine ⟨_, (execute_pass _ hp).trans (congrArg (Body.finish s.pc) hbody), fun k hk => ?_, fun a ha => ?_, hframe⟩
  · unfold State.dataWord
    rw [hdata, State.advance_dbound, State.setRegIf_dbound]
    exact word_storedMem hm (Nat.le_refl 16) (fun j hj _ => h j hj) hk k.isLt
  · rw [hdata]
    exact byte_storedMem_of_outside (Nat.le_refl 16) fun k hk _ => ha k hk

/-- Settles O45: the walk ends at `x[k]`'s transfer, in the state with the words below stored. -/
theorem storeMultipleFault : Obligations.StoreMultipleFault := by
  unfold Obligations.StoreMultipleFault
  intro f s k hp hm hsel hk h
  have hle : k.toNat ≤ 16 := k.isLt.le
  have hbody := multipleBody_raised (transfersBelow_store h hle) hsel
    (State.memWrite4_wordFault _ (wordAccessible_walked_store.not.2 hk))
  rw [walked_store] at hbody
  have hdata : ((s.setDataMem (storedMem f s k.toNat)).raise (wordFault (lsmAddr f s k)) s.pc).dataMem =
      storedMem f s k.toNat := by
    rw [State.raise_dataMem, State.setDataMem_dataMem]
  refine ⟨_, (execute_pass _ hp).trans (congrArg (Body.finish s.pc) hbody), ⟨rfl, rfl, rfl⟩, fun j hj hjk => ?_,
    fun a ha => ?_, fun _ => rfl, rfl, ⟨?_, ?_⟩, rfl, rfl, rfl, rfl, rfl⟩
  · unfold State.dataWord
    rw [hdata]
    exact word_storedMem hm hle h hj hjk
  · rw [hdata]
    exact byte_storedMem_of_outside hle ha
  · rw [hdata]
    rfl
  · rw [hdata, storedMem_capacity]

end Sys2Proof.Machine
end

