-- ==== Sys2Proof/Proofs/Windows.lean ====
section
/-! PROOFS. A Core sees nothing outside its windows (spec 20_memory.md R66, R67): two machines that agree inside the windows read
the same, and write so that they agree again. Each operation is taken through this relation once, then each body, then the
step. -/

namespace Sys2Proof.Machine

/-! ## Reads through a Bound -/

section
variable {m m' : Memory} {b : Bound}

theorem checkWord_congr (hcap : m'.capacity = m.capacity) (addr : Word) : checkWord m' b addr = checkWord m b addr := by
  simp only [checkWord, checkResolved, hcap]

theorem checkByte_congr (hcap : m'.capacity = m.capacity) (addr : Word) : checkByte m' b addr = checkByte m b addr := by
  simp only [checkByte, checkResolved, hcap]

/-- A word read looks at bytes that the window reaches. -/
theorem readWord_congr (hcap : m'.capacity = m.capacity) (hb : ∀ a, windowReaches b a → m'.byte a = m.byte a)
    (addr : Word) : m'.readWord b addr = m.readWord b addr := by
  cases hc : checkWord m b addr with
  | some f =>
    rw [Memory.readWord_of_check_some hc, Memory.readWord_of_check_some ((checkWord_congr hcap addr).trans hc)]
  | none =>
    obtain ⟨ha, hhigh, -⟩ := checkWord_eq_none.1 hc
    have hin : ∀ k < 4, windowReaches b (resolveWord b addr + k) := by
      intro k hk
      unfold windowReaches resolveWord
      omega
    rw [Memory.readWord_of_check_none hc, Memory.readWord_of_check_none ((checkWord_congr hcap addr).trans hc),
      Memory.word, Memory.word, hb (resolveWord b addr) (hin 0 (by decide)), hb _ (hin 1 (by decide)), hb _ (hin 2 (by decide)),
      hb _ (hin 3 (by decide))]

theorem readByte_congr (hcap : m'.capacity = m.capacity) (hb : ∀ a, windowReaches b a → m'.byte a = m.byte a)
    (addr : Word) : m'.readByte b addr = m.readByte b addr := by
  cases hc : checkByte m b addr with
  | some f =>
    rw [Memory.readByte_of_check_some hc, Memory.readByte_of_check_some ((checkByte_congr hcap addr).trans hc)]
  | none =>
    obtain ⟨hhigh, -⟩ := checkByte_eq_none.1 hc
    have hin : windowReaches b (storageByte b addr) := by
      unfold windowReaches storageByte
      omega
    rw [Memory.readByte_of_check_none hc, Memory.readByte_of_check_none ((checkByte_congr hcap addr).trans hc), hb _ hin]

end

/-! ## Machines that agree -/

section
variable {s s' t t' : State}

theorem Store.sameShape.capacities {st st' : Store} (h : st.sameShape st') :
    st'.prog.capacity = st.prog.capacity ∧ st'.data.capacity = st.data.capacity := by
  match st, st', h with
  | .coincident _, .coincident _, h => exact ⟨h.symm, h.symm⟩
  | .separate _ _, .separate _ _, h => exact ⟨h.1.symm, h.2.symm⟩

/-- Both machines moved to Cores that are equal again, with no Bound and no Memory changed. -/
theorem AgreeInWindows.of_core (h : AgreeInWindows s s') (hst : t.store = s.store) (hst' : t'.store = s'.store)
    (hp : t.pbound = s.pbound) (hd : t.dbound = s.dbound) (hc : t'.toCoreState = t.toCoreState) : AgreeInWindows t t' := by
  obtain ⟨-, hshape, hwf, hprog, hdata⟩ := h
  refine ⟨hc, by rwa [hst, hst'], ?_, ?_, ?_⟩
  · simpa only [State.progMem, State.dataMem, hst, hst'] using hwf
  · simpa only [State.progMem, hst, hst', hp] using hprog
  · simpa only [State.dataMem, hst, hst', hd] using hdata

/-- Both data Memories replaced by ones in which the same bytes were stored. -/
theorem AgreeInWindows.setDataMem {m m' : Memory} {stored : Nat → Option Byte} (h : AgreeInWindows s s')
    (hcap : m.capacity = m'.capacity) (hwf : m.wf) (hwf' : m'.wf)
    (hb : ∀ a, m.byte a = (stored a).getD (s.dataMem.byte a))
    (hb' : ∀ a, m'.byte a = (stored a).getD (s'.dataMem.byte a)) :
    AgreeInWindows (s.setDataMem m) (s'.setDataMem m') := by
  obtain ⟨hcore, hshape, ⟨hwp, -, hwp', -⟩, hprog, hdata⟩ := h
  have hbytes : ∀ {a}, s'.dataMem.byte a = s.dataMem.byte a → m'.byte a = m.byte a := fun ha => by rw [hb, hb', ha]
  obtain ⟨c, st⟩ := s
  obtain ⟨c', st'⟩ := s'
  match st, st', hshape with
  | .coincident _, .coincident _, _ =>
    exact ⟨hcore, hcap, ⟨hwf, hwf, hwf', hwf'⟩, fun a ha => hbytes (hprog a ha), fun a ha => hbytes (hdata a ha)⟩
  | .separate _ _, .separate _ _, hshape =>
    exact ⟨hcore, ⟨hshape.1, hcap⟩, ⟨hwp, hwf, hwp', hwf'⟩, hprog, fun a ha => hbytes (hdata a ha)⟩

theorem AgreeInWindows.bounds (h : AgreeInWindows s s') : s'.pbound = s.pbound ∧ s'.dbound = s.dbound := by
  rw [h.core]
  exact ⟨rfl, rfl⟩

theorem AgreeInWindows.capacities (h : AgreeInWindows s s') :
    s'.progMem.capacity = s.progMem.capacity ∧ s'.dataMem.capacity = s.dataMem.capacity := h.shape.capacities

theorem AgreeInWindows.reg (h : AgreeInWindows s s') (i : RegIx) : s'.reg i = s.reg i := by
  unfold State.reg
  rw [h.core]

/-! ## The accesses -/

theorem AgreeInWindows.fetch (h : AgreeInWindows s s') (addr : Word) : s'.fetch addr = s.fetch addr := by
  rw [State.fetch, State.fetch, h.bounds.1]
  exact readWord_congr h.capacities.1 h.prog addr

theorem AgreeInWindows.memRead4 (h : AgreeInWindows s s') (addr : Word) : s'.memRead4 addr = s.memRead4 addr := by
  rw [State.memRead4, State.memRead4, h.bounds.2]
  exact readWord_congr h.capacities.2 h.data addr

theorem AgreeInWindows.memRead1 (h : AgreeInWindows s s') (addr : Word) : s'.memRead1 addr = s.memRead1 addr := by
  rw [State.memRead1, State.memRead1, h.bounds.2]
  exact readByte_congr h.capacities.2 h.data addr

theorem AgreeInWindows.memRead2 (h : AgreeInWindows s s') (addr : Word) : s'.memRead2 addr = s.memRead2 addr := by
  rw [State.memRead2, State.memRead2, h.memRead1, h.memRead1]

/-- The machines agree, and their configuration is sound: what a write needs to keep the canonical form. -/
structure AgreeSound (s s' : State) : Prop where
  agree    : AgreeInWindows s s'
  configOk : s.configOk

theorem AgreeSound.configOk' (h : AgreeSound s s') : s'.configOk := by
  obtain ⟨hp, hd⟩ := h.agree.bounds
  obtain ⟨hcp, hcd⟩ := h.agree.capacities
  have hc := h.configOk
  unfold State.configOk at hc ⊢
  rw [hp, hd]
  exact ⟨hcp ▸ hc.1, hcd ▸ hc.2.1, hc.2.2⟩

end

/-- Two accesses that end alike: both in values that are related, or both by one fault in machines that agree. -/
inductive AgreeExcept {α : Type} (P : α → α → Prop) : Except Raised α → Except Raised α → Prop
  | ok {x x' : α} (h : P x x') : AgreeExcept P (.ok x) (.ok x')
  | error (f : FaultInfo) {t t' : State} (h : AgreeSound t t') : AgreeExcept P (.error (f, t)) (.error (f, t'))

section
variable {s s' : State}

theorem AgreeSound.of_core {t t' : State} (h : AgreeSound s s') (hst : t.store = s.store) (hst' : t'.store = s'.store)
    (hp : t.pbound = s.pbound) (hd : t.dbound = s.dbound) (hc : t'.toCoreState = t.toCoreState) : AgreeSound t t' := by
  refine ⟨h.agree.of_core hst hst' hp hd hc, ?_⟩
  have hcfg := h.configOk
  unfold State.configOk State.progMem State.dataMem at hcfg ⊢
  rwa [hst, hp, hd]

theorem AgreeSound.setDataMem {m m' : Memory} {stored : Nat → Option Byte} (h : AgreeSound s s')
    (hk : MemKept s.dbound s.dataMem m) (hk' : MemKept s'.dbound s'.dataMem m')
    (hb : ∀ a, m.byte a = (stored a).getD (s.dataMem.byte a))
    (hb' : ∀ a, m'.byte a = (stored a).getD (s'.dataMem.byte a)) : AgreeSound (s.setDataMem m) (s'.setDataMem m') := by
  obtain ⟨-, hdcap, -, -, -, hdal⟩ := h.configOk
  obtain ⟨-, hdcap', -, -, -, hdal'⟩ := h.configOk'
  obtain ⟨-, hwf, -, hwf'⟩ := h.agree.wf
  have hcap : m.capacity = m'.capacity := by rw [hk.capacity, hk'.capacity, h.agree.capacities.2]
  refine ⟨h.agree.setDataMem hcap (hk.wf hdcap hdal hwf) (hk'.wf hdcap' hdal' hwf') hb hb', ?_⟩
  refine configOk_of_same (s := s) ⟨rfl, rfl, rfl, rfl, rfl⟩ (capacities_of_setData ?_ ?_) h.configOk
  · rw [State.setDataMem_dataMem]
    rfl
  · rw [State.setDataMem_dataMem, hk.capacity]

theorem agree_memWrite4 (h : AgreeSound s s') (addr v : Word) :
    AgreeExcept AgreeSound (s.memWrite4 addr v) (s'.memWrite4 addr v) := by
  have hd := h.agree.bounds.2
  have hiff : s'.wordAccessible addr ↔ s.wordAccessible addr := by
    rw [State.wordAccessible, State.wordAccessible, hd, h.agree.capacities.2]
  by_cases ha : s.wordAccessible addr
  · have ha' := hiff.2 ha
    rw [State.memWrite4_ok v ha, State.memWrite4_ok v ha']
    refine .ok (h.setDataMem (.setWord v ha.1 ha.2.1 ha.2.2) (.setWord v ha'.1 ha'.2.1 ha'.2.2)
      (byte_setWord_eq_stored h.agree.wf.2.1 addr v) ?_)
    have hstored : StoreKind.word.stored s addr v = StoreKind.word.stored s' addr v := by
      funext a
      rw [StoreKind.stored, StoreKind.stored, hd]
    rw [hstored]
    exact byte_setWord_eq_stored h.agree.wf.2.2.2 addr v
  · rw [State.memWrite4_wordFault v ha, State.memWrite4_wordFault v (hiff.not.2 ha)]
    exact .error _ h

theorem agree_memWrite1 (h : AgreeSound s s') (addr : Word) (v : Byte) :
    AgreeExcept AgreeSound (s.memWrite1 addr v) (s'.memWrite1 addr v) := by
  have hd := h.agree.bounds.2
  have hiff : s'.byteAccessible addr ↔ s.byteAccessible addr := by
    rw [State.byteAccessible, State.byteAccessible, hd, h.agree.capacities.2]
  by_cases ha : s.byteAccessible addr
  · have ha' := hiff.2 ha
    rw [State.memWrite1_ok v ha, State.memWrite1_ok v ha']
    refine .ok (h.setDataMem (stored := fun a => if a = s.dbound.low + addr.toNat then some v else none)
      (.setByte v ha.1 ha.2) (.setByte v ha'.1 ha'.2) (fun a => ?_) fun a => ?_)
    · rw [Memory.byte_setByte h.agree.wf.2.1.1, apply_ite (Option.getD · _)]
      rfl
    · rw [Memory.byte_setByte h.agree.wf.2.2.2.1, apply_ite (Option.getD · _), hd]
      rfl
  · rw [State.memWrite1_outOfBounds v ha, State.memWrite1_outOfBounds v (hiff.not.2 ha)]
    exact .error _ h

theorem agree_memWrite2 (h : AgreeSound s s') (addr : Word) (v : Half) :
    AgreeExcept AgreeSound (s.memWrite2 addr v) (s'.memWrite2 addr v) := by
  have h1 := agree_memWrite1 h addr (v.extractLsb' 0 8)
  rw [State.memWrite2, State.memWrite2]
  revert h1
  generalize s.memWrite1 addr (v.extractLsb' 0 8) = r
  generalize s'.memWrite1 addr (v.extractLsb' 0 8) = r'
  rintro (h1 | ⟨f, h1⟩)
  · exact agree_memWrite1 h1 _ _
  · exact .error f h1

end

/-! ## The bodies -/

/-- Two bodies that end alike, in machines that agree. -/
inductive AgreeBody : Body → Body → Prop
  | done {t t' : State} (h : AgreeSound t t') : AgreeBody (.done t) (.done t')
  | branched {t t' : State} (h : AgreeSound t t') : AgreeBody (.branched t) (.branched t')
  | raised (f : FaultInfo) {t t' : State} (h : AgreeSound t t') : AgreeBody (.raised f t) (.raised f t')

section
variable {s s' : State}

theorem AgreeSound.setReg (h : AgreeSound s s') (i : RegIx) (v : Word) : AgreeSound (s.setReg i v) (s'.setReg i v) := by
  refine h.of_core rfl rfl rfl rfl ?_
  simp only [State.setReg, h.agree.core]

theorem AgreeSound.setFlags (h : AgreeSound s s') (f : Flags) : AgreeSound (s.setFlags f) (s'.setFlags f) := by
  refine h.of_core rfl rfl rfl rfl ?_
  simp only [State.setFlags, h.agree.core]

theorem AgreeSound.setRegIf (h : AgreeSound s s') (on : Bool) (i : RegIx) (v : Word) :
    AgreeSound (s.setRegIf on i v) (s'.setRegIf on i v) := by
  cases on
  · exact h
  · exact h.setReg i v

theorem AgreeSound.setFlagsIf (h : AgreeSound s s') (on : Bool) (f : Flags) :
    AgreeSound (if on then s.setFlags f else s) (if on then s'.setFlags f else s') := by
  cases on
  · exact h
  · exact h.setFlags f

theorem AgreeSound.reg (h : AgreeSound s s') (i : RegIx) : s'.reg i = s.reg i := h.agree.reg i

theorem AgreeSound.pc (h : AgreeSound s s') : s'.pc = s.pc := h.reg pcIx

theorem AgreeSound.flags (h : AgreeSound s s') : s'.flags = s.flags := by
  rw [h.agree.core]

theorem AgreeSound.advance (h : AgreeSound s s') : AgreeSound s.advance s'.advance := by
  rw [State.advance, State.advance, h.pc]
  exact h.setReg _ _

theorem AgreeSound.raise (h : AgreeSound s s') (f : FaultInfo) (a : Word) : AgreeSound (s.raise f a) (s'.raise f a) := by
  refine h.of_core rfl rfl rfl rfl ?_
  simp only [State.raise, h.agree.core]

theorem agree_dataOp (h : AgreeSound s s') (d : DataOp) : AgreeBody (d.body s) (d.body s') := by
  have hop2 : d.op2.read s' = d.op2.read s := by
    cases d.op2
    all_goals simp only [Operand2.read, operand2Reg, operand2RegShift, h.reg]
  unfold DataOp.body
  split
  · rw [dataWrite, dataWrite, hop2, h.reg, h.flags]
    exact .done ((h.setReg _ _).setFlagsIf _ _)
  · rw [dataTest, dataTest, hop2, h.reg, h.flags]
    exact .done (h.setFlags _)

theorem offset_value_congr (h : AgreeSound s s') (o : Offset) : o.value s' = o.value s := by
  cases o
  · rfl
  · simp only [Offset.value, h.reg]

theorem agree_loadOp (h : AgreeSound s s') (d : LoadOp) : AgreeBody (d.body s) (d.body s') := by
  have hread : ∀ addr, d.kind.read s' addr = d.kind.read s addr := by
    intro addr
    cases d.kind
    case word => exact h.agree.memRead4 addr
    case byte | signedByte => exact congrArg (Except.map _) (h.agree.memRead1 addr)
    case half | signedHalf => exact congrArg (Except.map _) (h.agree.memRead2 addr)
  rw [LoadOp.body, loadBody, loadBody, h.reg, offset_value_congr h, hread]
  split
  · exact .raised _ h
  · exact .done ((h.setRegIf _ _ _).setReg _ _)

theorem agree_storeOp (h : AgreeSound s s') (d : StoreOp) : AgreeBody (d.body s) (d.body s') := by
  have hwrite : ∀ addr v, AgreeExcept AgreeSound (d.kind.write s addr v) (d.kind.write s' addr v) := by
    intro addr v
    cases d.kind
    case word => exact agree_memWrite4 h addr v
    case byte => exact agree_memWrite1 h addr _
    case half => exact agree_memWrite2 h addr _
  have hw := hwrite (resolve d.mem.p d.mem.u d.mem.w (s.reg d.mem.rn) (d.mem.off.value s)).addr (s.reg d.rd)
  rw [StoreOp.body, storeBody, storeBody, h.reg, h.reg, offset_value_congr h]
  revert hw
  generalize d.kind.write s _ _ = r
  generalize d.kind.write s' _ _ = r'
  rintro (hw | ⟨f, hw⟩)
  · exact .done (hw.setRegIf _ _ _)
  · exact .raised f hw

theorem agree_loadTransfer (h : AgreeSound s s') (k : RegIx) (addr : Word) :
    AgreeExcept AgreeSound (loadTransfer s k addr) (loadTransfer s' k addr) := by
  rw [loadTransfer, loadTransfer, h.agree.memRead4]
  split
  · exact .error _ h
  · exact .ok (h.setReg _ _)

theorem agree_storeTransfer (h : AgreeSound s s') (k : RegIx) (addr : Word) :
    AgreeExcept AgreeSound (storeTransfer s k addr) (storeTransfer s' k addr) := by
  rw [storeTransfer, storeTransfer, h.reg]
  exact agree_memWrite4 h addr _

/-- Two walks that come to the same address in machines that agree. -/
abbrev AgreeWalk (x x' : Word × State) : Prop := x'.1 = x.1 ∧ AgreeSound x.2 x'.2

variable {transfer : State → RegIx → Word → Except Raised State}

theorem agree_walk
    (ht : ∀ {s s'}, AgreeSound s s' → ∀ k addr, AgreeExcept AgreeSound (transfer s k addr) (transfer s' k addr))
    (h : AgreeSound s s') (p u : Bool) (reglist : BitVec 16) (ks : List RegIx) (addr : Word) :
    AgreeExcept AgreeWalk (walk transfer p u reglist ks addr s) (walk transfer p u reglist ks addr s') := by
  induction ks generalizing addr s s' with
  | nil => exact .ok ⟨rfl, h⟩
  | cons k rest ih =>
    rw [walk, walk]
    split
    · have hk := ht h k (if p then stepAddr u addr else addr)
      revert hk
      generalize transfer s k _ = r
      generalize transfer s' k _ = r'
      rintro (hk | ⟨f, hk⟩)
      · exact ih hk _
      · exact .error f hk
    · exact ih h addr

theorem agree_multipleBody
    (ht : ∀ {s s'}, AgreeSound s s' → ∀ k addr, AgreeExcept AgreeSound (transfer s k addr) (transfer s' k addr))
    (h : AgreeSound s s') (f : LSM) : AgreeBody (multipleBody transfer f s) (multipleBody transfer f s') := by
  have hwalk := agree_walk ht h f.p f.u f.reglist allRegs (s.reg f.rn)
  rw [multipleBody, multipleBody, h.reg]
  revert hwalk
  generalize walk transfer f.p f.u f.reglist allRegs (s.reg f.rn) s = r
  generalize walk transfer f.p f.u f.reglist allRegs (s.reg f.rn) s' = r'
  rintro (⟨haddr, hw⟩ | ⟨fault, hw⟩)
  · dsimp only
    rw [haddr]
    exact .done (hw.setRegIf _ _ _)
  · exact .raised fault hw

theorem agree_mulWrite (h : AgreeSound s s') (upd : Bool) (rd : RegIx) (v : Word) :
    AgreeBody (mulWrite upd rd v s) (mulWrite upd rd v s') := by
  rw [mulWrite, mulWrite, h.flags]
  exact .done ((h.setReg _ _).setFlagsIf _ _)

theorem agree_longWrite (h : AgreeSound s s') (upd : Bool) (rdHi rdLo : RegIx) (v : DWord) :
    AgreeBody (longWrite upd rdHi rdLo v s) (longWrite upd rdHi rdLo v s') := by
  rw [longWrite, longWrite, h.flags]
  exact .done (((h.setReg _ _).setReg _ _).setFlagsIf _ _)

theorem agree_swapWord (h : AgreeSound s s') (f : SWPF) : AgreeBody (swapWord f s) (swapWord f s') := by
  have hw := agree_memWrite4 h (s.reg f.rn) (s.reg f.rm)
  rw [swapWord, swapWord, h.reg, h.reg, h.agree.memRead4]
  split
  · exact .raised _ h
  · revert hw
    generalize s.memWrite4 _ _ = r
    generalize s'.memWrite4 _ _ = r'
    rintro (hw | ⟨fault, hw⟩)
    · exact .done (hw.setReg _ _)
    · exact .raised fault hw

theorem agree_swapByte (h : AgreeSound s s') (f : SWPF) : AgreeBody (swapByte f s) (swapByte f s') := by
  have hw := agree_memWrite1 h (s.reg f.rn) ((s.reg f.rm).extractLsb' 0 8)
  rw [swapByte, swapByte, h.reg, h.reg, h.agree.memRead1]
  split
  · exact .raised _ h
  · revert hw
    generalize s.memWrite1 _ _ = r
    generalize s'.memWrite1 _ _ = r'
    rintro (hw | ⟨fault, hw⟩)
    · exact .done (hw.setReg _ _)
    · exact .raised fault hw

/-! ## The instruction -/

/-- Two results that are both next states, in machines that agree. -/
abbrev AgreeResult (r r' : Result) : Prop := ∃ t t', r = .next t ∧ r' = .next t' ∧ AgreeSound t t'

theorem agree_finish {b b' : Body} (h : AgreeBody b b') (a : Word) : AgreeResult (b.finish a) (b'.finish a) := by
  cases h with
  | done h => exact ⟨_, _, rfl, rfl, h.advance⟩
  | branched h => exact ⟨_, _, rfl, rfl, h⟩
  | raised f h => exact ⟨_, _, rfl, rfl, h.raise f a⟩

theorem agree_execute {body : State → Body} (c : Cond) (h : AgreeSound s s') (hb : AgreeBody (body s) (body s')) :
    AgreeResult (execute c body s) (execute c body s') := by
  rw [execute, execute, h.flags, h.pc]
  split
  · exact agree_finish hb _
  · exact ⟨_, _, rfl, rfl, h.advance⟩

theorem agree_exec (h : AgreeSound s s') (i : Instr) : AgreeResult (exec i s) (exec i s') := by
  cases hd : dataOp? i with
  | some d =>
    rw [exec_of_dataOp? hd, exec_of_dataOp? hd]
    exact agree_execute _ h (agree_dataOp h d)
  | none =>
  cases hl : loadOp? i with
  | some d =>
    rw [exec_of_loadOp? hl, exec_of_loadOp? hl]
    exact agree_execute _ h (agree_loadOp h d)
  | none =>
  cases hst : storeOp? i with
  | some d =>
    rw [exec_of_storeOp? hst, exec_of_storeOp? hst]
    exact agree_execute _ h (agree_storeOp h d)
  | none =>
  cases i
  case b f =>
    refine agree_execute _ h ?_
    rw [branchBody, branchBody, h.pc]
    exact .branched (h.setReg _ _)
  case bl f =>
    refine agree_execute _ h ?_
    rw [branchLinkBody, branchLinkBody, h.pc]
    exact .branched ((h.setReg _ _).setReg _ _)
  case bx f =>
    refine agree_execute _ h ?_
    rw [branchExchangeBody, branchExchangeBody, h.pc, h.reg]
    exact .branched ((h.setReg _ _).setReg _ _)
  case ldm f => exact agree_execute _ h (agree_multipleBody agree_loadTransfer h f)
  case stm f => exact agree_execute _ h (agree_multipleBody agree_storeTransfer h f)
  case mul f | mla f =>
    refine agree_execute _ h ?_
    simp only [mulBody, mlaBody, h.reg]
    exact agree_mulWrite h _ _ _
  case umull f | umlal f | smull f | smlal f =>
    refine agree_execute _ h ?_
    simp only [umullBody, umlalBody, smullBody, smlalBody, unsignedProduct, signedProduct, accumulator, h.reg]
    exact agree_longWrite h _ _ _ _
  case swp f => exact agree_execute _ h (agree_swapWord h f)
  case swpb f => exact agree_execute _ h (agree_swapByte h f)
  case mrs | msrReg | msrImm | blxReg | bkpt | qadd | qsub | qdadd | qdsub | cdp | mcr | mrc | ldc | stc | swi =>
    exact agree_execute _ h (.raised _ h)
  case blxImm =>
    rw [exec, exec, execBlxImm, execBlxImm, h.pc]
    exact agree_finish (.raised _ h) _
  all_goals simp [dataOp?, loadOp?, storeOp?] at hd hl hst

/-! ## The step -/

/-- What a step is about to do depends on nothing outside the windows. -/
theorem AgreeInWindows.select_eq (h : AgreeInWindows s s') : select s' = select s := by
  obtain ⟨hp, hd⟩ := h.bounds
  obtain ⟨hcp, hcd⟩ := h.capacities
  have hpc : s'.pc = s.pc := h.reg pcIx
  have hout : s'.outsidePremises = s.outsidePremises := by
    simp only [State.outsidePremises, hcp, hcd, hp, hd]
  have hpast : s'.pastEnd = s.pastEnd := by simp only [State.pastEnd, hp, hpc]
  unfold select
  rw [hout, hpast, hpc, h.fetch, h.core]

/-- Machines that agree step to machines that agree. -/
theorem AgreeInWindows.step_next {t : State} (h : AgreeInWindows s s') (hstep : step s = .next t) :
    ∃ t', step s' = .next t' ∧ AgreeInWindows t t' := by
  cases hr : s.run with
  | halted =>
    cases (step_halted hr).symm.trans hstep
    exact ⟨s', step_halted (by rw [h.core, hr]), h⟩
  | running =>
    have hc : s.configOk := by
      rcases step_cases hstep with ⟨hh, -⟩ | ⟨-, hc, -⟩
      · rw [hr] at hh
        cases hh
      · exact hc
    have hs : AgreeSound s s' := ⟨h, hc⟩
    unfold step at hstep ⊢
    rw [h.select_eq]
    cases hsel : select s with
    | stay => rw [hsel] at hstep; cases hstep; exact ⟨_, rfl, h⟩
    | outside r => rw [hsel] at hstep; cases r <;> cases hstep
    | halt cause =>
      rw [hsel] at hstep
      cases hstep
      refine ⟨_, rfl, h.of_core rfl rfl rfl rfl ?_⟩
      simp only [State.halt, h.core]
    | raise f =>
      rw [hsel] at hstep
      cases hstep
      exact ⟨_, rfl, by rw [hs.pc]; exact (hs.raise f _).agree⟩
    | skip =>
      rw [hsel] at hstep
      cases hstep
      exact ⟨_, rfl, hs.advance.agree⟩
    | run i =>
      rw [hsel] at hstep
      obtain ⟨u, u', hu, hu', ha⟩ := agree_exec hs i
      cases hu.symm.trans hstep
      exact ⟨u', hu', ha.agree⟩

end

/-! ## The obligation -/

/-- Settles O57: the relation that every operation of a step keeps. -/
theorem nothingOutsideIsSeen : Obligations.NothingOutsideIsSeen := by
  unfold Obligations.NothingOutsideIsSeen
  intro s s' t h hstep
  exact h.step_next hstep

end Sys2Proof.Machine
end

