-- ==== Sys2Proof/Proofs/Processor.lean ====
section
/-! PROOFS. Several Cores (spec 20_memory.md R66, R77, 60_exceptions.md R298, decision D32): a step of one Core leaves what
another Core's windows reach, so the other Core's view agrees with the one before, and Windows says what that Core's step
then does. -/

namespace Sys2Proof.Machine

/-! ## Slices (R66) -/

section
variable {cap n i j : Nat}

/-- The slice below ends before the slice above begins. -/
theorem slice_high_lt_low (hw : 0 < cap / n) (h : i < j) : (Config.slice cap n i).high < (Config.slice cap n j).low := by
  have hmul : (i + 1) * (cap / n) ≤ j * (cap / n) := Nat.mul_le_mul_right _ h
  rw [Nat.succ_mul] at hmul
  dsimp only [Config.slice]
  omega

theorem slice_size (hw : 0 < cap / n) : (Config.slice cap n i).high + 1 = (Config.slice cap n i).low + cap / n := by
  dsimp only [Config.slice]
  omega

theorem slice_inside (hw : 0 < cap / n) (h : i < n) : (Config.slice cap n i).high < cap := by
  have hmul : (i + 1) * (cap / n) ≤ n * (cap / n) := Nat.mul_le_mul_right _ h
  have hle : n * (cap / n) ≤ cap := Nat.mul_div_le cap n
  rw [Nat.succ_mul] at hmul
  dsimp only [Config.slice]
  omega

end

/-- A Core of the Von Neumann topology has one window, its slice. -/
theorem vonNeumann_apart {m : Memory} {n i j : Nat} (hw : 0 < m.capacity / n) (h : i < j) :
    CoreSlot.apart ⟨freshCore (Config.slice m.capacity n i) (Config.slice m.capacity n i), 0, 0⟩
      ⟨freshCore (Config.slice m.capacity n j) (Config.slice m.capacity n j), 0, 0⟩ := by
  intro a ha b hb
  obtain rfl : a = (0, Config.slice m.capacity n i) := by simpa [CoreSlot.windows, freshCore] using ha
  obtain rfl : b = (0, Config.slice m.capacity n j) := by simpa [CoreSlot.windows, freshCore] using hb
  exact .inr (.inl (slice_high_lt_low hw h))

/-! ## A Core's view -/

section
variable {p : Processor} {k : Nat} {c : CoreSlot} {s : State}

theorem CoreSlot.prog_mem_windows (c : CoreSlot) : (c.pmem, c.core.pbound) ∈ c.windows := .head _

theorem CoreSlot.data_mem_windows (c : CoreSlot) : (c.dmem, c.core.dbound) ∈ c.windows := .tail _ (.head _)

/-- The store of a slot, from the two Memories it names. -/
def CoreSlot.store (c : CoreSlot) (pm dm : Memory) : Store := if c.pmem = c.dmem then .coincident pm else .separate pm dm

theorem CoreSlot.store_prog (c : CoreSlot) (pm dm : Memory) : (c.store pm dm).prog = pm := by
  unfold CoreSlot.store
  split
  all_goals rfl

theorem CoreSlot.store_data {pm dm : Memory} (h : c.pmem = c.dmem → pm = dm) : (c.store pm dm).data = dm := by
  unfold CoreSlot.store
  split
  next heq => exact h heq
  · rfl

theorem CoreSlot.store_sameShape (c : CoreSlot) {pm dm pm' dm' : Memory} (hp : pm'.capacity = pm.capacity)
    (hd : dm'.capacity = dm.capacity) : (c.store pm dm).sameShape (c.store pm' dm') := by
  unfold CoreSlot.store
  split
  · exact hp.symm
  · exact ⟨hp.symm, hd.symm⟩

theorem view_of_slot {pm dm : Memory} (hc : p.cores[k]? = some c) (hp : p.mems[c.pmem]? = some pm)
    (hd : p.mems[c.dmem]? = some dm) : p.view k = some ⟨c.core, c.store pm dm⟩ := by
  simp only [Processor.view, hc, Processor.storeOf, hp, hd]
  rfl

theorem view_eq_some (h : p.view k = some s) :
    ∃ c pm dm, p.cores[k]? = some c ∧ p.mems[c.pmem]? = some pm ∧ p.mems[c.dmem]? = some dm ∧
      s = ⟨c.core, c.store pm dm⟩ := by
  cases hc : p.cores[k]? with
  | none => simp only [Processor.view, hc] at h; cases h
  | some c =>
    cases hp : p.mems[c.pmem]? with
    | none => simp only [Processor.view, hc, Processor.storeOf, hp] at h; cases h
    | some pm =>
      cases hd : p.mems[c.dmem]? with
      | none => simp only [Processor.view, hc, Processor.storeOf, hp, hd] at h; cases h
      | some dm =>
        rw [view_of_slot hc hp hd] at h
        exact ⟨c, pm, dm, rfl, hp, hd, (Option.some.inj h).symm⟩

theorem eq_of_same_slot {l : List Memory} {i j : Nat} {m m' : Memory} (hi : l[i]? = some m) (hj : l[j]? = some m')
    (h : i = j) : m = m' := by
  subst h
  exact Option.some.inj (hi.symm.trans hj)

/-- The Core and the data Memory of a view are those its slot names. -/
theorem view_parts (hc : p.cores[k]? = some c) (h : p.view k = some s) :
    s.toCoreState = c.core ∧ p.mems[c.dmem]? = some s.dataMem := by
  obtain ⟨c', pm, dm, hc', hp, hd, rfl⟩ := view_eq_some h
  obtain rfl : c' = c := Option.some.inj (hc'.symm.trans hc)
  exact ⟨rfl, hd.trans (congrArg some (CoreSlot.store_data (eq_of_same_slot hp hd)).symm)⟩

end

/-! ## The step of one Core -/

/-- Core `k` of the Processor takes the step from `s` to `t`. -/
structure CoreStep (p : Processor) (k : Nat) (c : CoreSlot) (s t : State) : Prop where
  slot     : p.cores[k]? = some c
  view     : p.view k = some s
  configOk : s.configOk
  step     : step s = .next t

/-- What becomes of a Memory of the Processor when a Core's state is put back. -/
def memAfter (c : CoreSlot) (t : State) (i : Nat) (m : Memory) : Memory := if i = c.dmem then t.dataMem else m

section
variable {p : Processor} {j k : Nat} {c d : CoreSlot} {s t u : State}

theorem stepCore_of_coreStep (h : CoreStep p k c s t) (hp : p.populated) (hd : p.disjoint) :
    p.stepCore k = .next (p.putBack k c t) := by
  rw [Processor.stepCore, if_neg (not_not.2 hp), if_neg (not_not.2 hd), h.slot, h.view]
  dsimp only
  rw [h.step]

theorem coreStep_of_sound (h : p.sound) (hk : k < p.cores.length) : ∃ c s t, CoreStep p k c s t := by
  obtain ⟨-, -, -, hview⟩ := h
  obtain ⟨s, hs, hc⟩ := hview k hk
  obtain ⟨t, ht⟩ := step_answers hc
  exact ⟨_, s, t, List.getElem?_eq_getElem hk, hs, hc, ht⟩

theorem mems_putBack {i : Nat} {m : Memory} (hm : p.mems[i]? = some m) (c : CoreSlot) (t : State) :
    (p.putBack j c t).mems[i]? = some (memAfter c t i m) := by
  have hi : i < p.mems.length := (List.getElem?_eq_some_iff.1 hm).1
  rw [Processor.putBack, List.getElem?_set, memAfter]
  by_cases h : i = c.dmem
  · subst h
    rw [if_pos rfl, if_pos rfl, if_pos hi]
  · rw [if_neg (Ne.symm h), if_neg h, hm]

theorem cores_putBack_ne (h : j ≠ k) (c : CoreSlot) (t : State) : (p.putBack j c t).cores[k]? = p.cores[k]? :=
  List.getElem?_set_ne h

/-- Putting a Core's state back changes no window. -/
theorem windows_putBack (h : CoreStep p k c s t) :
    (p.putBack k c t).cores.map CoreSlot.windows = p.cores.map CoreSlot.windows := by
  obtain ⟨hcore, -⟩ := view_parts h.slot h.view
  obtain ⟨⟨-, hp, hd, -⟩, -⟩ := (stepped_of_step h.step).environment
  have hslot : CoreSlot.windows { c with core := t.toCoreState } = c.windows := by
    dsimp only [CoreSlot.windows]
    rw [hp, hd, hcore]
  obtain ⟨hk, hc⟩ := List.getElem?_eq_some_iff.1 h.slot
  dsimp only [Processor.putBack]
  rw [List.map_set, hslot, ← hc, ← List.getElem_map CoreSlot.windows (h := by rwa [List.length_map])]
  exact List.set_getElem_self _

theorem populated_putBack (hp : p.populated) (c : CoreSlot) (t : State) : (p.putBack k c t).populated := by
  dsimp only [Processor.populated, Processor.putBack]
  rwa [List.length_set]

theorem disjoint_iff_windows : p.disjoint ↔
    (p.cores.map CoreSlot.windows).Pairwise fun v w => ∀ a ∈ v, ∀ b ∈ w, Window.apart a b := by
  rw [List.pairwise_map]

theorem disjoint_putBack (h : CoreStep p k c s t) (hd : p.disjoint) : (p.putBack k c t).disjoint := by
  rwa [disjoint_iff_windows, windows_putBack h, ← disjoint_iff_windows]

/-! ## Windows apart -/

/-- The words of windows that do not overlap do not overlap either: their low ends are aligned (R52, R77). -/
theorem not_windowReaches_of_apart {a b : Bound} (hao : a.ordered) (hbo : b.ordered) (ha : a.aligned) (hb : b.aligned)
    (h : a.high < b.low ∨ b.high < a.low) {x : Nat} (hx : windowReaches b x) : ¬windowReaches a x := by
  unfold windowReaches at hx ⊢
  simp only [Bound.ordered] at hao hbo
  simp only [Bound.aligned] at ha hb
  omega

theorem CoreSlot.apart_of_disjoint (hd : p.disjoint) (hjk : j ≠ k) (hj : p.cores[j]? = some c)
    (hk : p.cores[k]? = some d) : c.apart d := by
  obtain ⟨hjl, rfl⟩ := List.getElem?_eq_some_iff.1 hj
  obtain ⟨hkl, rfl⟩ := List.getElem?_eq_some_iff.1 hk
  rcases Nat.lt_or_gt_of_ne hjk with hlt | hgt
  · exact List.pairwise_iff_getElem.1 hd j k hjl hkl hlt
  · intro a ha b hb
    rcases List.pairwise_iff_getElem.1 hd k j hkl hjl hgt b hb a ha with hne | hlow | hhigh
    · exact .inl (Ne.symm hne)
    · exact .inr (.inr hlow)
    · exact .inr (.inl hhigh)

/-! ## Another Core's view after a step -/

theorem Processor.sound.wf (h : p.sound) {i : Nat} {m : Memory} (hm : p.mems[i]? = some m) : m.wf := by
  obtain ⟨-, -, hwf, -⟩ := h
  exact hwf m (List.mem_of_getElem? hm)

/-- Of a Memory of the Processor, a Core's step leaves the capacity, the canonical form, and every byte that a window apart
from the Core's data window reaches. -/
theorem memAfter_kept (h : CoreStep p j c s t) (hs : p.sound) {w : Window} (ho : w.2.ordered) (hal : w.2.aligned)
    (hap : Window.apart (c.dmem, c.core.dbound) w) {m : Memory} (hm : p.mems[w.1]? = some m) :
    (memAfter c t w.1 m).capacity = m.capacity ∧ (memAfter c t w.1 m).wf ∧
      ∀ a, windowReaches w.2 a → (memAfter c t w.1 m).byte a = m.byte a := by
  unfold memAfter
  split
  next heq =>
    obtain ⟨hcore, hdata⟩ := view_parts h.slot h.view
    obtain rfl : m = s.dataMem := eq_of_same_slot hm hdata heq
    obtain ⟨-, -, hmem⟩ := (stepped_of_step h.step).environment
    obtain ⟨-, hcap, -, hdo, -, hdal⟩ := h.configOk
    refine ⟨hmem.capacity, hmem.wf hcap hdal (hs.wf hm), fun a ha => hmem.outside a ?_⟩
    rw [← hcore] at hap
    exact not_windowReaches_of_apart hdo ho hdal hal (hap.resolve_left (Ne.symm · heq)) ha
  · exact ⟨rfl, hs.wf hm, fun _ _ => rfl⟩

/-- After a step of Core `j`, Core `k` has a view that agrees with the one before. -/
theorem view_putBack (h : CoreStep p j c s t) (hs : p.sound) (hjk : j ≠ k) (hk : p.cores[k]? = some d)
    (hv : p.view k = some u) (hc : u.configOk) :
    ∃ u', (p.putBack j c t).view k = some u' ∧ AgreeInWindows u u' ∧ u'.dataMem = memAfter c t d.dmem u.dataMem := by
  obtain ⟨d', pm, dm, hd', hp, hd, rfl⟩ := view_eq_some hv
  obtain rfl : d' = d := Option.some.inj (hd'.symm.trans hk)
  have hsame : d'.pmem = d'.dmem → pm = dm := eq_of_same_slot hp hd
  have hsame' : d'.pmem = d'.dmem → memAfter c t d'.pmem pm = memAfter c t d'.dmem dm :=
    fun heq => by rw [hsame heq, heq]
  have hap := CoreSlot.apart_of_disjoint hs.2.1 hjk h.slot hk
  obtain ⟨-, -, hpo, hdo, hpal, hdal⟩ := hc
  obtain ⟨hpcap, hpwf, hpbyte⟩ :=
    memAfter_kept h hs hpo hpal (hap _ c.data_mem_windows _ d'.prog_mem_windows) hp
  obtain ⟨hdcap, hdwf, hdbyte⟩ :=
    memAfter_kept h hs hdo hdal (hap _ c.data_mem_windows _ d'.data_mem_windows) hd
  refine ⟨_, view_of_slot ((cores_putBack_ne hjk c t).trans hk) (mems_putBack hp c t) (mems_putBack hd c t),
    ⟨rfl, CoreSlot.store_sameShape d' hpcap hdcap, ?_, ?_, ?_⟩, ?_⟩
  all_goals
    simp only [State.progMem, State.dataMem, CoreSlot.store_prog, CoreSlot.store_data hsame, CoreSlot.store_data hsame']
  · exact ⟨hs.wf hp, hs.wf hd, hpwf, hdwf⟩
  · exact hpbyte
  · exact hdbyte

/-! ## Two steps -/

/-- The step of slot `d` from `u` ends in `v`; taken after the step of slot `c` to `t`, it ends in `v'`. -/
structure StepAfter (c : CoreSlot) (t : State) (d : CoreSlot) (u v v' : State) : Prop where
  core      : v'.toCoreState = v.toCoreState
  capacity  : v.dataMem.capacity = u.dataMem.capacity
  capacity' : v'.dataMem.capacity = v.dataMem.capacity
  wf        : v.dataMem.wf ∧ v'.dataMem.wf
  inside    : ∀ a, windowReaches d.core.dbound a → v'.dataMem.byte a = v.dataMem.byte a
  outside   : ∀ a, ¬windowReaches d.core.dbound a → v.dataMem.byte a = u.dataMem.byte a
  outside'  : ∀ a, ¬windowReaches d.core.dbound a → v'.dataMem.byte a = (memAfter c t d.dmem u.dataMem).byte a

end

section
variable {p : Processor} {j k : Nat} {c d : CoreSlot} {s t t' u v v' : State}

theorem stepAfter_of_coreSteps (h : CoreStep p j c s t) (hk : CoreStep p k d u v) (hs : p.sound) (hjk : j ≠ k) :
    ∃ v', (p.putBack j c t).stepCore k = .next ((p.putBack j c t).putBack k d v') ∧ StepAfter c t d u v v' := by
  have ⟨hpop, hdis, _, _⟩ := hs
  obtain ⟨u', hview, hagree, hdata⟩ := view_putBack h hs hjk hk.slot hk.view hk.configOk
  obtain ⟨v', hstep', hagree'⟩ := hagree.step_next hk.step
  have hk' : CoreStep (p.putBack j c t) k d u' v' :=
    ⟨(cores_putBack_ne hjk c t).trans hk.slot, hview, AgreeSound.configOk' ⟨hagree, hk.configOk⟩, hstep'⟩
  obtain ⟨hcore, -⟩ := view_parts hk.slot hk.view
  obtain ⟨⟨-, -, hdb, -, -⟩, -, hmem⟩ := (stepped_of_step hk.step).environment
  obtain ⟨-, -, hmem'⟩ := (stepped_of_step hstep').environment
  obtain ⟨-, hwf, -, hwf'⟩ := hagree'.wf
  rw [hagree.bounds.2] at hmem'
  rw [hcore] at hmem hmem' hdb
  rw [hdata] at hmem'
  refine ⟨v', stepCore_of_coreStep hk' (populated_putBack hpop c t) (disjoint_putBack h hdis),
    hagree'.core, hmem.capacity, hagree'.capacities.2, ⟨hwf, hwf'⟩, ?_, hmem.outside, hmem'.outside⟩
  rw [← hdb]
  exact hagree'.data

/-- In a Memory the other Core does not write, the step leaves what it leaves alone. -/
theorem StepAfter.data_eq (h : StepAfter c t d u v v') (hne : d.dmem ≠ c.dmem) : v'.dataMem = v.dataMem := by
  refine Memory.ext_of_wf h.wf.2 h.wf.1 h.capacity' fun a => ?_
  by_cases ha : windowReaches d.core.dbound a
  · exact h.inside a ha
  · rw [h.outside a ha, h.outside' a ha, memAfter, if_neg hne]

/-- In one Memory, both orders leave the same: each Core's bytes are those its own step leaves. -/
theorem StepAfter.data_comm (hk : StepAfter c t d u v v') (hj : StepAfter d v c s t t') (heq : c.dmem = d.dmem)
    (hsame : u.dataMem = s.dataMem)
    (hap : ∀ a, windowReaches c.core.dbound a → ¬windowReaches d.core.dbound a) : v'.dataMem = t'.dataMem := by
  have hout : ∀ a, ¬windowReaches d.core.dbound a → v'.dataMem.byte a = t.dataMem.byte a := by
    intro a ha
    rw [hk.outside' a ha, memAfter, if_pos heq.symm]
  have hout' : ∀ a, ¬windowReaches c.core.dbound a → t'.dataMem.byte a = v.dataMem.byte a := by
    intro a ha
    rw [hj.outside' a ha, memAfter, if_pos heq]
  refine Memory.ext_of_wf hk.wf.2 hj.wf.2 ?_ fun a => ?_
  · rw [hk.capacity', hk.capacity, hj.capacity', hj.capacity, hsame]
  · by_cases hc : windowReaches c.core.dbound a
    · rw [hout a (hap a hc), hj.inside a hc]
    · rw [hout' a hc]
      by_cases hd : windowReaches d.core.dbound a
      · exact hk.inside a hd
      · rw [hout a hd, hj.outside a hc, hk.outside a hd, hsame]

/-- The data windows of two Cores that write one Memory reach no byte in common. -/
theorem dataWindows_apart (hj : CoreStep p j c s t) (hk : CoreStep p k d u v) (hdis : p.disjoint) (hjk : j ≠ k)
    (heq : c.dmem = d.dmem) {a : Nat} (ha : windowReaches c.core.dbound a) : ¬windowReaches d.core.dbound a := by
  obtain ⟨-, -, -, hjo, -, hjal⟩ := hj.configOk
  obtain ⟨-, -, -, hko, -, hkal⟩ := hk.configOk
  rw [(view_parts hj.slot hj.view).1] at hjo hjal
  rw [(view_parts hk.slot hk.view).1] at hko hkal
  have hap := CoreSlot.apart_of_disjoint hdis (Ne.symm hjk) hk.slot hj.slot _ d.data_mem_windows _ c.data_mem_windows
  exact not_windowReaches_of_apart hko hjo hkal hjal (hap.resolve_left (Ne.symm · heq)) ha

/-- Two Cores put back in either order, with the same Core states and the same Memories in the end. -/
theorem putBack_comm (hjk : j ≠ k) (hk : v'.toCoreState = v.toCoreState) (hj : t'.toCoreState = t.toCoreState)
    (hmem : (p.mems.set c.dmem t.dataMem).set d.dmem v'.dataMem = (p.mems.set d.dmem v.dataMem).set c.dmem t'.dataMem) :
    (p.putBack j c t).putBack k d v' = (p.putBack k d v).putBack j c t' := by
  dsimp only [Processor.putBack]
  rw [hmem, hk, hj, List.set_comm _ _ hjk]

end

/-! ## The obligations -/

/-- Settles O58: the other Core's slot is not the one put back, and its view agrees with the one before. -/
theorem otherCoresAreUntouched : Obligations.OtherCoresAreUntouched := by
  unfold Obligations.OtherCoresAreUntouched
  intro p q j k hjk hs hstep
  obtain ⟨-, -, c, s, t, hslot, hview, ht, rfl⟩ := stepCore_cases hstep
  have hconfig : ∀ {i : Nat} {u : State}, p.view i = some u → u.configOk := by
    intro i u hv
    obtain ⟨d, -, -, hd, -⟩ := view_eq_some hv
    obtain ⟨u', hv', hc⟩ := hs.2.2.2 i (List.getElem?_eq_some_iff.1 hd).1
    rwa [Option.some.inj (hv.symm.trans hv')]
  refine ⟨cores_putBack_ne hjk c t, fun u hu => ?_⟩
  obtain ⟨d, -, -, hd, -⟩ := view_eq_some hu
  obtain ⟨u', hu', hagree, -⟩ := view_putBack ⟨hslot, hview, hconfig hview, ht⟩ hs hjk hd hu (hconfig hu)
  exact ⟨u', hu', hagree.core, hagree.prog, hagree.data⟩

/-- Settles O59: each Core's second step ends as its first would have (`stepAfter_of_coreSteps`); the Memories written
are two, or one that both orders leave the same. -/
theorem coresCommute : Obligations.CoresCommute := by
  unfold Obligations.CoresCommute
  intro p j k hjk hj hk hs
  have ⟨hpop, hdis, _, _⟩ := hs
  obtain ⟨c, s, t, hstepj⟩ := coreStep_of_sound hs hj
  obtain ⟨d, u, v, hstepk⟩ := coreStep_of_sound hs hk
  obtain ⟨v', hv', hafterk⟩ := stepAfter_of_coreSteps hstepj hstepk hs hjk
  obtain ⟨t', ht', hafterj⟩ := stepAfter_of_coreSteps hstepk hstepj hs (Ne.symm hjk)
  refine ⟨_, _, _, stepCore_of_coreStep hstepj hpop hdis, stepCore_of_coreStep hstepk hpop hdis, hv', ?_⟩
  rw [ht', putBack_comm hjk hafterk.core hafterj.core]
  by_cases heq : c.dmem = d.dmem
  · have hsame : u.dataMem = s.dataMem :=
      eq_of_same_slot (view_parts hstepk.slot hstepk.view).2 (view_parts hstepj.slot hstepj.view).2 heq.symm
    rw [← heq, List.set_set, List.set_set,
      hafterk.data_comm hafterj heq hsame fun _ => dataWindows_apart hstepj hstepk hdis hjk heq]
  · rw [hafterk.data_eq (Ne.symm heq), hafterj.data_eq heq, List.set_comm _ _ heq]

/-- Settles O60: a slice ends before the next begins. -/
theorem slicesAreDisjoint : Obligations.SlicesAreDisjoint := by
  unfold Obligations.SlicesAreDisjoint
  refine ⟨fun m n hw => ⟨?_, vonNeumann_length m n, ?_⟩, rfl, rfl⟩
  · exact List.pairwise_map.2 (List.pairwise_lt_range.imp (vonNeumann_apart hw))
  · intro c hc
    obtain ⟨i, hi, rfl⟩ := List.mem_map.1 hc
    exact ⟨rfl, slice_size hw, slice_inside hw (List.mem_range.1 hi)⟩

end Sys2Proof.Machine
end
